-- ==== Sys2Proof/Word.lean ====
section
/-! DEFINITION. The word types of ECDB: a byte of MEM, a 16-bit duration or width, and the 32-bit
word of a register, a bus access or a command (spec 10_state.md R21, 20_memory.md R77, 30_encoding.md R100). -/

namespace Sys2Proof

/-- One byte of MEM (20_memory.md R70). -/
abbrev Byte := BitVec 8

/-- A 16-bit quantity: an event's duration, a pulse width, `DEC_HALF_US` (10_state.md R42, R45). -/
abbrev Half := BitVec 16

/-- A 32-bit quantity: a register, a command word, a bus address (10_state.md R21, R53). -/
abbrev Word := BitVec 32

end Sys2Proof
end

