-- ==== Sys2Proof/Syntax.lean ====
section
/-! DEFINITION. The syntax: the twenty commands of spec/opcode_table.json, the host's bus accesses of which a
program is a list (30_encoding.md R111, 45_host_bus.md R321), and whose turn it is to take a step
(60_exceptions.md R356). -/

namespace Sys2Proof

/-- The commands, one constructor per row of the opcode table (30_encoding.md R106). Only formats I and E carry
operands in the word (R103, R104); every other operand is in an argument register (R105). -/
inductive Instr where
  /-- NOP (R327). -/
  | nop
  /-- RB_INIT (R144). -/
  | rbInit
  /-- RB_RESET (R145). -/
  | rbReset
  /-- RB_WRITE (R146). -/
  | rbWrite
  /-- RB_INSERT (R147). -/
  | rbInsert
  /-- RB_READ (R148). -/
  | rbRead
  /-- RB_ADVANCE_READ (R149). -/
  | rbAdvanceRead
  /-- RB_GET_READ_ADDRESS (R150). -/
  | rbGetReadAddress
  /-- RB_GET_READ_LEN (R151). -/
  | rbGetReadLen
  /-- RB_CHECK_EMPTY (R152). -/
  | rbCheckEmpty
  /-- CAP_START (R194). -/
  | capStart
  /-- CAP_PAUSE (R195). -/
  | capPause
  /-- CAP_PROCESS (R184). -/
  | capProcess
  /-- NTF_TAKE (R197). -/
  | ntfTake
  /-- NTF_WAIT (R198). -/
  | ntfWait
  /-- DEC_BEGIN `imm` (R227): the whole 16-bit immediate, of which only 0 to 3 name a protocol. -/
  | decBegin (imm : Half)
  /-- DEC_EXECUTE (R229). -/
  | decExecute
  /-- DEC_EVENT `dur, lvl` (R230). -/
  | decEvent (dur : Half) (lvl : Bool)
  /-- DEC_GET_DATA (R231). -/
  | decGetData
  /-- DEC_PARTIAL_RESET (R228). -/
  | decPartialReset
deriving DecidableEq, Repr

/-- One bus access of the HOST agent in decoded form (45_host_bus.md R320, R321): which of the two address spaces,
the 32-bit address or offset, the width in bytes, and for a write the data (log entry 15). -/
inductive HostAccess where
  /-- `RegRead(off)` by an access of `n` bytes. -/
  | regRead (off : Word) (n : Nat)
  /-- `RegWrite(off, v)` by an access of `n` bytes. -/
  | regWrite (off : Word) (n : Nat) (v : Word)
  /-- `MemReadHost(a, n)`. -/
  | memRead (a : Word) (n : Nat)
  /-- `MemWriteHost(a, n, v)`. -/
  | memWrite (a : Word) (n : Nat) (v : Word)
deriving DecidableEq, Repr

/-- Which agent the next step is given to (60_exceptions.md R356). -/
inductive Turn where
  /-- TIMER: a `Tick`, where it is enabled. -/
  | timer
  /-- SIGNAL: an `Edge`. -/
  | signal
  /-- HOST: the next micro-step of the command in flight, or the next bus access. -/
  | host
deriving DecidableEq, Repr

end Sys2Proof
end

