-- ==== Sys2Proof/Decode.lean ====
section
/-! DEFINITION. The decoder of a command word, total on any word and rejecting by name, the encoder, and the
opcode table as data (30_encoding.md R100 to R108). -/

namespace Sys2Proof

/-- Why a word is illegal (30_encoding.md R102, R108); both are `ERR_OPCODE` to the host. -/
inductive DecodeError where
  /-- `OPC` is none of the twenty opcodes (R108). -/
  | unknownOpcode (opc : Byte)
  /-- A must-be-zero field of the opcode's format is not zero (R102). -/
  | mustBeZero (opc : Byte)
deriving DecidableEq, Repr

/-- What decoding a word gives. -/
inductive Decoded where
  | ok (i : Instr)
  | illegal (e : DecodeError)
deriving DecidableEq, Repr

/-- `OPC = word[7:0]` (R101). -/
def opcOf (w : Word) : Byte := w.extractLsb' 0 8

/-- `AUX = word[15:8]` (R101). -/
def auxOf (w : Word) : Byte := w.extractLsb' 8 8

/-- `IMM = word[31:16]` (R101). -/
def immOf (w : Word) : Half := w.extractLsb' 16 16

/-- Format N: IMM and AUX must be 0 (R101, R102). -/
def decodeN (w : Word) (i : Instr) : Decoded :=
  if immOf w = 0#16 ∧ auxOf w = 0#8 then .ok i else .illegal (.mustBeZero (opcOf w))

/-- Format I, used by DEC_BEGIN: AUX must be 0, IMM is the immediate (R101, R103). -/
def decodeI (w : Word) : Decoded :=
  if auxOf w = 0#8 then .ok (.decBegin (immOf w)) else .illegal (.mustBeZero (opcOf w))

/-- Format E, used by DEC_EVENT: bits 15:9 must be 0, IMM is the duration, bit 8 the level (R101, R104). -/
def decodeE (w : Word) : Decoded :=
  if w.extractLsb' 9 7 = 0#7 then .ok (.decEvent (immOf w) (w.getLsbD 8))
  else .illegal (.mustBeZero (opcOf w))

/-- The command a word encodes (R106, R108). -/
def decode (w : Word) : Decoded :=
  match (opcOf w).toNat with
  | 0x00 => decodeN w .nop
  | 0x10 => decodeN w .rbInit
  | 0x11 => decodeN w .rbReset
  | 0x12 => decodeN w .rbWrite
  | 0x13 => decodeN w .rbInsert
  | 0x14 => decodeN w .rbRead
  | 0x15 => decodeN w .rbAdvanceRead
  | 0x16 => decodeN w .rbGetReadAddress
  | 0x17 => decodeN w .rbGetReadLen
  | 0x18 => decodeN w .rbCheckEmpty
  | 0x20 => decodeN w .capStart
  | 0x21 => decodeN w .capPause
  | 0x22 => decodeN w .capProcess
  | 0x23 => decodeN w .ntfTake
  | 0x24 => decodeN w .ntfWait
  | 0x30 => decodeI w
  | 0x31 => decodeN w .decExecute
  | 0x32 => decodeE w
  | 0x33 => decodeN w .decGetData
  | 0x34 => decodeN w .decPartialReset
  | _ => .illegal (.unknownOpcode (opcOf w))

/-- The word of a command: `IMM ++ AUX ++ OPC` (R101, R106, R112). -/
def encode : Instr → Word
  | .nop => 0x00000000#32
  | .rbInit => 0x00000010#32
  | .rbReset => 0x00000011#32
  | .rbWrite => 0x00000012#32
  | .rbInsert => 0x00000013#32
  | .rbRead => 0x00000014#32
  | .rbAdvanceRead => 0x00000015#32
  | .rbGetReadAddress => 0x00000016#32
  | .rbGetReadLen => 0x00000017#32
  | .rbCheckEmpty => 0x00000018#32
  | .capStart => 0x00000020#32
  | .capPause => 0x00000021#32
  | .capProcess => 0x00000022#32
  | .ntfTake => 0x00000023#32
  | .ntfWait => 0x00000024#32
  | .decBegin imm => imm ++ 0x00#8 ++ 0x30#8
  | .decExecute => 0x00000031#32
  | .decEvent dur lvl => dur ++ 0#7 ++ BitVec.ofBool lvl ++ 0x32#8
  | .decGetData => 0x00000033#32
  | .decPartialReset => 0x00000034#32

/-- One row of the table of R106: `w` selects it when `w and mask = pattern`. -/
structure OpcodeRow where
  mnemonic : String
  pattern : Word
  mask : Word
deriving DecidableEq, Repr

/-- The table of R106, in its order. -/
def opcodeTable : List OpcodeRow :=
  [⟨"NOP", 0x00000000#32, 0xFFFFFFFF#32⟩, ⟨"RB_INIT", 0x00000010#32, 0xFFFFFFFF#32⟩,
   ⟨"RB_RESET", 0x00000011#32, 0xFFFFFFFF#32⟩, ⟨"RB_WRITE", 0x00000012#32, 0xFFFFFFFF#32⟩,
   ⟨"RB_INSERT", 0x00000013#32, 0xFFFFFFFF#32⟩, ⟨"RB_READ", 0x00000014#32, 0xFFFFFFFF#32⟩,
   ⟨"RB_ADVANCE_READ", 0x00000015#32, 0xFFFFFFFF#32⟩,
   ⟨"RB_GET_READ_ADDRESS", 0x00000016#32, 0xFFFFFFFF#32⟩,
   ⟨"RB_GET_READ_LEN", 0x00000017#32, 0xFFFFFFFF#32⟩, ⟨"RB_CHECK_EMPTY", 0x00000018#32, 0xFFFFFFFF#32⟩]
  ++ [⟨"CAP_START", 0x00000020#32, 0xFFFFFFFF#32⟩, ⟨"CAP_PAUSE", 0x00000021#32, 0xFFFFFFFF#32⟩,
   ⟨"CAP_PROCESS", 0x00000022#32, 0xFFFFFFFF#32⟩, ⟨"NTF_TAKE", 0x00000023#32, 0xFFFFFFFF#32⟩,
   ⟨"NTF_WAIT", 0x00000024#32, 0xFFFFFFFF#32⟩, ⟨"DEC_BEGIN", 0x00000030#32, 0x0000FFFF#32⟩,
   ⟨"DEC_EXECUTE", 0x00000031#32, 0xFFFFFFFF#32⟩, ⟨"DEC_EVENT", 0x00000032#32, 0x0000FEFF#32⟩,
   ⟨"DEC_GET_DATA", 0x00000033#32, 0xFFFFFFFF#32⟩, ⟨"DEC_PARTIAL_RESET", 0x00000034#32, 0xFFFFFFFF#32⟩]

/-- `w` matches a row (R102, R106). -/
def OpcodeRow.selects (r : OpcodeRow) (w : Word) : Bool := w &&& r.mask == r.pattern

/-- A command's mnemonic (R106). -/
def mnemonicOf : Instr → String
  | .nop => "NOP"
  | .rbInit => "RB_INIT"
  | .rbReset => "RB_RESET"
  | .rbWrite => "RB_WRITE"
  | .rbInsert => "RB_INSERT"
  | .rbRead => "RB_READ"
  | .rbAdvanceRead => "RB_ADVANCE_READ"
  | .rbGetReadAddress => "RB_GET_READ_ADDRESS"
  | .rbGetReadLen => "RB_GET_READ_LEN"
  | .rbCheckEmpty => "RB_CHECK_EMPTY"
  | .capStart => "CAP_START"
  | .capPause => "CAP_PAUSE"
  | .capProcess => "CAP_PROCESS"
  | .ntfTake => "NTF_TAKE"
  | .ntfWait => "NTF_WAIT"
  | .decBegin _ => "DEC_BEGIN"
  | .decExecute => "DEC_EXECUTE"
  | .decEvent _ _ => "DEC_EVENT"
  | .decGetData => "DEC_GET_DATA"
  | .decPartialReset => "DEC_PARTIAL_RESET"

/-- How many argument registers a command reads, `ARG[0]` first (R106, R112). -/
def argCount : Instr → Nat
  | .nop => 0
  | .rbInit => 3
  | .rbReset => 0
  | .rbWrite => 2
  | .rbInsert => 1
  | .rbRead => 2
  | .rbAdvanceRead => 1
  | .rbGetReadAddress => 0
  | .rbGetReadLen => 0
  | .rbCheckEmpty => 0
  | .capStart => 0
  | .capPause => 0
  | .capProcess => 0
  | .ntfTake => 0
  | .ntfWait => 0
  | .decBegin _ => 0
  | .decExecute => 2
  | .decEvent _ _ => 0
  | .decGetData => 1
  | .decPartialReset => 0

/-- A mnemonic with its operands as the bus accesses it stands for: the argument registers it uses, in order, then
CMD (R111, R112). -/
def expand (i : Instr) (a0 a1 a2 : Word) : List HostAccess :=
  ([.regWrite 0x08#32 4 a0, .regWrite 0x0C#32 4 a1, .regWrite 0x10#32 4 a2].take (argCount i))
  ++ [.regWrite 0x00#32 4 (encode i)]

/-- The instruction the decoder reads from the word whose bits are `w`, of which the first `nbits` are given and
the rest are 0 (one 32-bit word per command, R100); none where it refuses. -/
def decodeTableWord (nbits w : Nat) : Option Instr :=
  match decode (BitVec.ofNat 32 (w % 2 ^ nbits)) with
  | .ok i => some i
  | .illegal _ => none

end Sys2Proof
end

