-- ==== Sys2Proof/Config.lean ====
section
/-! DEFINITION. The implementation parameters of spec 00_scope.md R8 (plain data, one record for the life of a
machine), their defaults, and the free values: constants with no body, of which nothing can be proved. -/

namespace Sys2Proof

/-- How a full-bit interval is split (00_scope.md R8 `EM_SPLIT`, 43_em4100.md R255). -/
inductive EmSplit where
  | nominal
  | halved
deriving DecidableEq, Repr

/-- The parameters of 00_scope.md R8, under the spec's names in lower camel case. R8's ranges are
`Config.wellFormed` (WellFormed.lean). -/
structure Config where
  /-- `CNT_WIDTH`: bits of the counter and of a capture value. -/
  cntWidth : Nat
  /-- `BLOCK_LEN`: capture values per block. -/
  blockLen : Nat
  /-- `BQ_DEPTH`: slots of the block-index queue. -/
  bqDepth : Nat
  /-- `MEM_SIZE`: bytes of MEM. -/
  memSize : Nat
  /-- `FRAME_CHUNK_SIZE`: most events of one DEC_EXECUTE. -/
  frameChunkSize : Nat
  /-- `EDGE_BUF_LEN`: slots of the edge accumulation buffer. -/
  edgeBufLen : Nat
  /-- `EM_HALF_US[0]`, of EM4100. -/
  emHalfUs0 : Nat
  /-- `EM_HALF_US[1]`, of EM4100/32. -/
  emHalfUs1 : Nat
  /-- `EM_HALF_US[2]`, of EM4100/16. -/
  emHalfUs2 : Nat
  /-- `EM_TOL_HALF_PCT`. -/
  emTolHalfPct : Nat
  /-- `EM_TOL_PAIR_PCT`. -/
  emTolPairPct : Nat
  /-- `EM_SPLIT`. -/
  emSplit : EmSplit
  /-- `H10_PERIOD_ZERO_US`. -/
  h10PeriodZeroUs : Nat
  /-- `H10_PERIOD_ONE_US`. -/
  h10PeriodOneUs : Nat
  /-- `H10_TOL_PCT`. -/
  h10TolPct : Nat
  /-- `H10_ONE_WIN`. -/
  h10OneWin : Nat
  /-- `H10_ONE_MIN`. -/
  h10OneMin : Nat
  /-- `H10_ZERO_WIN`. -/
  h10ZeroWin : Nat
  /-- `H10_ZERO_MIN`. -/
  h10ZeroMin : Nat
  /-- `H10_SYNC`. -/
  h10Sync : BitVec 8
  /-- `H10_PREAMBLE14`. -/
  h10Preamble14 : BitVec 14
  /-- `H10_FORMAT22`. -/
  h10Format22 : BitVec 22
  /-- `SIG0`: the input pin's level at reset. -/
  sig0 : Bool
deriving DecidableEq, Repr

/-- The defaults of 00_scope.md R8, with `SIG0 = 0` as the vectors of 95_test_vectors.md take it
(DESIGN CHOICE, unsafe: log entry 3). -/
def Config.default : Config where
  cntWidth := 32
  blockLen := 64
  bqDepth := 4
  memSize := 65536
  frameChunkSize := 32
  edgeBufLen := 128
  emHalfUs0 := 256
  emHalfUs1 := 128
  emHalfUs2 := 64
  emTolHalfPct := 30
  emTolPairPct := 30
  emSplit := .nominal
  h10PeriodZeroUs := 64
  h10PeriodOneUs := 80
  h10TolPct := 15
  h10OneWin := 5
  h10OneMin := 4
  h10ZeroWin := 6
  h10ZeroMin := 5
  h10Sync := 0x1D#8
  h10Preamble14 := 0x1556#14
  h10Format22 := 0x155556#22
  sig0 := false

/-- FREE VALUE: what a byte of MEM that nothing has written since reset reads as, by its address
(70_reset_and_hazards.md R386: any value; log entry 5). -/
opaque Config.unwrittenByte : Nat → Byte

/-- FREE VALUE: the draw `ok` of the n-th DMA disable of an enabled channel (41_capture.md R192: any
value; log entry 6). -/
opaque Config.dmaDisableOk : Nat → Bool

end Sys2Proof
end

