-- ==== Sys2Proof/Machine/State.lean ====
section
/-! DEFINITION. The state of ECDB as plain data: every element of spec 10_state.md R21 to R47 and MEM
(20_memory.md R70), the parameters (00_scope.md R8), and the model's own fields that hold what R20 calls the
arguments of the step relation. Also why a step can stop, and the state after reset (70_reset_and_hazards.md
R381). -/

namespace Sys2Proof.Machine

/-- MEM: the bytes written since reset, as (address, byte) pairs, addresses strictly rising. An address that is
not listed holds no value of its own (70_reset_and_hazards.md R386; log entry 5). -/
abbrev Memory := List Host.Cell

/-- The canonical form of MEM: addresses strictly rising, each inside MEM. -/
abbrev Memory.wf (memSize : Nat) (m : Memory) : Prop :=
  m.Pairwise (fun p q => p.1 < q.1) ∧ ∀ p ∈ m, p.1 < memSize

/-- The codes of `STATUS.ERR` (60_exceptions.md R341); codes 6 to 15 are never written (log entry 13). -/
inductive ErrCode where
  /-- 0, OK. -/
  | ok
  /-- 1, ERR_OPCODE. -/
  | opcode
  /-- 2, ERR_ARG. -/
  | arg
  /-- 3, ERR_ADDR. -/
  | addr
  /-- 4, ERR_STATE. -/
  | state
  /-- 5, ERR_DMA_TIMEOUT. -/
  | dmaTimeout
deriving DecidableEq, Repr

/-- The protocols `DEC_PROTO` selects, numbered 0 to 3 (10_state.md R41, 42_decoder_port.md R221). -/
inductive Proto where
  | em4100
  | em4100Over32
  | em4100Over16
  | h10301
deriving DecidableEq, Repr

/-- One edge event or entry of the edge buffer, `(dur, level)` (10_state.md R45, 42_decoder_port.md R222). -/
structure EdgeEvent where
  dur : Half
  level : Bool
deriving DecidableEq, Repr

/-- The argument and result registers and `STATUS.ERR` (10_state.md R21, R22, R24). -/
structure Regs where
  arg0 : Word
  arg1 : Word
  arg2 : Word
  res0 : Word
  res1 : Word
  err : ErrCode
deriving DecidableEq, Repr

/-- Timer and capture state (10_state.md R25, R27 to R36). The registers of `CNT_WIDTH` bits are held zero
extended to 32 (log entry 12). -/
structure Capture where
  /-- `CTRL.TIM_EN` (R29). -/
  timEn : Bool
  /-- `CTRL.IRQ_EN` (R29). -/
  irqEn : Bool
  /-- `CNT` (R27). -/
  cnt : Word
  /-- `ARR` (R28). -/
  arr : Word
  /-- `SIG` (R30). -/
  sig : Bool
  /-- `CCR` (R31). -/
  ccr : Word
  /-- `DMA_EN` (R32). -/
  dmaEn : Bool
  /-- `DMA_IDX` (R33). -/
  dmaIdx : Nat
  /-- `CAPBUF`, one entry a slot; `none`: no `Edge` step has written the slot (R34; log entry 7). -/
  capbuf : List (Option Word)
  /-- `HAVE_PREV` (R35). -/
  havePrev : Bool
  /-- `PREV_CAP` (R35). -/
  prevCap : Word
  /-- `DROP_CNT` (R36). -/
  dropCnt : Word
  /-- `NTF` (R25). -/
  ntf : Bool
deriving DecidableEq, Repr

/-- The block-index queue (10_state.md R37); a slot is a block index, `false` for block 0. -/
structure BlockQueue where
  /-- `BQ_SLOT`. -/
  slots : List Bool
  /-- `BQ_HEAD`. -/
  head : Nat
  /-- `BQ_TAIL`. -/
  tail : Nat
  /-- `BQ_COUNT`. -/
  count : Nat
deriving DecidableEq, Repr

/-- `PROC`, the progress of a CAP_PROCESS in flight (10_state.md R38). -/
inductive Proc where
  | idle
  /-- Block `b`, next slot `i`, `nb` blocks popped and `nw` widths inserted so far. -/
  | inblock (b : Bool) (i nb nw : Nat)
deriving DecidableEq, Repr

/-- The ring descriptor (10_state.md R39). -/
structure Ring where
  /-- `RB_VALID`. -/
  valid : Bool
  /-- `RB_BASE`. -/
  base : Word
  /-- `RB_CAP`. -/
  cap : Word
  /-- `RB_ESZ`. -/
  esz : Word
  /-- `RB_HEAD`. -/
  head : Word
  /-- `RB_TAIL`. -/
  tail : Word
deriving DecidableEq, Repr

/-- The decoder state (10_state.md R41 to R46). -/
structure Decoder where
  /-- `DEC_ACTIVE` (R41). -/
  active : Bool
  /-- `DEC_PROTO` (R41). -/
  proto : Proto
  /-- `DEC_HALF_US` (R42). -/
  halfUs : Half
  /-- `FW[0]` (R43). -/
  fw0 : Word
  /-- `FW[1]` (R43). -/
  fw1 : Word
  /-- `FW[2]` (R43). -/
  fw2 : Word
  /-- `BIT_CNT` (R44). -/
  bitCnt : Nat
  /-- `EB[0 .. EDGE_CNT-1]`, oldest first; `EDGE_CNT` is its length (R45; log entry 8). -/
  eb : List EdgeEvent
  /-- `WIN_LEN` (R46). -/
  winLen : Nat
  /-- `WIN_SYM[k]` is bit k (R46). -/
  winSym : BitVec 6
deriving DecidableEq, Repr

/-- The tag record (10_state.md R47). -/
structure Tag where
  uid0 : Byte
  uid1 : Byte
  uid2 : Byte
  uid3 : Byte
  uid4 : Byte
  bitrate : Half
deriving DecidableEq, Repr

/-- What the host bus has answered to the host's latest access: the model's record of what a bus step returns
(45_host_bus.md R322 to R326; log entry 2). It is at the boundary of ECDB, and no rule reads it. -/
inductive BusReply where
  /-- No access has been made. -/
  | quiet
  /-- A write has completed. -/
  | written
  /-- A write to CMD whose command is still in flight: the host is held (R322). -/
  | held
  /-- A read has returned this value. -/
  | value (v : Word)
  /-- The access was refused: not performed (20_memory.md R74, R76). -/
  | refused
deriving DecidableEq, Repr

/-- The whole state. -/
structure State where
  /-- The parameters of 00_scope.md R8: never written by a step (log entry 3). -/
  cfg : Config
  regs : Regs
  cap : Capture
  bq : BlockQueue
  proc : Proc
  ring : Ring
  dec : Decoder
  tag : Tag
  mem : Memory
  /-- An NTF_WAIT is in flight (41_capture.md R198, 60_exceptions.md R356; log entry 4). -/
  waiting : Bool
  /-- The bus accesses the host has still to make, next first (10_state.md R23; log entry 2). -/
  program : List HostAccess
  /-- Whose step comes next; after the last entry every step is the host's (log entry 1). -/
  schedule : List Turn
  /-- What the bus last answered (log entry 2). -/
  reply : BusReply
  /-- How many DMA disables have drawn their outcome (41_capture.md R192; log entry 6). -/
  draws : Nat
deriving DecidableEq, Repr

/-- Why the machine stops. ECDB itself never stops (60_exceptions.md R340, R352); each constructor is a state that
the invariants of the spec exclude (`State.Inv`, Safety.lean). -/
inductive Fault where
  /-- Raised by the ELEM micro-step of CAP_PROCESS that meets a capture slot no `Edge` step has written:
  93_implementation_defined.md U6 asks for a fault. Safe: 70_reset_and_hazards.md R401 shows it unreachable
  (log entry 7). -/
  | captureSlotNeverWritten
  /-- Raised by a ring operation that would touch an address outside MEM, possible only where the ring descriptor
  breaks the invariants of 10_state.md R39. Safe: no run from reset reaches it (log entry 10). -/
  | outsideMemory
  /-- Raised by the queue pop of CAP_PROCESS where `BQ_TAIL` is no slot of the queue, which breaks the invariant
  of 10_state.md R37. Safe: no run from reset reaches it (log entry 11). -/
  | queueIndexOutside
deriving DecidableEq, Repr

/-- Why an instruction has no meaning. -/
inductive Refusal where
  /-- Raised by `exec` for an instruction that is not modelled yet. Safe: the machine stops. No arm raises it. -/
  | notModelled (mnemonic : String)
deriving DecidableEq, Repr

/-- The machine right after the power-on reset, for any parameters: the table of 70_reset_and_hazards.md R381.
MEM, `CAPBUF` and the edge-buffer slots hold no value; the host has made no access. -/
def State.resetWith (cfg : Config) : State where
  cfg := cfg
  regs := { arg0 := 0, arg1 := 0, arg2 := 0, res0 := 0, res1 := 0, err := .ok }
  cap :=
    { timEn := false, irqEn := false, cnt := 0, arr := BitVec.ofNat 32 (2 ^ cfg.cntWidth - 1)
      sig := cfg.sig0, ccr := 0, dmaEn := false, dmaIdx := 0
      capbuf := List.replicate (2 * cfg.blockLen) none
      havePrev := false, prevCap := 0, dropCnt := 0, ntf := false }
  bq := { slots := List.replicate cfg.bqDepth false, head := 0, tail := 0, count := 0 }
  proc := .idle
  ring := { valid := false, base := 0, cap := 0, esz := 0, head := 0, tail := 0 }
  dec :=
    { active := false, proto := .em4100, halfUs := 0, fw0 := 0, fw1 := 0, fw2 := 0
      bitCnt := 0, eb := [], winLen := 0, winSym := 0 }
  tag := { uid0 := 0, uid1 := 0, uid2 := 0, uid3 := 0, uid4 := 0, bitrate := 0 }
  mem := []
  waiting := false
  program := []
  schedule := []
  reply := .quiet
  draws := 0

/-- The machine right after reset with the default parameters (00_scope.md R8). -/
def State.reset : State := State.resetWith Config.default

end Sys2Proof.Machine
end

