-- ==== Sys2Proof/Machine/Ops.lean ====
section
/-! DEFINITION. The named operations over memory and registers: one byte of MEM, copies byte by byte,
little-endian values (20_memory.md R70 to R77), the arithmetic of 45_host_bus.md R332, and the two ends of a
command. ECDB has no trap and no return from one (60_exceptions.md R340, 45_host_bus.md R331): what stands in
their place is the one shared operation `State.fail`, written from 60_exceptions.md R342. -/

namespace Sys2Proof.Machine

/-! ### MEM -/

/-- The value a listed address holds; none where nothing has been written. -/
def memGet? : Memory → Nat → Option Byte
  | [], _ => none
  | (a, v) :: rest, x => if x = a then some v else memGet? rest x

/-- Writes one byte, keeping the addresses strictly rising. -/
def memSet : Memory → Nat → Byte → Memory
  | [], x, b => [(x, b)]
  | (a, v) :: rest, x, b =>
    if x < a then (x, b) :: (a, v) :: rest
    else if x = a then (x, b) :: rest
    else (a, v) :: memSet rest x b

/-- What address `a` of MEM reads as: the byte last written there, or the free value of an unwritten byte
(20_memory.md R70, 70_reset_and_hazards.md R386). -/
def memByte (m : Memory) (a : Nat) : Byte :=
  (memGet? m a).getD (Config.unwrittenByte a)

/-- `MemByte(a)` as a read: none outside MEM (00_scope.md section 5.2). -/
def readByte (size : Nat) (m : Memory) (a : Nat) : Option Byte :=
  if a < size then some (memByte m a) else none

/-- `MemByte(a) <- b`: none outside MEM (00_scope.md section 5.2). -/
def writeByte (size : Nat) (m : Memory) (a : Nat) (b : Byte) : Option Memory :=
  if a < size then some (memSet m a b) else none

/-- The bytes at `src j`, `src (j+1)`, ..., `n` of them, in that order. -/
def readBytes (size : Nat) (m : Memory) (src : Nat → Nat) : Nat → Nat → Option (List Byte)
  | 0, _ => some []
  | n + 1, j =>
    (readByte size m (src j)).bind fun b => (readBytes size m src n (j + 1)).map (b :: ·)

/-- Stores a list of bytes at `dst j`, `dst (j+1)`, ..., in that order. -/
def storeBytes (size : Nat) (dst : Nat → Nat) : List Byte → Nat → Memory → Option Memory
  | [], _, m => some m
  | b :: rest, j, m => (writeByte size m (dst j) b).bind (storeBytes size dst rest (j + 1))

/-- The engine's copy loop: for `n` steps from `j` on, in ascending order, the byte at `src j` is read just before
it is stored at `dst j` (20_memory.md R75, R80, 40_ringbuffer.md R146, R148). -/
def copyBytes (size : Nat) (src dst : Nat → Nat) : Nat → Nat → Memory → Option Memory
  | 0, _, m => some m
  | n + 1, j, m =>
    (readByte size m (src j)).bind fun b =>
      (writeByte size m (dst j) b).bind (copyBytes size src dst n (j + 1))

/-- The little-endian value of a list of bytes, lowest address first (20_memory.md R72). -/
def leValue : List Byte → Nat
  | [] => 0
  | b :: rest => b.toNat + 256 * leValue rest

/-- The `n` low-order bytes of a value, least significant first (20_memory.md R72). -/
def leBytes : Nat → Nat → List Byte
  | 0, _ => []
  | n + 1, v => BitVec.ofNat 8 v :: leBytes n (v / 256)

/-- `MemRead(a, n)` (00_scope.md section 5.2): none where a byte is outside MEM. -/
def memRead (size : Nat) (m : Memory) (a n : Nat) : Option Nat :=
  (readBytes size m (fun j => a + j) n 0).map leValue

/-- `MemWrite(a, n, v)` (00_scope.md section 5.2): none where a byte is outside MEM. -/
def memWrite (size : Nat) (m : Memory) (a n v : Nat) : Option Memory :=
  storeBytes size (fun j => a + j) (leBytes n v) 0 m

/-! ### Arithmetic (45_host_bus.md R332) -/

/-- `(a - b) mod m`, the mathematical remainder in `0 .. m-1` (00_scope.md section 5.1), for any `a` and `b`. -/
def subMod (a b m : Nat) : Nat := (a + (m - b % m)) % m

/-- `|a - b|`. -/
def absDiff (a b : Nat) : Nat := if a ≤ b then b - a else a - b

/-- `DROP_CNT + 1`, 32 bits, wrapping (10_state.md R36). -/
def Capture.countDrop (c : Capture) : Capture := { c with dropCnt := c.dropCnt + 1 }

/-- The `n`-bit value whose bit at position `p` from the top is `f p`: most significant bit first. -/
def bitsBE : (n : Nat) → (Nat → Bool) → BitVec n
  | 0, _ => 0#0
  | n + 1, f => BitVec.cons (f 0) (bitsBE n (fun j => f (j + 1)))

/-! ### The ends of a command -/

/-- `fail E`, the one way a command does not succeed: `STATUS.ERR <- E`, both results 0, nothing else
(60_exceptions.md R342, 45_host_bus.md R328). What a rule changes before it fails is in the state given. -/
def State.fail (s : State) (e : ErrCode) : State :=
  { s with regs := { s.regs with err := e, res0 := 0, res1 := 0 } }

/-- A normal end: `STATUS.ERR <- 0`, the results as the rule gives them, 0 where it gives none
(45_host_bus.md R328, 10_state.md R22). -/
def State.succeed (s : State) (r0 r1 : Word) : State :=
  { s with regs := { s.regs with err := .ok, res0 := r0, res1 := r1 } }

/-- A command is in flight: the host takes no other step (45_host_bus.md R322). -/
def State.inFlight (s : State) : Bool := s.proc != .idle || s.waiting

/-- Applies a function to the next state of an outcome; a stop stays a stop. -/
def mapNext (f : State → State) : Host.Outcome State Fault Refusal → Host.Outcome State Fault Refusal
  | .next s => .next (f s)
  | .fault r => .fault r
  | .refused r => .refused r

end Sys2Proof.Machine
end

