-- ==== Sys2Proof/Machine/Operands.lean ====
section
/-! DEFINITION. Every operand form of the commands: argument registers (30_encoding.md R105), the protocol number
of format I (R103), the event of format E (R104) and the event record in MEM (42_decoder_port.md R223). -/

namespace Sys2Proof.Machine

/-- `ARG[0]` as an unsigned number (30_encoding.md R105). -/
def State.argN0 (s : State) : Nat := s.regs.arg0.toNat

/-- `ARG[1]` as an unsigned number. -/
def State.argN1 (s : State) : Nat := s.regs.arg1.toNat

/-- `ARG[2]` as an unsigned number. -/
def State.argN2 (s : State) : Nat := s.regs.arg2.toNat

/-- The protocol `imm[1:0]` names, where `imm[15:2] = 0` (30_encoding.md R103, 42_decoder_port.md R221). -/
def protoOfImm (imm : Half) : Option Proto :=
  if imm.extractLsb' 2 14 = 0#14 then
    match (imm.extractLsb' 0 2).toNat with
    | 0 => some .em4100
    | 1 => some .em4100Over32
    | 2 => some .em4100Over16
    | _ => some .h10301
  else none

/-- `DEC_PROTO` as its number (10_state.md R41). -/
def Proto.code : Proto → Nat
  | .em4100 => 0
  | .em4100Over32 => 1
  | .em4100Over16 => 2
  | .h10301 => 3

/-- The edge event of a DEC_EVENT word (30_encoding.md R104). -/
def eventOfWord (dur : Half) (lvl : Bool) : EdgeEvent := ⟨dur, lvl⟩

/-- The edge event of a record in MEM: bytes 0 and 1 are `dur`, bit 0 of byte 2 is `level`, the rest is ignored
(42_decoder_port.md R223). Only bytes 0 to 2 are read (45_host_bus.md R330). -/
def readEvent (size : Nat) (m : Memory) (a : Nat) : Option EdgeEvent :=
  (memRead size m a 2).bind fun d =>
    (readByte size m (a + 2)).map fun b => ⟨BitVec.ofNat 16 d, b.getLsbD 0⟩

/-- `n` consecutive event records from `a`, oldest first (42_decoder_port.md R223, R229). -/
def readEvents (size : Nat) (m : Memory) : Nat → Nat → Option (List EdgeEvent)
  | 0, _ => some []
  | n + 1, a => (readEvent size m a).bind fun e => (readEvents size m n (a + 4)).map (e :: ·)

end Sys2Proof.Machine
end

