-- ==== Sys2Proof/Machine/Flags.lean ====
section
/-! DEFINITION. The flags: the code of `STATUS.ERR`, the interrupt line, the computed bits of STATUS
(10_state.md R24 to R26, R55, 60_exceptions.md R341, R346), and the assembly of a register from its fields. -/

namespace Sys2Proof.Machine

/-- The number of an error code (60_exceptions.md R341). -/
def ErrCode.code : ErrCode → Nat
  | .ok => 0
  | .opcode => 1
  | .arg => 2
  | .addr => 3
  | .state => 4
  | .dmaTimeout => 5

/-- A register with one bit in place: bit `k` is `b`. -/
def bitAt (k : Nat) (b : Bool) : Word := (BitVec.ofBool b).setWidth 32 <<< k

/-- A register with one field in place: `w` bits from bit `k` up hold `v`. -/
def fieldAt (k w v : Nat) : Word := (BitVec.ofNat w v).setWidth 32 <<< k

/-- The level of the interrupt line, `NTF and CTRL.IRQ_EN` (60_exceptions.md R346). -/
def State.irq (s : State) : Bool := s.cap.ntf && s.cap.irqEn

/-- STATUS bit 7: a ring is there and holds nothing (10_state.md R40, R55). -/
def State.rbEmpty (s : State) : Bool := s.ring.valid && s.ring.head == s.ring.tail

/-- STATUS, computed at the read (10_state.md R55). -/
def State.status (s : State) : Word :=
  fieldAt 0 4 s.regs.err.code ||| bitAt 4 s.cap.ntf ||| bitAt 5 s.cap.dmaEn ||| bitAt 6 s.ring.valid
  ||| bitAt 7 s.rbEmpty ||| bitAt 8 s.cap.havePrev ||| bitAt 9 s.cap.sig
  ||| bitAt 10 (decide (0 < s.bq.count)) ||| bitAt 11 s.dec.active ||| bitAt 12 s.irq

end Sys2Proof.Machine
end

