-- ==== Sys2Proof/Machine/FrameBuffer.lean ====
section
/-! DEFINITION. What the two protocol families share: the frame buffer and its bit numbering, the shift-in, the
two resets and the append to the edge buffer (spec 42_decoder_port.md R224 to R226, R234, 43_em4100.md R256,
44_h10301.md R297, R299). -/

namespace Sys2Proof.Machine

/-- `FRAME_BITS`: 96 for H10301, else 64 (10_state.md R44). -/
def Proto.frameBits : Proto → Nat
  | .em4100 => 64
  | .em4100Over32 => 64
  | .em4100Over16 => 64
  | .h10301 => 96

/-- The 64-bit frame value `V = FW[0] ++ FW[1]` (R224). -/
def Decoder.frame64 (d : Decoder) : BitVec 64 := d.fw0 ++ d.fw1

/-- The 96-bit frame value `V = FW[0] ++ FW[1] ++ FW[2]` (R224). -/
def Decoder.frame96 (d : Decoder) : BitVec 96 := d.fw0 ++ d.fw1 ++ d.fw2

/-- `V <- ((V << 1) or bit) mod 2^L` (R224). -/
def shiftInBit {n : Nat} (v : BitVec n) (bit : Bool) : BitVec n := (v <<< 1) ||| (BitVec.ofBool bit).setWidth n

/-- `ShiftIn(bit)` with L = 64 (R224); `FW[2]` is not used. -/
def Decoder.shiftIn64 (d : Decoder) (bit : Bool) : Decoder :=
  let v := shiftInBit d.frame64 bit
  { d with fw0 := v.extractLsb' 32 32, fw1 := v.extractLsb' 0 32, bitCnt := min (d.bitCnt + 1) 64 }

/-- `ShiftIn(bit)` with L = 96 (R224, 44_h10301.md R296). -/
def Decoder.shiftIn96 (d : Decoder) (bit : Bool) : Decoder :=
  let v := shiftInBit d.frame96 bit
  { d with
    fw0 := v.extractLsb' 64 32, fw1 := v.extractLsb' 32 32, fw2 := v.extractLsb' 0 32
    bitCnt := min (d.bitCnt + 1) 96 }

/-- `FullReset()` (R225). -/
def Decoder.fullReset (d : Decoder) : Decoder :=
  { d with fw0 := 0, fw1 := 0, fw2 := 0, bitCnt := 0, eb := [], winLen := 0, winSym := 0 }

/-- `PartialReset()`, the stand-alone form (R226). -/
def Decoder.partialReset (d : Decoder) : Decoder := { d with bitCnt := 0, eb := [], winLen := 0 }

/-- Appends entries to the edge buffer one at a time; none on overflow (43_em4100.md R256, 44_h10301.md R297). -/
def appendEntries (bufLen : Nat) : List EdgeEvent → List EdgeEvent → Option (List EdgeEvent)
  | eb, [] => some eb
  | eb, x :: xs => if eb.length = bufLen then none else appendEntries bufLen (eb ++ [x]) xs

/-- What classifying a pair of entries gives: a bit or symbol, or the 2 of the spec ("invalid")
(43_em4100.md R257, 44_h10301.md R291). -/
inductive PairClass where
  | bit (b : Bool)
  | invalid
deriving DecidableEq, Repr

end Sys2Proof.Machine
end

