-- ==== Sys2Proof/Machine/Em4100.lean ====
section
/-! DEFINITION. The EM4100 Manchester classifier and 64-bit frame machine (spec 43_em4100.md; its rules are cited
as R<n> alone). -/

namespace Sys2Proof.Machine

/-! ### Windows (R252) -/

/-- `InHalf(d)` for the half-bit period `h`. -/
def inHalf (cfg : Config) (h d : Nat) : Bool := decide (absDiff d h * 100 ≤ cfg.emTolHalfPct * h)

/-- `InFull(d)`. -/
def inFull (cfg : Config) (h d : Nat) : Bool := decide (absDiff d (2 * h) * 100 ≤ cfg.emTolHalfPct * (2 * h))

/-- `InPair(s)`. -/
def inPair (cfg : Config) (h s : Nat) : Bool := decide (absDiff s (2 * h) * 100 ≤ cfg.emTolPairPct * (2 * h))

/-! ### Steps 1 to 3 -/

/-- `Normalise(e)`: a full-bit interval becomes two half-bit entries of the same level (R255). -/
def emNormalise (cfg : Config) (h : Half) (e : EdgeEvent) : List EdgeEvent :=
  if inFull cfg h.toNat e.dur.toNat then
    match cfg.emSplit with
    | .nominal => [⟨h, e.level⟩, ⟨h, e.level⟩]
    | .halved =>
      [⟨BitVec.ofNat 16 (e.dur.toNat / 2), e.level⟩,
       ⟨BitVec.ofNat 16 (e.dur.toNat - e.dur.toNat / 2), e.level⟩]
  else [e]

/-- `ClassifyPair(a, b)` (R257): data bit 1 is {low, high}, data bit 0 is {high, low}. -/
def emClassify (cfg : Config) (h : Half) (a b : EdgeEvent) : PairClass :=
  if ¬ inHalf cfg h.toNat a.dur.toNat ∨ ¬ inHalf cfg h.toNat b.dur.toNat then .invalid
  else if ¬ inPair cfg h.toNat (a.dur.toNat + b.dur.toNat) then .invalid
  else if a.level = false ∧ b.level = true then .bit true
  else if a.level = true ∧ b.level = false then .bit false
  else .invalid

/-! ### The frame (R270 to R273) -/

/-- The XOR of the frame bits at the listed positions. -/
def xorAt {n : Nat} (v : BitVec n) (ps : List Nat) : Bool := ps.foldl (fun acc p => acc ^^ v.getMsbD p) false

/-- The five positions of row `r`, its parity bit last (R270). -/
def emRow (r : Nat) : List Nat := (List.range 5).map fun c => 9 + 5 * r + c

/-- The eleven positions of column `c`, its parity bit last (R270). -/
def emColumn (c : Nat) : List Nat := (List.range 10).map (fun r => 9 + 5 * r + c) ++ [59 + c]

/-- `EmValid()` (R271): preamble, row parity, column parity, stop bit. -/
def emValid (v : BitVec 64) : Bool :=
  (List.range 9).all (fun p => v.getMsbD p)
  && (List.range 10).all (fun r => !xorAt v (emRow r))
  && (List.range 4).all (fun c => !xorAt v (emColumn c))
  && !v.getMsbD 63

/-- Byte `k` of `EmUid()` (R272): bit `7 - j` is the frame bit at `9 + col*5 + row` of payload bit `8k + j`. -/
def emUidByte (v : BitVec 64) (k : Nat) : Byte :=
  bitsBE 8 fun j => v.getMsbD (9 + (8 * k + j) / 4 * 5 + (8 * k + j) % 4)

/-- The tag record of a valid frame (R273): the UID and the bitrate estimate `DEC_HALF_US / 4`. -/
def emTag (v : BitVec 64) (h : Half) : Tag where
  uid0 := emUidByte v 0
  uid1 := emUidByte v 1
  uid2 := emUidByte v 2
  uid3 := emUidByte v 3
  uid4 := emUidByte v 4
  bitrate := BitVec.ofNat 16 (h.toNat / 4)

/-! ### The pass -/

/-- The loop of `EmExecute` over the entries in the buffer, and its compaction (R260 to R262, R274): the decoder
after, and the tag record where a frame was found. -/
def emPass (cfg : Config) : Decoder → List EdgeEvent → Decoder × Option Tag
  | d, a :: b :: rest =>
    match emClassify cfg d.halfUs a b with
    | .invalid => ({ d with bitCnt := 0, eb := b :: rest }, none)
    | .bit x =>
      let d' := d.shiftIn64 x
      if d'.bitCnt = 64 ∧ emValid d'.frame64 = true then
        ({ d' with eb := rest }, some (emTag d'.frame64 d'.halfUs))
      else emPass cfg d' rest
  | d, [] => ({ d with eb := [] }, none)
  | d, [a] => ({ d with eb := [a] }, none)

/-- `EmExecute(ev)` (R260), with the append and its overflow (R256). -/
def emExecute (cfg : Config) (d : Decoder) (ev : List EdgeEvent) : Decoder × Option Tag :=
  match appendEntries cfg.edgeBufLen d.eb (ev.flatMap (emNormalise cfg d.halfUs)) with
  | none => (d.fullReset, none)
  | some eb => emPass cfg d eb

end Sys2Proof.Machine
end

