-- ==== Sys2Proof/Machine/H10301.lean ====
section
/-! DEFINITION. The HID H10301 FSK classifier, bit detector and 96-bit frame machine (spec 44_h10301.md; its rules
are cited as R<n> alone). -/

namespace Sys2Proof.Machine

/-! ### Stage (a): symbols -/

/-- `H10Symbol(a, b)` (R291): the tone whose period the pair's sum matches, the closer one where both do, the
shorter on a tie. -/
def h10Symbol (cfg : Config) (a b : EdgeEvent) : PairClass :=
  if a.level = b.level then .invalid
  else
    let p := a.dur.toNat + b.dur.toNat
    let mz := decide (absDiff p cfg.h10PeriodZeroUs * 100 ≤ cfg.h10TolPct * cfg.h10PeriodZeroUs)
    let mo := decide (absDiff p cfg.h10PeriodOneUs * 100 ≤ cfg.h10TolPct * cfg.h10PeriodOneUs)
    if mz && mo then
      .bit (decide (absDiff p cfg.h10PeriodOneUs < absDiff p cfg.h10PeriodZeroUs))
    else if mz then .bit false
    else if mo then .bit true
    else .invalid

/-! ### Stage (b): bits -/

/-- `WIN_SYM[k] <- s` (10_state.md R46). -/
def setSym (w : BitVec 6) (k : Nat) (s : Bool) : BitVec 6 :=
  (w &&& ~~~(1#6 <<< k)) ||| ((BitVec.ofBool s).setWidth 6 <<< k)

/-- `WinPush(s)` (R293). -/
def Decoder.winPush (d : Decoder) (s : Bool) : Decoder :=
  if d.winLen < 6 then { d with winSym := setSym d.winSym d.winLen s, winLen := d.winLen + 1 }
  else { d with winSym := setSym (d.winSym >>> 1) 5 s }

/-- `WIN_LEN <- 0`: the window is emptied when a bit is declared (R293, R297). -/
def Decoder.emptyWindow (d : Decoder) : Decoder := { d with winLen := 0 }

/-- How many of the `n` symbols from `WIN_SYM[lo]` on are `s`. -/
def symCount (w : BitVec 6) (lo n : Nat) (s : Bool) : Nat :=
  (List.range n).countP fun k => w.getLsbD (lo + k) == s

/-- `WinDetect()` (R293), with the four named constants of 00_scope.md R8, R9. -/
def Decoder.winDetect (cfg : Config) (d : Decoder) : Option Bool :=
  if cfg.h10OneWin ≤ d.winLen
      ∧ cfg.h10OneMin ≤ symCount d.winSym (d.winLen - cfg.h10OneWin) cfg.h10OneWin true then some true
  else if d.winLen = cfg.h10ZeroWin ∧ cfg.h10ZeroMin ≤ symCount d.winSym 0 cfg.h10ZeroWin false then
    some false
  else none

/-! ### The frame (R300 to R308) -/

/-- The 26 Wiegand bits: `w[25 - j]` is the first bit of pair `j` (R301). -/
def h10Wiegand (v : BitVec 96) : BitVec 26 := bitsBE 26 fun j => v.getMsbD (44 + 2 * j)

/-- Every one of the 26 pairs is `01` or `10` (R301). -/
def h10PairsOk (v : BitVec 96) : Bool :=
  (List.range 26).all fun j => v.getMsbD (44 + 2 * j) != v.getMsbD (45 + 2 * j)

/-- The number of 1 bits among `w[lo+n-1 : lo]`. -/
def onesIn {k : Nat} (w : BitVec k) (lo n : Nat) : Nat := (List.range n).countP fun j => w.getLsbD (lo + j)

/-- The two parity checks (R302): `w[25:13]` even, `w[12:0]` odd. -/
def h10ParityOk (w : BitVec 26) : Bool := onesIn w 13 13 % 2 == 0 && onesIn w 0 13 % 2 == 1

/-- `H10Valid()` (R300, R305). -/
def h10Valid (cfg : Config) (v : BitVec 96) : Bool :=
  v.extractLsb' 88 8 == cfg.h10Sync && v.extractLsb' 74 14 == cfg.h10Preamble14
  && v.extractLsb' 52 22 == cfg.h10Format22 && h10PairsOk v && h10ParityOk (h10Wiegand v)

/-- The facility code `w[24:17]` (R303). -/
def h10Facility (w : BitVec 26) : BitVec 8 := w.extractLsb' 17 8

/-- The card number `w[16:1]` (R303). -/
def h10Card (w : BitVec 26) : BitVec 16 := w.extractLsb' 1 16

/-- `H10Tag()` (R308). -/
def h10Tag (v : BitVec 96) : Tag where
  uid0 := h10Facility (h10Wiegand v)
  uid1 := (h10Card (h10Wiegand v)).extractLsb' 8 8
  uid2 := (h10Card (h10Wiegand v)).extractLsb' 0 8
  uid3 := 0
  uid4 := 0
  bitrate := 0

/-! ### The pass -/

/-- The loop of `H10Execute` over the entries in the buffer, and its compaction (R297, R298, R307). -/
def h10Pass (cfg : Config) : Decoder → List EdgeEvent → Decoder × Option Tag
  | d, a :: b :: rest =>
    match h10Symbol cfg a b with
    | .invalid => ({ d with bitCnt := 0, winLen := 0, eb := b :: rest }, none)
    | .bit s =>
      let d1 := d.winPush s
      match d1.winDetect cfg with
      | none => h10Pass cfg d1 rest
      | some x =>
        let d2 := d1.emptyWindow.shiftIn96 x
        if d2.bitCnt = 96 ∧ h10Valid cfg d2.frame96 = true then
          ({ d2 with eb := rest }, some (h10Tag d2.frame96))
        else h10Pass cfg d2 rest
  | d, [] => ({ d with eb := [] }, none)
  | d, [a] => ({ d with eb := [a] }, none)

/-- `H10Execute(ev)` (R297), with the append and its overflow (R299). -/
def h10Execute (cfg : Config) (d : Decoder) (ev : List EdgeEvent) : Decoder × Option Tag :=
  match appendEntries cfg.edgeBufLen d.eb ev with
  | none => (d.fullReset, none)
  | some eb => h10Pass cfg d eb

end Sys2Proof.Machine
end

