-- ==== Sys2Proof/Machine/DecoderPort.lean ====
section
/-! DEFINITION. The decoder port and its five commands (spec 42_decoder_port.md; its rules are cited as R<n>
alone). -/

namespace Sys2Proof.Machine

/-- `EM_HALF_US[DEC_PROTO]` for the EM4100 variants, 0 for H10301 (R227, 10_state.md R42). -/
def protoHalfUs (cfg : Config) : Proto → Nat
  | .em4100 => cfg.emHalfUs0
  | .em4100Over32 => cfg.emHalfUs1
  | .em4100Over16 => cfg.emHalfUs2
  | .h10301 => 0

/-- `Execute(ev)`: the dispatch on `DEC_PROTO` (R232). -/
def decExecutePass (cfg : Config) (d : Decoder) (ev : List EdgeEvent) : Decoder × Option Tag :=
  match d.proto with
  | .em4100 => emExecute cfg d ev
  | .em4100Over32 => emExecute cfg d ev
  | .em4100Over16 => emExecute cfg d ev
  | .h10301 => h10Execute cfg d ev

/-- Runs a pass on the decoder of the state, writes the tag record where a frame was found, and returns
`frame_found` in `RES[0]` (R229, R230; 10_state.md R47). -/
def runPass (s : State) (ev : List EdgeEvent) : State :=
  let r := decExecutePass s.cfg s.dec ev
  State.succeed { s with dec := r.1, tag := r.2.getD s.tag } (if r.2.isSome then 1 else 0) 0

/-- DEC_BEGIN proto (R227). -/
def execDecBegin (imm : Half) (s : State) : Host.Outcome State Fault Refusal :=
  match protoOfImm imm with
  | none => .next (s.fail .arg)
  | some p =>
    .next (State.succeed
      { s with
        dec :=
          { Decoder.fullReset { s.dec with proto := p, halfUs := BitVec.ofNat 16 (protoHalfUs s.cfg p) } with
            active := true } } 0 0)

/-- DEC_PARTIAL_RESET (R228). -/
def execDecPartialReset (s : State) : Host.Outcome State Fault Refusal :=
  if s.dec.active = false then .next (s.fail .state)
  else .next (State.succeed { s with dec := s.dec.partialReset } 0 0)

/-- DEC_EXECUTE addr, count (R229). -/
def execDecExecute (s : State) : Host.Outcome State Fault Refusal :=
  if s.dec.active = false then .next (s.fail .state)
  else if s.argN1 > s.cfg.frameChunkSize then .next (s.fail .arg)
  else if s.argN0 + 4 * s.argN1 > s.cfg.memSize then .next (s.fail .addr)
  else
    match readEvents s.cfg.memSize s.mem s.argN1 s.argN0 with
    | none => .fault .outsideMemory
    | some ev => .next (runPass s ev)

/-- DEC_EVENT dur, lvl (R230). -/
def execDecEvent (dur : Half) (lvl : Bool) (s : State) : Host.Outcome State Fault Refusal :=
  if s.dec.active = false then .next (s.fail .state)
  else .next (runPass s [eventOfWord dur lvl])

/-- The eight bytes of the tag record in MEM (R231). -/
def tagBytes (t : Tag) : List Byte :=
  [t.uid0, t.uid1, t.uid2, t.uid3, t.uid4, 0] ++ leBytes 2 t.bitrate.toNat

/-- DEC_GET_DATA dst (R231). -/
def execDecGetData (s : State) : Host.Outcome State Fault Refusal :=
  if s.argN0 + 8 > s.cfg.memSize then .next (s.fail .addr)
  else
    match storeBytes s.cfg.memSize (fun j => s.argN0 + j) (tagBytes s.tag) 0 s.mem with
    | none => .fault .outsideMemory
    | some mem => .next (State.succeed { s with mem := mem } 0 0)

end Sys2Proof.Machine
end

