-- ==== Sys2Proof/Machine/RingBuffer.lean ====
section
/-! DEFINITION. The ring-buffer manager and its nine commands (spec 40_ringbuffer.md; its rules are cited as R<n>
alone). -/

namespace Sys2Proof.Machine

/-! ### Derived quantities (R141) -/

/-- `RB_END`, the bytes of storage. -/
def Ring.endIndex (r : Ring) : Nat := r.cap.toNat * r.esz.toNat

/-- `Occ`, the elements held. -/
def Ring.occ (r : Ring) : Nat := subMod r.head.toNat r.tail.toNat r.endIndex / r.esz.toNat

/-- `Free`, the elements that can still be written: one slot is kept free (10_state.md R40). -/
def Ring.free (r : Ring) : Nat := r.cap.toNat - r.occ - 1

/-- The MEM address of the byte `j` bytes on from the ring offset `off`, with the wrap per byte (R142, R143). -/
def Ring.addr (r : Ring) (off j : Nat) : Nat := r.base.toNat + (off + j) % r.endIndex

/-- `RB_HEAD` moved on by `m` bytes (R142). -/
def Ring.pushed (r : Ring) (m : Nat) : Ring :=
  { r with head := BitVec.ofNat 32 ((r.head.toNat + m) % r.endIndex) }

/-- `RB_TAIL` moved on by `m` bytes (R143, R147, R149). -/
def Ring.popped (r : Ring) (m : Nat) : Ring :=
  { r with tail := BitVec.ofNat 32 ((r.tail.toNat + m) % r.endIndex) }

/-! ### Shared operations -/

/-- `RingPut` (R142) of bytes already read: stores them at the head and moves it. -/
def ringPut (s : State) (bytes : List Byte) : Option State :=
  (storeBytes s.cfg.memSize (s.ring.addr s.ring.head.toNat) bytes 0 s.mem).map fun m =>
    { s with mem := m, ring := s.ring.pushed bytes.length }

/-- The eviction of `RingInsert` (R147): on a full ring the oldest element is dropped and counted. -/
def ringEvict (s : State) : State :=
  { s with
    ring := if s.ring.free = 0 then s.ring.popped s.ring.esz.toNat else s.ring
    cap := if s.ring.free = 0 then s.cap.countDrop else s.cap }

/-- `RingInsert` of bytes already read (R147, 41_capture.md R187): evicts the oldest element where the ring is full,
then appends. -/
def ringInsert (s : State) (bytes : List Byte) : Option State := ringPut (ringEvict s) bytes

/-- A result register that shows a flag. -/
def flagResult (b : Bool) : Word := (BitVec.ofBool b).setWidth 32

/-! ### Commands -/

/-- RB_INIT base, capacity, element size (R144). -/
def execRbInit (s : State) : Host.Outcome State Fault Refusal :=
  if s.argN1 < 2 ∨ s.argN2 < 1 ∨ s.argN1 * s.argN2 > 2 ^ 32 - 1 then .next (s.fail .arg)
  else if s.argN0 + s.argN1 * s.argN2 > s.cfg.memSize then .next (s.fail .addr)
  else
    .next (State.succeed
      { s with
        ring :=
          { valid := true, base := s.regs.arg0, cap := s.regs.arg1, esz := s.regs.arg2, head := 0
            tail := 0 } } 0 0)

/-- RB_RESET (R145). -/
def execRbReset (s : State) : Host.Outcome State Fault Refusal :=
  if s.ring.valid = false then .next (s.fail .state)
  else .next (State.succeed { s with ring := { s.ring with head := 0, tail := 0 } } 0 0)

/-- How many elements RB_WRITE takes: `k = min(ARG[1], Free)` (R146). -/
def rbWriteCount (s : State) : Nat := min s.argN1 s.ring.free

/-- RB_WRITE src, n (R146): each source byte is read just before it is stored. -/
def execRbWrite (s : State) : Host.Outcome State Fault Refusal :=
  if s.ring.valid = false then .next (s.fail .state)
  else
    let m := rbWriteCount s * s.ring.esz.toNat
    if s.argN0 + m > s.cfg.memSize then .next (s.fail .addr)
    else
      match copyBytes s.cfg.memSize (fun j => s.argN0 + j) (s.ring.addr s.ring.head.toNat) m 0 s.mem with
      | none => .fault .outsideMemory
      | some mem =>
        .next (State.succeed { s with mem := mem, ring := s.ring.pushed m }
          (BitVec.ofNat 32 (rbWriteCount s)) 0)

/-- RB_INSERT src (R147): the oldest element is evicted where the ring is full, then the source element is copied to
the head byte by byte, as 20_memory.md R80 has every copy of a command. -/
def execRbInsert (s : State) : Host.Outcome State Fault Refusal :=
  if s.ring.valid = false then .next (s.fail .state)
  else if s.argN0 + s.ring.esz.toNat > s.cfg.memSize then .next (s.fail .addr)
  else
    match copyBytes s.cfg.memSize (fun j => s.argN0 + j) (s.ring.addr s.ring.head.toNat) s.ring.esz.toNat 0 s.mem with
    | none => .fault .outsideMemory
    | some mem =>
      .next (State.succeed
        { ringEvict s with mem := mem, ring := (ringEvict s).ring.pushed s.ring.esz.toNat }
        (flagResult (decide (s.ring.free = 0))) 0)

/-- How many elements RB_READ delivers: `k = min(ARG[1], Occ)` (R148). -/
def rbReadCount (s : State) : Nat := min s.argN1 s.ring.occ

/-- RB_READ dst, n (R148): each ring byte is read just before it is stored. -/
def execRbRead (s : State) : Host.Outcome State Fault Refusal :=
  if s.ring.valid = false then .next (s.fail .state)
  else
    let m := rbReadCount s * s.ring.esz.toNat
    if s.argN0 + m > s.cfg.memSize then .next (s.fail .addr)
    else
      match copyBytes s.cfg.memSize (s.ring.addr s.ring.tail.toNat) (fun j => s.argN0 + j) m 0 s.mem with
      | none => .fault .outsideMemory
      | some mem =>
        .next (State.succeed { s with mem := mem, ring := s.ring.popped m }
          (BitVec.ofNat 32 (rbReadCount s)) 0)

/-- RB_ADVANCE_READ n (R149). -/
def execRbAdvanceRead (s : State) : Host.Outcome State Fault Refusal :=
  if s.ring.valid = false then .next (s.fail .state)
  else if s.argN0 > s.ring.occ then .next (s.fail .arg)
  else .next (State.succeed { s with ring := s.ring.popped (s.argN0 * s.ring.esz.toNat) } 0 0)

/-- RB_GET_READ_ADDRESS (R150). -/
def execRbGetReadAddress (s : State) : Host.Outcome State Fault Refusal :=
  if s.ring.valid = false then .next (s.fail .state)
  else .next (s.succeed (BitVec.ofNat 32 (s.ring.base.toNat + s.ring.tail.toNat)) 0)

/-- The longest contiguous run from the tail, in elements (R151). -/
def Ring.readLen (r : Ring) : Nat :=
  if r.tail.toNat ≤ r.head.toNat then (r.head.toNat - r.tail.toNat) / r.esz.toNat
  else (r.endIndex - r.tail.toNat) / r.esz.toNat

/-- RB_GET_READ_LEN (R151). -/
def execRbGetReadLen (s : State) : Host.Outcome State Fault Refusal :=
  if s.ring.valid = false then .next (s.fail .state)
  else .next (s.succeed (BitVec.ofNat 32 s.ring.readLen) 0)

/-- RB_CHECK_EMPTY (R152). -/
def execRbCheckEmpty (s : State) : Host.Outcome State Fault Refusal :=
  if s.ring.valid = false then .next (s.fail .state)
  else .next (s.succeed (flagResult (s.ring.head == s.ring.tail)) 0)

end Sys2Proof.Machine
end

