-- ==== Sys2Proof/Machine/EdgeCapture.lean ====
section
/-! DEFINITION. The edge-capture controller, the block-index queue and the notification: the steps `Tick` and
`Edge`, and CAP_START, CAP_PAUSE, CAP_PROCESS, NTF_TAKE, NTF_WAIT (spec 41_capture.md; its rules are cited as R<n>
alone). -/

namespace Sys2Proof.Machine

/-! ### The TIMER's step -/

/-- `Tick`: the counter runs `0, 1, ..., ARR, 0, ...` (R171). -/
def tick (s : State) : State :=
  { s with
    cap :=
      { s.cap with
        cnt := if s.cap.arr.toNat ≤ s.cap.cnt.toNat then 0 else BitVec.ofNat 32 (s.cap.cnt.toNat + 1) } }

/-- A turn given to TIMER: a `Tick` where `CTRL.TIM_EN = 1`; otherwise no step is enabled and nothing happens
(R171; log entry 1). -/
def timerTurn (s : State) : State := if s.cap.timEn then tick s else s

/-! ### The block-index queue (R182, R183) -/

/-- `BqPush(b)`: a full queue drops the new block and counts it (R182). -/
def bqPush (s : State) (b : Bool) : State :=
  if s.bq.count = s.cfg.bqDepth then { s with cap := s.cap.countDrop }
  else
    { s with
      bq :=
        { s.bq with
          slots := s.bq.slots.set s.bq.head b
          head := (s.bq.head + 1) % s.cfg.bqDepth
          count := s.bq.count + 1 } }

/-- `BqPop()`, of a queue that is not empty (R183): the block and the queue left; none where `BQ_TAIL` is no slot of
the queue, which 10_state.md R37 excludes. -/
def bqPop (s : State) : Option (Bool × State) :=
  (s.bq.slots[s.bq.tail]?).map fun b =>
    (b, { s with
      bq := { s.bq with tail := (s.bq.tail + 1) % s.cfg.bqDepth, count := s.bq.count - 1 } })

/-! ### The SIGNAL's step -/

/-- `BlockEvent(b)`: the block index is queued and the notification posted (R181). -/
def blockEvent (s : State) (b : Bool) : State :=
  let q := bqPush s b
  { q with cap := { q.cap with ntf := true } }

/-- The input capture of `Edge`: the pin toggles and the counter is latched (R180). -/
def latchEdge (s : State) : State :=
  { s with cap := { s.cap with sig := !s.cap.sig, ccr := s.cap.cnt } }

/-- The DMA transfer of `Edge`: the capture value goes to the slot at `DMA_IDX`, which moves on (R180). -/
def dmaTransfer (s : State) : State :=
  { s with
    cap :=
      { s.cap with
        capbuf := s.cap.capbuf.set s.cap.dmaIdx (some s.cap.ccr)
        dmaIdx := s.cap.dmaIdx + 1 } }

/-- `DMA_IDX <- 0`, the circular wrap (R180). -/
def dmaWrap (s : State) : State := { s with cap := { s.cap with dmaIdx := 0 } }

/-- `Edge` (R180), with the block event inside the step (R181). -/
def edge (s : State) : State :=
  let s1 := latchEdge s
  if s1.cap.dmaEn then
    let s2 := dmaTransfer s1
    if s2.cap.dmaIdx = s2.cfg.blockLen then blockEvent s2 false
    else if s2.cap.dmaIdx = 2 * s2.cfg.blockLen then blockEvent (dmaWrap s2) true
    else s2
  else s1

/-! ### CAP_PROCESS (R184 to R188) -/

/-- `NextBlock(nb, nw)`: the end of the command where the queue is empty, else the next block is popped (R184). -/
def nextBlock (s : State) (nb nw : Nat) : Host.Outcome State Fault Refusal :=
  if s.bq.count = 0 then
    .next (State.succeed { s with proc := .idle } (BitVec.ofNat 32 nb) (BitVec.ofNat 32 nw))
  else
    match bqPop s with
    | none => .fault .queueIndexOutside
    | some (b, t) => .next { t with proc := .inblock b 0 (nb + 1) nw }

/-- The micro-step START of CAP_PROCESS (R184). -/
def execCapProcess (s : State) : Host.Outcome State Fault Refusal :=
  if s.ring.valid = false ∨ s.ring.esz ≠ 2#32 then .next (s.fail .state)
  else nextBlock s 0 0

/-- `w16`, the pulse width: the difference modulo the counter period, clamped to 16 bits (R186). -/
def pulseWidth (cur prev arr : Word) : Nat := min (subMod cur.toNat prev.toNat (arr.toNat + 1)) 65535

/-- The index in `CAPBUF` of slot `i` of block `b` (R184). -/
def captureIndex (blockLen : Nat) (b : Bool) (i : Nat) : Nat := b.toNat * blockLen + i

/-- `PREV_CAP <- cur; HAVE_PREV <- 1` (R184). -/
def rememberCapture (s : State) (cur : Word) : State :=
  { s with cap := { s.cap with prevCap := cur, havePrev := true } }

/-- The end of ELEM: the next slot of the block, or `NextBlock` (R184). -/
def elemNext (s : State) (b : Bool) (i nb nw : Nat) : Host.Outcome State Fault Refusal :=
  if i + 1 < s.cfg.blockLen then .next { s with proc := .inblock b (i + 1) nb nw }
  else nextBlock s nb nw

/-- The micro-step ELEM of CAP_PROCESS, taken while `PROC = inblock(b, i, nb, nw)`: one capture value is consumed
(R184 to R188). A slot that was never written is a fault (93_implementation_defined.md U6). -/
def elem (s : State) (b : Bool) (i nb nw : Nat) : Host.Outcome State Fault Refusal :=
  match s.cap.capbuf[captureIndex s.cfg.blockLen b i]? with
  | some (some cur) =>
    if s.cap.havePrev then
      match ringInsert s (leBytes 2 (pulseWidth cur s.cap.prevCap s.cap.arr)) with
      | none => .fault .outsideMemory
      | some t => elemNext (rememberCapture t cur) b i nb (nw + 1)
    else elemNext (rememberCapture s cur) b i nb nw
  | _ => .fault .captureSlotNeverWritten

/-! ### CAP_START and CAP_PAUSE (R192 to R196) -/

/-- `DmaDisable()` (R192): whether the channel is off, and the state after; the outcome for an enabled channel is a
draw (log entry 6). -/
def dmaDisable (s : State) : Bool × State :=
  if s.cap.dmaEn then
    let t := { s with draws := s.draws + 1 }
    if Config.dmaDisableOk s.draws then (true, { t with cap := { t.cap with dmaEn := false } }) else (false, t)
  else (true, s)

/-- The first two actions of CAP_START: the previous-capture state and the drop counter (R194). -/
def capStartClear (s : State) : State :=
  { s with cap := { s.cap with havePrev := false, dropCnt := 0 } }

/-- The arming of CAP_START: queue emptied, notification cleared, write index 0, channel enabled (R194). -/
def capArm (s : State) : State :=
  { s with
    bq := { s.bq with head := 0, tail := 0, count := 0 }
    cap := { s.cap with ntf := false, dmaIdx := 0, dmaEn := true } }

/-- CAP_START (R194). -/
def execCapStart (s : State) : Host.Outcome State Fault Refusal :=
  match dmaDisable (capStartClear s) with
  | (true, t) => .next ((capArm t).succeed 1 0)
  | (false, t) => .next (State.fail { t with cap := { t.cap with dropCnt := 1 } } .dmaTimeout)

/-- CAP_PAUSE (R195). -/
def execCapPause (s : State) : Host.Outcome State Fault Refusal :=
  match dmaDisable s with
  | (true, t) => .next (t.succeed 1 0)
  | (false, t) => .next (State.fail { t with cap := t.cap.countDrop } .dmaTimeout)

/-! ### The notification (R197, R198) -/

/-- NTF_TAKE: the flag is returned and cleared (R197). -/
def execNtfTake (s : State) : Host.Outcome State Fault Refusal :=
  .next (State.succeed { s with cap := { s.cap with ntf := false } } (flagResult s.cap.ntf) 0)

/-- The end of an NTF_WAIT, once `NTF = 1` (R198). -/
def ntfWaitDone (s : State) : State :=
  State.succeed { s with cap := { s.cap with ntf := false }, waiting := false } 1 0

/-- NTF_WAIT: ends at once where `NTF = 1`, else the command is in flight and the host held until it is (R198). -/
def execNtfWait (s : State) : Host.Outcome State Fault Refusal :=
  if s.cap.ntf then .next (ntfWaitDone s) else .next { s with waiting := true }

end Sys2Proof.Machine
end

