-- ==== Sys2Proof/WellFormed.lean ====
section
/-! DEFINITION. What is well formed: the ranges of the parameters (00_scope.md R8), the bus accesses that are
performed and not refused (20_memory.md R74, R76, 45_host_bus.md R323 to R326), and the commands. -/

namespace Sys2Proof

/-- The constraint column of 00_scope.md R8, one conjunct per parameter; the four H10 window numbers are "fixed".
`H10_SYNC`, `H10_PREAMBLE14`, `H10_FORMAT22` and `SIG0` are constrained by their types alone. -/
def Config.wellFormed (c : Config) : Bool :=
  (16 ≤ c.cntWidth && c.cntWidth ≤ 32)
  && (1 ≤ c.blockLen && c.blockLen ≤ 32768)
  && (1 ≤ c.bqDepth && c.bqDepth ≤ 8)
  && (1 ≤ c.memSize && c.memSize ≤ 2 ^ 32)
  && (1 ≤ c.frameChunkSize)
  && (2 * c.frameChunkSize + 1 ≤ c.edgeBufLen && c.edgeBufLen ≤ 255)
  && (1 ≤ c.emHalfUs0 && c.emHalfUs0 ≤ 16383)
  && (1 ≤ c.emHalfUs1 && c.emHalfUs1 ≤ 16383)
  && (1 ≤ c.emHalfUs2 && c.emHalfUs2 ≤ 16383)
  && (25 ≤ c.emTolHalfPct && c.emTolHalfPct ≤ 33)
  && (1 ≤ c.emTolPairPct && c.emTolPairPct ≤ 100)
  && (1 ≤ c.h10PeriodZeroUs && c.h10PeriodZeroUs < c.h10PeriodOneUs)
  && (c.h10PeriodOneUs ≤ 65535)
  && (1 ≤ c.h10TolPct && c.h10TolPct ≤ 100)
  && (c.h10OneWin == 5 && c.h10OneMin == 4)
  && (c.h10ZeroWin == 6 && c.h10ZeroMin == 5)

/-- The accesses that are performed; every other one is refused with no state change. A register access is 32
bits wide, aligned to 4 and inside the 128-byte block (20_memory.md R74, 45_host_bus.md R323, R324); a MEM access
is 1, 2 or 4 bytes wide, aligned to its width and inside MEM (45_host_bus.md R325, R326). -/
def HostAccess.wellFormed (memSize : Nat) : HostAccess → Bool
  | .regRead off n => n == 4 && off.toNat % 4 == 0 && decide (off.toNat ≤ 0x7C)
  | .regWrite off n _ => n == 4 && off.toNat % 4 == 0 && decide (off.toNat ≤ 0x7C)
  | .memRead a n => (n == 1 || n == 2 || n == 4) && a.toNat % n == 0 && decide (a.toNat + n ≤ memSize)
  | .memWrite a n _ => (n == 1 || n == 2 || n == 4) && a.toNat % n == 0 && decide (a.toNat + n ≤ memSize)

/-- Every command is well formed: the types bound the operand fields, and 30_encoding.md R102 leaves every value
of the bits outside a row's mask legal (a DEC_BEGIN above 3 is a legal word that fails with `ERR_ARG`, R103). -/
def Instr.wellFormed : Instr → Bool
  | .nop => true
  | .rbInit => true
  | .rbReset => true
  | .rbWrite => true
  | .rbInsert => true
  | .rbRead => true
  | .rbAdvanceRead => true
  | .rbGetReadAddress => true
  | .rbGetReadLen => true
  | .rbCheckEmpty => true
  | .capStart => true
  | .capPause => true
  | .capProcess => true
  | .ntfTake => true
  | .ntfWait => true
  | .decBegin _ => true
  | .decExecute => true
  | .decEvent _ _ => true
  | .decGetData => true
  | .decPartialReset => true

end Sys2Proof
end

