-- ==== Sys2Proof/Machine/Bus.lean ====
section
/-! DEFINITION. The register map and the host's bus accesses other than a write to CMD (spec 10_state.md R53,
45_host_bus.md R321 to R326, 20_memory.md R74 to R79). -/

namespace Sys2Proof.Machine

/-! ### The registers that are assembled from fields (10_state.md R53) -/

/-- CTRL. -/
def State.ctrlReg (s : State) : Word := bitAt 0 s.cap.timEn ||| bitAt 1 s.cap.irqEn

/-- DMA_STAT. -/
def State.dmaStat (s : State) : Word :=
  fieldAt 0 16 s.cap.dmaIdx ||| bitAt 16 s.cap.dmaEn ||| bitAt 17 s.cap.havePrev

/-- The bits 24+k of BQ_STAT: slot `k`, from slot `k` on, up to the eight the register has room for (R54). -/
def bqSlotBits : List Bool → Nat → Word
  | [], _ => 0
  | b :: rest, k => bitAt (24 + k) b ||| bqSlotBits rest (k + 1)

/-- BQ_STAT. -/
def State.bqStat (s : State) : Word :=
  fieldAt 0 8 s.bq.count ||| fieldAt 8 8 s.bq.head ||| fieldAt 16 8 s.bq.tail ||| bqSlotBits s.bq.slots 0

/-- `EDGE_CNT` (R45). -/
def Decoder.edgeCnt (d : Decoder) : Nat := d.eb.length

/-- DEC_STAT. -/
def State.decStat (s : State) : Word :=
  fieldAt 0 8 s.dec.bitCnt ||| fieldAt 8 8 s.dec.edgeCnt ||| fieldAt 16 2 s.dec.proto.code
  ||| bitAt 18 s.dec.active

/-- DEC_WIN. -/
def State.decWin (s : State) : Word := fieldAt 0 3 s.dec.winLen ||| s.dec.winSym.setWidth 32 <<< 8

/-- TAG_UID_LO. -/
def State.tagUidLo (s : State) : Word := s.tag.uid3 ++ s.tag.uid2 ++ s.tag.uid1 ++ s.tag.uid0

/-- TAG_UID_HI. -/
def State.tagUidHi (s : State) : Word := s.tag.bitrate ++ 0#8 ++ s.tag.uid4

/-! ### Register accesses -/

/-- What a read of the register at `off` returns (R53, R323); CMD and the unlisted offsets read 0. -/
def State.readReg (s : State) (off : Nat) : Word :=
  match off with
  | 0x04 => s.status
  | 0x08 => s.regs.arg0
  | 0x0C => s.regs.arg1
  | 0x10 => s.regs.arg2
  | 0x14 => s.regs.res0
  | 0x18 => s.regs.res1
  | 0x1C => s.ctrlReg
  | 0x20 => s.cap.cnt
  | 0x24 => s.cap.arr
  | 0x28 => s.cap.ccr
  | 0x2C => s.cap.dropCnt
  | 0x30 => s.dmaStat
  | 0x34 => s.cap.prevCap
  | 0x38 => s.bqStat
  | 0x40 => s.ring.base
  | 0x44 => s.ring.cap
  | 0x48 => s.ring.esz
  | 0x4C => s.ring.head
  | 0x50 => s.ring.tail
  | 0x60 => s.decStat
  | 0x64 => s.decWin
  | 0x68 => s.dec.halfUs.setWidth 32
  | 0x6C => s.dec.fw0
  | 0x70 => s.dec.fw1
  | 0x74 => s.dec.fw2
  | 0x78 => s.tagUidLo
  | 0x7C => s.tagUidHi
  | _ => 0

/-- `RegWrite(off, v)` to a register other than CMD (R324): ARG0 to ARG2, CTRL and ARR keep what they have room for,
every other offset ignores the write. -/
def State.writeReg (s : State) (off : Nat) (v : Word) : State :=
  match off with
  | 0x08 => { s with regs := { s.regs with arg0 := v } }
  | 0x0C => { s with regs := { s.regs with arg1 := v } }
  | 0x10 => { s with regs := { s.regs with arg2 := v } }
  | 0x1C => { s with cap := { s.cap with timEn := v.getLsbD 0, irqEn := v.getLsbD 1 } }
  | 0x24 => { s with cap := { s.cap with arr := BitVec.ofNat 32 (v.toNat % 2 ^ s.cfg.cntWidth) } }
  | _ => s

/-! ### MEM accesses -/

/-- `MemReadHost(a, n)` of an access that is performed (R325). -/
def hostMemRead (s : State) (a : Word) (n : Nat) : State :=
  match memRead s.cfg.memSize s.mem a.toNat n with
  | none => { s with reply := .refused }
  | some v => { s with reply := .value (BitVec.ofNat 32 v) }

/-- `MemWriteHost(a, n, v)` of an access that is performed (R326). -/
def hostMemWrite (s : State) (a : Word) (n : Nat) (v : Word) : State :=
  match memWrite s.cfg.memSize s.mem a.toNat n v.toNat with
  | none => { s with reply := .refused }
  | some m => { s with mem := m, reply := .written }

/-- The state after an access that is refused: nothing changes but what the bus answers (20_memory.md R74, R76). -/
def refuseAccess (s : State) : State := { s with reply := .refused }

end Sys2Proof.Machine
end

