-- ==== Sys2Proof/Machine/System.lean ====
section
/-! DEFINITION. NOP, the one command of no sub-block (45_host_bus.md R327, 30_encoding.md R109). -/

namespace Sys2Proof.Machine

/-- NOP: succeeds with both results 0; its use is to clear `ERR` (R327). -/
def execNop (s : State) : Host.Outcome State Fault Refusal := .next (s.succeed 0 0)

end Sys2Proof.Machine
end

