-- ==== Sys2Proof/Machine/Dispatch.lean ====
section
/-! DEFINITION. The dispatch of a command to its meaning, one arm per constructor (45_host_bus.md R328). -/

namespace Sys2Proof.Machine

def exec (i : Instr) (s : State) : Host.Outcome State Fault Refusal :=
  match i with
  | .nop => Sys2Proof.Machine.execNop s
  | .rbInit => Sys2Proof.Machine.execRbInit s
  | .rbReset => Sys2Proof.Machine.execRbReset s
  | .rbWrite => Sys2Proof.Machine.execRbWrite s
  | .rbInsert => Sys2Proof.Machine.execRbInsert s
  | .rbRead => Sys2Proof.Machine.execRbRead s
  | .rbAdvanceRead => Sys2Proof.Machine.execRbAdvanceRead s
  | .rbGetReadAddress => Sys2Proof.Machine.execRbGetReadAddress s
  | .rbGetReadLen => Sys2Proof.Machine.execRbGetReadLen s
  | .rbCheckEmpty => Sys2Proof.Machine.execRbCheckEmpty s
  | .capStart => Sys2Proof.Machine.execCapStart s
  | .capPause => Sys2Proof.Machine.execCapPause s
  | .capProcess => Sys2Proof.Machine.execCapProcess s
  | .ntfTake => Sys2Proof.Machine.execNtfTake s
  | .ntfWait => Sys2Proof.Machine.execNtfWait s
  | .decBegin imm => Sys2Proof.Machine.execDecBegin imm s
  | .decExecute => Sys2Proof.Machine.execDecExecute s
  | .decEvent dur lvl => Sys2Proof.Machine.execDecEvent dur lvl s
  | .decGetData => Sys2Proof.Machine.execDecGetData s
  | .decPartialReset => Sys2Proof.Machine.execDecPartialReset s

end Sys2Proof.Machine
end

