-- ==== Sys2Proof/Machine/HostTurn.lean ====
section
/-! DEFINITION. The HOST's turn: the micro-steps of a command in flight, and the next bus access of its program
with the command a write to CMD starts (45_host_bus.md R321 to R328, 60_exceptions.md R356). -/

namespace Sys2Proof.Machine

/-- What the bus answers after a piece of a command has run: the write to CMD completes when the command ends
(R322). -/
def State.settle (s : State) : State := { s with reply := if s.inFlight then .held else .written }

/-- `Command(w)` (R328): an illegal word fails with `ERR_OPCODE`, any other runs its command. -/
def runCommand (w : Word) (s : State) : Host.Outcome State Fault Refusal :=
  match decode w with
  | .illegal _ => .next (s.fail .opcode)
  | .ok i => exec i s

/-- One bus access that is performed (R323 to R326); a write to CMD and the first piece of its command are one step
(log entry 14). -/
def performAccess (a : HostAccess) (s : State) : Host.Outcome State Fault Refusal :=
  match a with
  | .regRead off _ => .next { s with reply := .value (s.readReg off.toNat) }
  | .regWrite off _ v =>
    if off = 0#32 then mapNext State.settle (runCommand v s)
    else .next { s.writeReg off.toNat v with reply := .written }
  | .memRead a n => .next (hostMemRead s a n)
  | .memWrite a n v => .next (hostMemWrite s a n v)

/-- One bus access: performed where it is well formed, refused where it is not (20_memory.md R74, R76). -/
def busAccess (a : HostAccess) (s : State) : Host.Outcome State Fault Refusal :=
  if a.wellFormed s.cfg.memSize then performAccess a s else .next (refuseAccess s)

/-- A turn given to HOST. With CAP_PROCESS in flight: its micro-step ELEM. With NTF_WAIT in flight: its end, where
`NTF = 1`; else the host is held. With no command in flight: the next access of the program, where there is one
(60_exceptions.md R356; log entries 1, 2, 4). -/
def hostTurn (s : State) : Host.Outcome State Fault Refusal :=
  match s.proc with
  | .inblock b i nb nw => mapNext State.settle (elem s b i nb nw)
  | .idle =>
    if s.waiting then
      if s.cap.ntf then .next (ntfWaitDone s).settle else .next s
    else
      match s.program with
      | [] => .next s
      | a :: rest => busAccess a { s with program := rest }

/-- A turn taken off the schedule and given to its agent (60_exceptions.md R356). -/
def takeTurn (t : Turn) (s : State) : Host.Outcome State Fault Refusal :=
  match t with
  | .timer => .next (timerTurn s)
  | .signal => .next (edge s)
  | .host => hostTurn s

/-- The access by which the host starts the command whose word is `w` (30_encoding.md R100). -/
def commandAccess (w : Word) : HostAccess := .regWrite 0#32 4 w

end Sys2Proof.Machine
end

