-- ==== Sys2Proof/Machine/Step.lean ====
section
/-! DEFINITION. One step of the machine, and the placing of a command where the next step takes it. -/

namespace Sys2Proof.Machine

/-- One step of the transition system of 60_exceptions.md R356: the agent the schedule names takes its step; after
the schedule's last entry every turn is the host's (log entry 1). -/
def step (s : State) : Host.Outcome State Fault Refusal :=
  match s.schedule with
  | [] => takeTurn .host s
  | t :: rest => takeTurn t { s with schedule := rest }

/-- `s` with the host about to write to CMD the word whose bits are `w` (the bits from `nbits` on are 0): no
command in flight, the next turn the host's, and that write first in its program (log entry 2). -/
def State.withFetchWord (s : State) (nbits w : Nat) : State :=
  { s with
    proc := .idle
    waiting := false
    schedule := .host :: s.schedule
    program := commandAccess (BitVec.ofNat 32 (w % 2 ^ nbits)) :: s.program }

end Sys2Proof.Machine
end

