-- ==== Sys2Proof/Machine/Reference.lean ====
section
/-! DEFINITION. The reference functions the spec states its round trips with, no operations of ECDB
(00_scope.md R6): `EmPack`, `EmWave`, `WaveToEvents` (43_em4100.md R279, R280), `Wiegand26`, `H10Pack`, `FskWave`
(44_h10301.md R310 to R312). -/

namespace Sys2Proof.Machine

/-! ### EM4100 -/

/-- `D[r][c]`, bit `3 - c` of nibble `r` of the UID; even nibbles are the high halves (43_em4100.md R270). -/
def uidBit (uid : List Byte) (r c : Nat) : Bool := (uid.getD (r / 2) 0).getMsbD (4 * (r % 2) + c)

/-- `EmPack(uid)`: the 64 frame bits in transmission order (43_em4100.md R279). -/
def emPackBits (uid : List Byte) : List Bool :=
  List.replicate 9 true
  ++ (List.range 10).flatMap (fun r =>
      [uidBit uid r 0, uidBit uid r 1, uidBit uid r 2, uidBit uid r 3,
       uidBit uid r 0 ^^ uidBit uid r 1 ^^ uidBit uid r 2 ^^ uidBit uid r 3])
  ++ (List.range 4).map (fun c => (List.range 10).foldl (fun acc r => acc ^^ uidBit uid r c) false)
  ++ [false]

/-- The frame value whose frame bit at position p is the p-th bit sent (42_decoder_port.md R224). -/
def emPack (uid : List Byte) : BitVec 64 := bitsBE 64 fun p => (emPackBits uid).getD p false

/-- `EmWave(bits, H)`: bit 1 is HIGH then LOW, bit 0 LOW then HIGH, each half `H` µs (43_em4100.md R280). -/
def emWave (bits : List Bool) (h : Nat) : List (Bool × Nat) := bits.flatMap fun b => [(b, h), (!b, h)]

/-- Neighbouring pieces of equal level merged into runs (43_em4100.md R280). -/
def mergeRuns : List (Bool × Nat) → List (Bool × Nat)
  | [] => []
  | (l, d) :: rest =>
    match mergeRuns rest with
    | [] => [(l, d)]
    | (l', d') :: more => if l = l' then (l, d + d') :: more else (l, d) :: (l', d') :: more

/-- Event k is the duration of run k with the level of run k+1; the last run yields none (43_em4100.md R280). A run
longer than the 65535 µs an event can hold (42_decoder_port.md R222) keeps the low 16 bits of its duration: the model's
choice, no rule says what its event is (log entry 9). -/
def runEvents : List (Bool × Nat) → List EdgeEvent
  | (_, d) :: (l, d') :: rest => ⟨BitVec.ofNat 16 d, l⟩ :: runEvents ((l, d') :: rest)
  | _ => []

/-- `WaveToEvents(w)` (43_em4100.md R280). -/
def waveToEvents (w : List (Bool × Nat)) : List EdgeEvent := runEvents (mergeRuns w)

/-! ### H10301 -/

/-- `Wiegand26(fc, card)` (44_h10301.md R310). -/
def wiegand26 (fc : BitVec 8) (card : BitVec 16) : BitVec 26 :=
  let v : BitVec 26 := ((fc.setWidth 26 <<< 16) ||| card.setWidth 26) <<< 1
  let pe := onesIn v 13 12 % 2 == 1
  let po := !(onesIn v 1 12 % 2 == 1)
  ((BitVec.ofBool pe).setWidth 26 <<< 25) ||| v ||| (BitVec.ofBool po).setWidth 26

/-- `Man26(w)`: pair j from the top is `10` where `w[25-j] = 1`, else `01` (44_h10301.md R311). -/
def man26 (w : BitVec 26) : BitVec 52 :=
  bitsBE 52 fun p => if p % 2 = 0 then w.getMsbD (p / 2) else !w.getMsbD (p / 2)

/-- `H10Pack(fc, card)`: sync, preamble, format, payload (44_h10301.md R311). -/
def h10Pack (cfg : Config) (fc : BitVec 8) (card : BitVec 16) : BitVec 96 :=
  cfg.h10Sync ++ cfg.h10Preamble14 ++ cfg.h10Format22 ++ man26 (wiegand26 fc card)

/-- The half-periods of one frame bit: ten of `PO / 2` for 1, twelve of `PZ / 2` for 0 (44_h10301.md R312). -/
def fskBit (cfg : Config) (b : Bool) : List Nat :=
  if b then List.replicate 10 (cfg.h10PeriodOneUs / 2) else List.replicate 12 (cfg.h10PeriodZeroUs / 2)

/-- One event per half-period, the level toggling at each (44_h10301.md R312); every half-period of the parameters in
range fits the 16 bits of an event. -/
def toggling : Bool → List Nat → List EdgeEvent
  | _, [] => []
  | l, d :: rest => ⟨BitVec.ofNat 16 d, l⟩ :: toggling (!l) rest

/-- `FskWave(bits)`, from level 1 on (44_h10301.md R312). -/
def fskWave (cfg : Config) (bits : List Bool) : List EdgeEvent := toggling true (bits.flatMap (fskBit cfg))

/-- Feeds a list of batches to the decoder, one pass each: the decoder after, and the tag record last found. -/
def feedBatches (cfg : Config) : Decoder → List (List EdgeEvent) → Decoder × Option Tag
  | d, [] => (d, none)
  | d, ev :: rest =>
    let r := decExecutePass cfg d ev
    let q := feedBatches cfg r.1 rest
    (q.1, q.2.orElse fun _ => r.2)

end Sys2Proof.Machine
end

