-- ==== Sys2Proof/Safety.lean ====
section
/-! DEFINITION. What a good state and a safe run are: the invariants the spec gives each piece of state, as one
decidable predicate, and the states a run starts from. -/

namespace Sys2Proof.Machine

/-- The ring's invariants while `RB_VALID = 1` (10_state.md R39). -/
abbrev Ring.Inv (memSize : Nat) (r : Ring) : Prop :=
  r.valid = true →
    2 ≤ r.cap.toNat ∧ 1 ≤ r.esz.toNat ∧ r.base.toNat + r.endIndex ≤ memSize
    ∧ r.head.toNat < r.endIndex ∧ r.tail.toNat < r.endIndex
    ∧ r.head.toNat % r.esz.toNat = 0 ∧ r.tail.toNat % r.esz.toNat = 0

/-- The block-index queue's invariant (10_state.md R37). -/
abbrev BlockQueue.Inv (depth : Nat) (q : BlockQueue) : Prop :=
  q.slots.length = depth ∧ q.head < depth ∧ q.tail < depth ∧ q.count ≤ depth
  ∧ q.head = (q.tail + q.count) % depth

/-- Slot `j` of the capture buffer has been written, with a value of `CNT_WIDTH` bits. -/
def slotWritten (cfg : Config) (c : Capture) (j : Nat) : Bool :=
  match c.capbuf.getD j none with
  | some v => decide (v.toNat < 2 ^ cfg.cntWidth)
  | none => false

/-- Every slot of block `b` has been written (70_reset_and_hazards.md R401). -/
abbrev blockWritten (cfg : Config) (c : Capture) (b : Bool) : Prop :=
  ∀ i < cfg.blockLen, slotWritten cfg c (captureIndex cfg.blockLen b i) = true

/-- The capture state: registers within `CNT_WIDTH` bits, the DMA index within the buffer, and every slot below it
written (10_state.md R27 to R35, 70_reset_and_hazards.md R401). -/
abbrev Capture.Inv (cfg : Config) (c : Capture) : Prop :=
  c.cnt.toNat < 2 ^ cfg.cntWidth ∧ c.arr.toNat < 2 ^ cfg.cntWidth ∧ c.ccr.toNat < 2 ^ cfg.cntWidth
  ∧ c.prevCap.toNat < 2 ^ cfg.cntWidth ∧ c.capbuf.length = 2 * cfg.blockLen
  ∧ c.dmaIdx < 2 * cfg.blockLen ∧ ∀ j < c.dmaIdx, slotWritten cfg c j = true

/-- Every queued block has been written (70_reset_and_hazards.md R401). -/
abbrev State.queueWritten (s : State) : Prop :=
  ∀ k < s.bq.count, blockWritten s.cfg s.cap (s.bq.slots.getD ((s.bq.tail + k) % s.cfg.bqDepth) false)

/-- The command in flight, if any: at most one; a CAP_PROCESS is in a written block, at a slot of it, over a ring of
2-byte elements (10_state.md R38, 41_capture.md R184, 45_host_bus.md R322). -/
def State.flightOk (s : State) : Bool :=
  match s.proc with
  | .idle => true
  | .inblock b i _ _ =>
    decide (s.waiting = false ∧ i < s.cfg.blockLen ∧ blockWritten s.cfg s.cap b ∧ s.ring.valid = true
      ∧ s.ring.esz = 2#32)

/-- The decoder's invariants (10_state.md R41 to R46): `BIT_CNT ≤ FRAME_BITS`, `EDGE_CNT ≤ EDGE_BUF_LEN`,
`WIN_LEN ≤ 6`, the half-bit period that of the protocol, and for EM4100 `FW[2]` and the window 0. -/
abbrev Decoder.Inv (cfg : Config) (d : Decoder) : Prop :=
  d.bitCnt ≤ d.proto.frameBits ∧ d.eb.length ≤ cfg.edgeBufLen ∧ d.winLen ≤ 6
  ∧ d.halfUs.toNat = (if d.active then protoHalfUs cfg d.proto else 0)
  ∧ (d.proto ≠ .h10301 → d.fw2 = 0#32 ∧ d.winLen = 0 ∧ d.winSym = 0#6)

/-- The invariant of the whole machine. -/
abbrev State.Inv (s : State) : Prop :=
  s.cfg.wellFormed = true ∧ Memory.wf s.cfg.memSize s.mem ∧ s.ring.Inv s.cfg.memSize
  ∧ s.bq.Inv s.cfg.bqDepth ∧ s.cap.Inv s.cfg ∧ s.queueWritten ∧ s.flightOk = true ∧ s.dec.Inv s.cfg

/-- The machine after reset, about to be given a host program and a schedule of turns: where every run starts
(00_scope.md R10, 10_state.md R20, 60_exceptions.md R356). -/
def State.initial (cfg : Config) (program : List HostAccess) (schedule : List Turn) : State :=
  { State.resetWith cfg with program := program, schedule := schedule }

/-- A step from `s` answers a next state: it neither faults nor is refused. -/
def State.safe (s : State) : Prop := ∃ t, step s = .next t

/-- The host is free to make its next access: its turn comes next and no command is in flight
(45_host_bus.md R322). -/
abbrev State.hostFree (s : State) : Prop := s.schedule = [] ∧ s.proc = .idle ∧ s.waiting = false

/-- A command's end written out: the code and the two results, and nothing else (45_host_bus.md R328). -/
def State.ended (s : State) (e : ErrCode) (r0 r1 : Word) : State :=
  { s with regs := { s.regs with err := e, res0 := r0, res1 := r1 } }

/-! ### What a state holds, for the statements -/

/-- The `n` bytes of MEM from `a` on. -/
def memBytes (m : Memory) (a n : Nat) : List Byte := (List.range n).map fun j => memByte m (a + j)

/-- Two ranges of addresses share none (40_ringbuffer.md R153). -/
abbrev rangesApart (a n b m : Nat) : Prop := a + n ≤ b ∨ b + m ≤ a

/-- What the ring holds, oldest byte first: the `Occ` elements from the tail on (40_ringbuffer.md R141, R143). -/
def State.ringBytes (s : State) : List Byte :=
  (List.range (s.ring.occ * s.ring.esz.toNat)).map fun j => memByte s.mem (s.ring.addr s.ring.tail.toNat j)

/-- What the block-index queue holds, oldest block first (10_state.md R37). -/
def BlockQueue.contents (depth : Nat) (q : BlockQueue) : List Bool :=
  (List.range q.count).map fun k => q.slots.getD ((q.tail + k) % depth) false

/-- A pair of entries that a pass of the decoder took, with the bit (EM4100) or the symbol (H10301) it gave
(43_em4100.md R260, 44_h10301.md R297). -/
structure TakenPair where
  first : EdgeEvent
  second : EdgeEvent
  bit : Bool
deriving DecidableEq, Repr

/-- The class of a pair of entries in the decoder's protocol (43_em4100.md R257, 44_h10301.md R291). -/
def Decoder.pairClass (cfg : Config) (d : Decoder) (a b : EdgeEvent) : PairClass :=
  if d.proto = .h10301 then h10Symbol cfg a b else emClassify cfg d.halfUs a b

/-- What one valid pair does to the decoder, apart from the edge buffer, and the tag record where it completes a frame:
EM4100, its bit is shifted in; H10301, its symbol goes to the window, and the bit that the window declares, if any, is
shifted in (43_em4100.md R260, 44_h10301.md R297). -/
def Decoder.takePair (cfg : Config) (d : Decoder) (x : Bool) : Decoder × Option Tag :=
  if d.proto = .h10301 then
    match (d.winPush x).winDetect cfg with
    | none => (d.winPush x, none)
    | some bit =>
      let e := (d.winPush x).emptyWindow.shiftIn96 bit
      (e, if e.bitCnt = 96 ∧ h10Valid cfg e.frame96 = true then some (h10Tag e.frame96) else none)
  else
    let e := d.shiftIn64 x
    (e, if e.bitCnt = 64 ∧ emValid e.frame64 = true then some (emTag e.frame64 e.halfUs) else none)

/-- What several valid pairs do to the decoder, in order; none where one of them completes a frame. -/
def Decoder.takePairs (cfg : Config) : Decoder → List Bool → Option Decoder
  | d, [] => some d
  | d, x :: xs =>
    match d.takePair cfg x with
    | (e, none) => takePairs cfg e xs
    | (_, some _) => none

/-- A ring command of a session, with its address and its number of elements (40_ringbuffer.md R153). -/
inductive RingOp where
  | write (src n : Word)
  | read (dst n : Word)
deriving DecidableEq, Repr

/-- The command of a ring operation. -/
def RingOp.instr : RingOp → Instr
  | .write _ _ => .rbWrite
  | .read _ _ => .rbRead

/-- The state with the argument registers a ring operation takes. -/
def RingOp.setArgs (s : State) : RingOp → State
  | .write a n => { s with regs := { s.regs with arg0 := a, arg1 := n } }
  | .read a n => { s with regs := { s.regs with arg0 := a, arg1 := n } }

/-- The bytes an operation offers to the ring, in a state before it. -/
def RingOp.offered (s : State) : RingOp → List Byte
  | .write a n => memBytes s.mem a.toNat (n.toNat * s.ring.esz.toNat)
  | .read _ _ => []

/-- The bytes an operation has delivered, in the state after it: `RES[0]` elements. -/
def RingOp.delivered (t : State) : RingOp → List Byte
  | .write _ _ => []
  | .read a _ => memBytes t.mem a.toNat (t.regs.res0.toNat * t.ring.esz.toNat)

/-- The bytes an operation touches lie outside the ring's storage. -/
abbrev RingOp.apart (s : State) : RingOp → Prop
  | .write a n => rangesApart a.toNat (n.toNat * s.ring.esz.toNat) s.ring.base.toNat s.ring.endIndex
  | .read a n => rangesApart a.toNat (n.toNat * s.ring.esz.toNat) s.ring.base.toNat s.ring.endIndex

/-- A session of ring operations from `s` to `t`, each taken by `exec`, every write whole (`RES[0] = ARG[1]`), no
operation touching the ring's storage but through the ring; with the bytes offered and delivered in order
(40_ringbuffer.md R153). -/
inductive RingSession : State → List Byte → List Byte → State → Prop where
  | done (s : State) : RingSession s [] [] s
  | op {s t u : State} {o : RingOp} {offered delivered : List Byte}
      (apart : o.apart s)
      (ran : exec o.instr (o.setArgs s) = .next t)
      (succeeded : t.regs.err = .ok)
      (whole : ∀ a n, o = .write a n → t.regs.res0 = n)
      (rest : RingSession t offered delivered u) :
      RingSession s (o.offered s ++ offered) (o.delivered t ++ delivered) u

end Sys2Proof.Machine
end

