-- ==== Sys2Proof/Certificates/Slice0/Obligations.lean ====
section
/-! DEFINITION. The statements for the provers, each from numbered rules of the spec. `State.ended e r0 r1` is a
command's end written out: code `e`, results `r0`, `r1`, nothing else changed. -/

open Sys2Proof Sys2Proof.Machine

/-! ### Encoding -/

/-- 30_encoding.md R101 to R104, R106: every command is read back from its word, and a word that is read as a command
is that command's word, so that no bit of a legal word is dropped. -/
def Obligations.DecodeAndEncodeAgree : Prop :=
  (∀ i : Instr, i.wellFormed = true → decode (encode i) = .ok i)
  ∧ ∀ (w : Word) (i : Instr), decode w = .ok i → encode i = w

/-- 30_encoding.md R102, R106: a word that decodes selects the table row of its command's mnemonic, a word that is
illegal selects none, and no word selects two rows. -/
def Obligations.DecodeSelectsTheTableRow : Prop :=
  (∀ (w : Word) (i : Instr), decode w = .ok i →
    ∃ r ∈ opcodeTable, r.mnemonic = mnemonicOf i ∧ r.selects w = true)
  ∧ (∀ (w : Word) (e : DecodeError), decode w = .illegal e → ∀ r ∈ opcodeTable, r.selects w = false)
  ∧ ∀ (w : Word), ∀ r ∈ opcodeTable, ∀ r' ∈ opcodeTable, r.selects w = true → r'.selects w = true → r = r'

/-- 30_encoding.md R113 and R108: the worked encodings, and four illegal words (95_test_vectors.md V-ERR-1). -/
def Obligations.WorkedWordsDecode : Prop :=
  decode 0x00020030#32 = .ok (.decBegin 2#16) ∧ decode 0x00400132#32 = .ok (.decEvent 64#16 true)
  ∧ decode 0x03E80032#32 = .ok (.decEvent 1000#16 false) ∧ decode 0x00000014#32 = .ok .rbRead
  ∧ decode 0x00000022#32 = .ok .capProcess ∧ decode 0x00000000#32 = .ok .nop
  ∧ decode 0x00000001#32 = .illegal (.unknownOpcode 0x01#8)
  ∧ decode 0x00010010#32 = .illegal (.mustBeZero 0x10#8)
  ∧ decode 0x00000232#32 = .illegal (.mustBeZero 0x32#8)
  ∧ decode 0x00000100#32 = .illegal (.mustBeZero 0x00#8)

/-! ### The host's turn -/

/-- 45_host_bus.md R322, R328, 60_exceptions.md R356: where the next turn is the host's, no command is in flight and
the next access writes to CMD a word that decodes to `i`, the step is `exec i`, with the access taken off the
program, the turn off the schedule, and the bus's answer set: `held` while the command is in flight, else
`written`. (Program, schedule and answer are the model's record: log entries 1, 2; that the write and the command's first
micro-step are one step: log entry 14.) -/
def Obligations.StepRunsTheDecodedCommand : Prop :=
  ∀ (s : State) (w : Word) (i : Instr) (rest : List HostAccess),
    (s.schedule = [] ∨ ∃ turns, s.schedule = .host :: turns) → s.proc = .idle → s.waiting = false →
    s.program = commandAccess w :: rest → decode w = .ok i → i.wellFormed = true →
    step s = mapNext State.settle (exec i { s with program := rest, schedule := s.schedule.tail })

/-- 30_encoding.md R102, R108: a word that selects no row of the opcode table, unknown opcode or must-be-zero field,
fails with `ERR_OPCODE` and changes nothing else. (The program and the bus's answer are the model's record of the host:
log entry 2.) -/
def Obligations.IllegalWordFailsWithErrOpcode : Prop :=
  ∀ (s : State) (w : Word) (rest : List HostAccess), s.hostFree → s.program = commandAccess w :: rest →
    (∀ r ∈ opcodeTable, r.selects w = false) →
    step s = .next { s.ended .opcode 0 0 with program := rest, reply := .written }

/-- 30_encoding.md R105, R112, 45_host_bus.md R324: the bus accesses a mnemonic with operands stands for write the
argument registers the command uses, leave the others, and then run the command. -/
def Obligations.MnemonicExpansionRunsTheCommand : Prop :=
  ∀ (s : State) (i : Instr) (a0 a1 a2 : Word) (rest : List HostAccess), s.hostFree →
    s.program = expand i a0 a1 a2 ++ rest →
    Host.Core.run Sys2Proof.core (argCount i + 1) s =
      mapNext State.settle (exec i
        { s with
          program := rest
          reply := if argCount i = 0 then s.reply else .written
          regs :=
            { s.regs with
              arg0 := if 1 ≤ argCount i then a0 else s.regs.arg0
              arg1 := if 2 ≤ argCount i then a1 else s.regs.arg1
              arg2 := if 3 ≤ argCount i then a2 else s.regs.arg2 } })

/-- 45_host_bus.md R322: while a command is in flight the host issues no access: whoever takes the step, the program
and the argument registers stay. -/
def Obligations.NoAccessWhileACommandIsInFlight : Prop :=
  ∀ (s t : State), s.inFlight = true → step s = .next t →
    t.program = s.program ∧ t.regs.arg0 = s.regs.arg0 ∧ t.regs.arg1 = s.regs.arg1
    ∧ t.regs.arg2 = s.regs.arg2

/-! ### Bus accesses -/

/-- 45_host_bus.md R324, 10_state.md R53, R55: a write to ARG0, ARG1, ARG2, CTRL or ARR changes the one field it names,
masked to the bits the register has, and nothing else; it reads back so, no other register but STATUS reads otherwise
than before, and of STATUS only the IRQ bit, which follows CTRL; a write to any other offset of the block but CMD is
ignored. (The bus's answer is the model's record: log entry 2.) -/
def Obligations.RegisterWritesReadBackOrAreIgnored : Prop :=
  ∀ (s : State) (off : Word) (v : Word),
    (off ∈ [0x08#32, 0x0C#32, 0x10#32, 0x1C#32, 0x24#32] →
      ∃ t : State,
        t =
          (if off = 0x08#32 then { s with reply := .written, regs := { s.regs with arg0 := v } }
           else if off = 0x0C#32 then { s with reply := .written, regs := { s.regs with arg1 := v } }
           else if off = 0x10#32 then { s with reply := .written, regs := { s.regs with arg2 := v } }
           else if off = 0x1C#32 then
             { s with reply := .written, cap := { s.cap with timEn := v.getLsbD 0, irqEn := v.getLsbD 1 } }
           else
             { s with
               reply := .written
               cap := { s.cap with arr := BitVec.ofNat 32 (v.toNat % 2 ^ s.cfg.cntWidth) } })
        ∧ busAccess (.regWrite off 4 v) s = .next t
        ∧ t.readReg off.toNat =
            (if off = 0x1C#32 then v &&& 3#32
             else if off = 0x24#32 then BitVec.ofNat 32 (v.toNat % 2 ^ s.cfg.cntWidth) else v)
        ∧ (∀ o : Nat, o ≠ off.toNat → o ≠ 0x04 → t.readReg o = s.readReg o)
        ∧ ∀ k < 32, (t.readReg 0x04).getLsbD k =
            (if off = 0x1C#32 ∧ k = 12 then s.cap.ntf && v.getLsbD 1 else (s.readReg 0x04).getLsbD k))
    ∧ (off.toNat % 4 = 0 → off.toNat ≤ 0x7C →
        off ∉ [0x00#32, 0x08#32, 0x0C#32, 0x10#32, 0x1C#32, 0x24#32] →
        busAccess (.regWrite off 4 v) s = .next { s with reply := .written })

/-- 20_memory.md R74, R76, 45_host_bus.md R323 to R326: on the host's turn, with no command in flight, a register access
that is not 32 bits wide, not aligned to 4 or beyond offset 0x7C, and a MEM access that is not 1, 2 or 4 bytes wide, not
aligned to its width or not inside MEM, read or write, is refused: the step changes nothing of ECDB. (The bus's answer,
the place in the program and the turn are the model's record: log entries 1, 2.) -/
def Obligations.RefusedAccessChangesNothing : Prop :=
  ∀ (s : State) (a : HostAccess) (rest : List HostAccess),
    (s.schedule = [] ∨ ∃ turns, s.schedule = .host :: turns) → s.proc = .idle → s.waiting = false →
    s.program = a :: rest →
    (match a with
     | .regRead off n => n ≠ 4 ∨ off.toNat % 4 ≠ 0 ∨ 0x7C < off.toNat
     | .regWrite off n _ => n ≠ 4 ∨ off.toNat % 4 ≠ 0 ∨ 0x7C < off.toNat
     | .memRead x n => n ∉ [1, 2, 4] ∨ x.toNat % n ≠ 0 ∨ s.cfg.memSize < x.toNat + n
     | .memWrite x n _ => n ∉ [1, 2, 4] ∨ x.toNat % n ≠ 0 ∨ s.cfg.memSize < x.toNat + n) →
    step s = .next { s with program := rest, schedule := s.schedule.tail, reply := .refused }

/-- 20_memory.md R79, 45_host_bus.md R323, R325: a read that is performed returns the value and changes no state: of
MEM, the little-endian value of its bytes; any other read of MEM is refused. (The bus's answer is the model's record of
what the step returns: log entry 2.) -/
def Obligations.ReadsHaveNoSideEffect : Prop :=
  ∀ (s : State),
    (∀ off : Word, off.toNat % 4 = 0 → off.toNat ≤ 0x7C →
      busAccess (.regRead off 4) s = .next { s with reply := .value (s.readReg off.toNat) })
    ∧ ∀ (a : Word) (n : Nat),
      (n ∈ [1, 2, 4] → a.toNat % n = 0 → a.toNat + n ≤ s.cfg.memSize →
        busAccess (.memRead a n) s =
          .next { s with reply := .value (BitVec.ofNat 32 (leValue (memBytes s.mem a.toNat n))) })
      ∧ (¬ (n ∈ [1, 2, 4] ∧ a.toNat % n = 0 ∧ a.toNat + n ≤ s.cfg.memSize) →
        busAccess (.memRead a n) s = .next { s with reply := .refused })

/-- 45_host_bus.md R326, 20_memory.md R72: a MEM write that is performed puts bits `8j+7 : 8j` of the data at `a + j`,
leaves every other byte and everything else, and a read of the same width then returns the data modulo its width; any
other write of MEM is refused. (The bus's answer is the model's record: log entry 2.) -/
def Obligations.MemoryWriteIsLittleEndianAndReadsBack : Prop :=
  ∀ (s : State) (a : Word) (n : Nat) (v : Word),
    (n ∈ [1, 2, 4] → a.toNat % n = 0 → a.toNat + n ≤ s.cfg.memSize →
      ∃ m, busAccess (.memWrite a n v) s = .next { s with mem := m, reply := .written }
        ∧ (∀ j < n, memByte m (a.toNat + j) = v.extractLsb' (8 * j) 8)
        ∧ (∀ x : Nat, (x < a.toNat ∨ a.toNat + n ≤ x) → memByte m x = memByte s.mem x)
        ∧ leValue (memBytes m a.toNat n) = v.toNat % 2 ^ (8 * n))
    ∧ (¬ (n ∈ [1, 2, 4] ∧ a.toNat % n = 0 ∧ a.toNat + n ≤ s.cfg.memSize) →
        busAccess (.memWrite a n v) s = .next { s with reply := .refused })

/-- 10_state.md R55, 60_exceptions.md R341: the fields of STATUS, computed at the read and read-only, the error code by
its number, and their values at reset. (The bus's answer is the model's record: log entry 2.) -/
def Obligations.StatusShowsItsFields : Prop :=
  ∀ (s : State),
    (s.status.extractLsb' 0 4).toNat =
        (match s.regs.err with
         | .ok => 0
         | .opcode => 1
         | .arg => 2
         | .addr => 3
         | .state => 4
         | .dmaTimeout => 5)
    ∧ s.status.getLsbD 4 = s.cap.ntf
    ∧ s.status.getLsbD 5 = s.cap.dmaEn ∧ s.status.getLsbD 6 = s.ring.valid
    ∧ s.status.getLsbD 7 = (s.ring.valid && decide (s.ring.head = s.ring.tail))
    ∧ s.status.getLsbD 8 = s.cap.havePrev ∧ s.status.getLsbD 9 = s.cap.sig
    ∧ s.status.getLsbD 10 = decide (s.bq.count > 0) ∧ s.status.getLsbD 11 = s.dec.active
    ∧ s.status.getLsbD 12 = (s.cap.ntf && s.cap.irqEn) ∧ s.status.extractLsb' 13 19 = 0#19
    ∧ busAccess (.regRead 0x04#32 4) s = .next { s with reply := .value s.status }
    ∧ (∀ v : Word, busAccess (.regWrite 0x04#32 4 v) s = .next { s with reply := .written })
    ∧ ∀ cfg : Config, (State.resetWith cfg).status = (if cfg.sig0 then 1#32 else 0#32) <<< 9

/-- 10_state.md R53, for states within the invariants: every register of the block but STATUS. One that is packed from
fields shows every field whole, and 0 in the bits that no field takes; one that stands for one value shows it; CMD and
the offsets the table does not list read 0. -/
def Obligations.PackedRegistersShowTheirFields : Prop :=
  ∀ (s : State), s.Inv →
    ((s.readReg 0x1C).getLsbD 0 = s.cap.timEn ∧ (s.readReg 0x1C).getLsbD 1 = s.cap.irqEn
      ∧ (s.readReg 0x1C).extractLsb' 2 30 = 0#30)
    ∧ (((s.readReg 0x30).extractLsb' 0 16).toNat = s.cap.dmaIdx ∧ (s.readReg 0x30).getLsbD 16 = s.cap.dmaEn
      ∧ (s.readReg 0x30).getLsbD 17 = s.cap.havePrev ∧ (s.readReg 0x30).extractLsb' 18 14 = 0#14)
    ∧ (((s.readReg 0x38).extractLsb' 0 8).toNat = s.bq.count
      ∧ ((s.readReg 0x38).extractLsb' 8 8).toNat = s.bq.head
      ∧ ((s.readReg 0x38).extractLsb' 16 8).toNat = s.bq.tail
      ∧ ∀ k < 8, (s.readReg 0x38).getLsbD (24 + k) = s.bq.slots.getD k false)
    ∧ (((s.readReg 0x60).extractLsb' 0 8).toNat = s.dec.bitCnt
      ∧ ((s.readReg 0x60).extractLsb' 8 8).toNat = s.dec.eb.length
      ∧ ((s.readReg 0x60).extractLsb' 16 2).toNat =
          (match s.dec.proto with
           | .em4100 => 0
           | .em4100Over32 => 1
           | .em4100Over16 => 2
           | .h10301 => 3)
      ∧ (s.readReg 0x60).getLsbD 18 = s.dec.active ∧ (s.readReg 0x60).extractLsb' 19 13 = 0#13)
    ∧ (((s.readReg 0x64).extractLsb' 0 3).toNat = s.dec.winLen ∧ (s.readReg 0x64).extractLsb' 3 5 = 0#5
      ∧ (s.readReg 0x64).extractLsb' 8 6 = s.dec.winSym ∧ (s.readReg 0x64).extractLsb' 14 18 = 0#18)
    ∧ ((s.readReg 0x78).extractLsb' 0 8 = s.tag.uid0 ∧ (s.readReg 0x78).extractLsb' 8 8 = s.tag.uid1
      ∧ (s.readReg 0x78).extractLsb' 16 8 = s.tag.uid2 ∧ (s.readReg 0x78).extractLsb' 24 8 = s.tag.uid3)
    ∧ ((s.readReg 0x7C).extractLsb' 0 8 = s.tag.uid4 ∧ (s.readReg 0x7C).extractLsb' 8 8 = 0#8
      ∧ (s.readReg 0x7C).extractLsb' 16 16 = s.tag.bitrate)
    ∧ (s.readReg 0x08 = s.regs.arg0 ∧ s.readReg 0x0C = s.regs.arg1 ∧ s.readReg 0x10 = s.regs.arg2
      ∧ s.readReg 0x14 = s.regs.res0 ∧ s.readReg 0x18 = s.regs.res1)
    ∧ (s.readReg 0x20 = s.cap.cnt ∧ s.readReg 0x24 = s.cap.arr ∧ s.readReg 0x28 = s.cap.ccr
      ∧ s.readReg 0x2C = s.cap.dropCnt ∧ s.readReg 0x34 = s.cap.prevCap)
    ∧ (s.readReg 0x40 = s.ring.base ∧ s.readReg 0x44 = s.ring.cap ∧ s.readReg 0x48 = s.ring.esz
      ∧ s.readReg 0x4C = s.ring.head ∧ s.readReg 0x50 = s.ring.tail)
    ∧ ((s.readReg 0x68).extractLsb' 0 16 = s.dec.halfUs ∧ (s.readReg 0x68).extractLsb' 16 16 = 0#16
      ∧ s.readReg 0x6C = s.dec.fw0 ∧ s.readReg 0x70 = s.dec.fw1 ∧ s.readReg 0x74 = s.dec.fw2)
    ∧ ∀ off ∈ [0x00, 0x3C, 0x54, 0x58, 0x5C], s.readReg off = 0#32

/-! ### Reset -/

/-- 70_reset_and_hazards.md R381: after reset STATUS reads `SIG0 << 9`, ARR reads all ones, every other register 0. -/
def Obligations.ResetRegistersRead : Prop :=
  ∀ (cfg : Config), cfg.wellFormed = true →
    (State.resetWith cfg).readReg 0x04 = (if cfg.sig0 then 1#32 else 0#32) <<< 9
    ∧ (State.resetWith cfg).readReg 0x24 = BitVec.ofNat 32 (2 ^ cfg.cntWidth - 1)
    ∧ ∀ off : Nat, off ≠ 0x04 → off ≠ 0x24 → (State.resetWith cfg).readReg off = 0#32

/-- The invariant of the machine holds at reset, for every parameter set in range, whatever program and schedule the
machine is given (00_scope.md R8, 70_reset_and_hazards.md R381). -/
def Obligations.ResetMeetsTheInvariant : Prop :=
  ∀ (cfg : Config) (program : List HostAccess) (schedule : List Turn), cfg.wellFormed = true →
    (State.initial cfg program schedule).Inv

/-! ### The whole machine -/

/-- 10_state.md R37, R39, R44, R45, 40_ringbuffer.md R154, 70_reset_and_hazards.md R401: every step of every agent
keeps the invariant. -/
def Obligations.EveryStepKeepsTheInvariant : Prop :=
  ∀ (s t : State), s.Inv → step s = .next t → t.Inv

/-- 60_exceptions.md R340, R352, 70_reset_and_hazards.md R401, 93_implementation_defined.md U6: in a state within the
invariant no step faults or is refused. -/
def Obligations.NoStepStopsWithinTheInvariant : Prop := ∀ (s : State), s.Inv → s.safe

/-- 60_exceptions.md R340, R352, 70_reset_and_hazards.md R390: no run of the machine ever stops: from reset, for every
parameter set in range, every host program and every interleaving of the agents, every number of steps ends in a next
state, within the invariant. -/
def Obligations.NoRunEverStops : Prop :=
  ∀ (cfg : Config) (program : List HostAccess) (schedule : List Turn) (n : Nat), cfg.wellFormed = true →
    ∃ t : State, Host.Core.run Sys2Proof.core n (State.initial cfg program schedule) = .next t ∧ t.Inv

/-- 60_exceptions.md R342, R344, 45_host_bus.md R328: a command that has ended with a code other than OK and
`ERR_DMA_TIMEOUT` has changed nothing but the code and the results, which are 0. -/
def Obligations.FailedCommandChangesNothingElse : Prop :=
  ∀ (s t : State) (i : Instr), s.inFlight = false → exec i s = .next t → t.inFlight = false →
    t.regs.err ≠ .ok → t.regs.err ≠ .dmaTimeout → t = s.ended t.regs.err 0 0

/-- 10_state.md R20 to R47, 45_host_bus.md R328: what a command leaves unchanged, for every command at once: the
parameters, the argument registers, the environment; and each part of the state but for the commands that own it. -/
def Obligations.CommandsTouchOnlyTheirOwnState : Prop :=
  ∀ (s t : State) (i : Instr), exec i s = .next t →
    t.cfg = s.cfg ∧ t.program = s.program ∧ t.schedule = s.schedule ∧ t.reply = s.reply
    ∧ t.regs.arg0 = s.regs.arg0 ∧ t.regs.arg1 = s.regs.arg1 ∧ t.regs.arg2 = s.regs.arg2
    ∧ (i ∉ [.rbInit, .rbReset, .rbWrite, .rbInsert, .rbRead, .rbAdvanceRead] → t.ring = s.ring)
    ∧ (i ∉ [.rbWrite, .rbInsert, .rbRead, .decGetData] → t.mem = s.mem)
    ∧ (i ∉ [.rbInsert, .capStart, .capPause, .ntfTake, .ntfWait] → t.cap = s.cap)
    ∧ (i ∉ [.capStart, .capProcess] → t.bq = s.bq)
    ∧ (i ∉ [.capStart, .capPause] → t.draws = s.draws)
    ∧ (i ≠ .capProcess → t.proc = s.proc) ∧ (i ≠ .ntfWait → t.waiting = s.waiting)
    ∧ (mnemonicOf i ∉ ["DEC_BEGIN", "DEC_EXECUTE", "DEC_EVENT", "DEC_PARTIAL_RESET"] → t.dec = s.dec)
    ∧ (mnemonicOf i ∉ ["DEC_EXECUTE", "DEC_EVENT"] → t.tag = s.tag)

/-- 41_capture.md R198, 60_exceptions.md R346: the notification rises in one way only: an `Edge` step with the DMA
channel enabled that completes a block. -/
def Obligations.OnlyABlockEventRaisesTheNotification : Prop :=
  ∀ (s t : State), step s = .next t → s.cap.ntf = false → t.cap.ntf = true →
    (∃ turns, s.schedule = .signal :: turns) ∧ s.cap.dmaEn = true
    ∧ (s.cap.dmaIdx + 1 = s.cfg.blockLen ∨ s.cap.dmaIdx + 1 = 2 * s.cfg.blockLen)

/-- 10_state.md R47: a step changes the tag record only where it is the host's, no command is in flight, and it takes a
write to CMD that runs DEC_EXECUTE or DEC_EVENT, which succeeds with `RES[0] = 1`, frame found. -/
def Obligations.TagChangesOnlyWhenAFrameIsFound : Prop :=
  ∀ (s t : State), step s = .next t → t.tag ≠ s.tag →
    (s.schedule = [] ∨ ∃ turns, s.schedule = .host :: turns) ∧ s.proc = .idle ∧ s.waiting = false
    ∧ t.regs.err = .ok ∧ t.regs.res0 = 1#32
    ∧ ∃ (w : Word) (rest : List HostAccess) (i : Instr),
      s.program = commandAccess w :: rest ∧ t.program = rest ∧ decode w = .ok i
      ∧ mnemonicOf i ∈ ["DEC_EXECUTE", "DEC_EVENT"]
      ∧ mapNext State.settle (exec i { s with program := rest, schedule := s.schedule.tail }) = .next t

/-! ### NOP -/

/-- 45_host_bus.md R327, 30_encoding.md R109: NOP clears `ERR` and both results and changes nothing else. -/
def Obligations.NopClearsErrAndResults : Prop :=
  decode 0x00000000#32 = .ok .nop
  ∧ ∀ (s : State), exec .nop s = .next (s.ended .ok 0 0)

/-! ### The ring buffer -/

/-- 40_ringbuffer.md R144: RB_INIT checks its arguments, then the range, then sets the descriptor with both offsets 0;
MEM and everything else stay. -/
def Obligations.RbInitSetsTheDescriptor : Prop :=
  decode 0x00000010#32 = .ok .rbInit
  ∧ ∀ (s : State), exec .rbInit s = .next
    (if s.regs.arg1.toNat < 2 ∨ s.regs.arg2.toNat < 1
        ∨ s.regs.arg1.toNat * s.regs.arg2.toNat > 2 ^ 32 - 1 then s.ended .arg 0 0
     else if s.regs.arg0.toNat + s.regs.arg1.toNat * s.regs.arg2.toNat > s.cfg.memSize then
       s.ended .addr 0 0
     else
       { s.ended .ok 0 0 with
         ring :=
           { valid := true, base := s.regs.arg0, cap := s.regs.arg1, esz := s.regs.arg2, head := 0#32
             tail := 0#32 } })

/-- 40_ringbuffer.md R145: RB_RESET sets both offsets to 0 and leaves everything else; without a ring it fails with
`ERR_STATE`. -/
def Obligations.RbResetEmptiesTheRing : Prop :=
  decode 0x00000011#32 = .ok .rbReset
  ∧ ∀ (s : State), exec .rbReset s = .next
    (if s.ring.valid then { s.ended .ok 0 0 with ring := { s.ring with head := 0#32, tail := 0#32 } }
     else s.ended .state 0 0)

/-- 40_ringbuffer.md R142, R146, 20_memory.md R80: with `k = min(ARG[1], Free)` and the source range in MEM, RB_WRITE
stores `k * RB_ESZ` bytes from the head on, byte by byte, each source byte read just before it is stored; `RB_HEAD`
moves on with the wrap, `RES[0] = k`, and no other byte and nothing else changes. The failures: `ERR_STATE` without a
ring, else `ERR_ADDR` for a range outside MEM. -/
def Obligations.RbWriteCopiesByteByByte : Prop :=
  decode 0x00000012#32 = .ok .rbWrite
  ∧ ∀ (s : State) (k : Nat), k = min s.regs.arg1.toNat s.ring.free →
    (s.ring.valid = false → exec .rbWrite s = .next (s.ended .state 0 0))
    ∧ (s.ring.valid = true → s.regs.arg0.toNat + k * s.ring.esz.toNat > s.cfg.memSize →
        exec .rbWrite s = .next (s.ended .addr 0 0))
    ∧ (s.ring.valid = true → s.ring.Inv s.cfg.memSize →
        s.regs.arg0.toNat + k * s.ring.esz.toNat ≤ s.cfg.memSize →
        ∃ trace : Nat → Memory,
          trace 0 = s.mem
          ∧ (∀ j < k * s.ring.esz.toNat, ∀ x : Nat,
              memByte (trace (j + 1)) x =
                (if x = s.ring.base.toNat + (s.ring.head.toNat + j) % (s.ring.cap.toNat * s.ring.esz.toNat) then
                  memByte (trace j) (s.regs.arg0.toNat + j)
                 else memByte (trace j) x))
          ∧ exec .rbWrite s = .next
              { s.ended .ok (BitVec.ofNat 32 k) 0 with
                mem := trace (k * s.ring.esz.toNat)
                ring :=
                  { s.ring with
                    head :=
                      BitVec.ofNat 32
                        ((s.ring.head.toNat + k * s.ring.esz.toNat) % (s.ring.cap.toNat * s.ring.esz.toNat)) } })

/-- 40_ringbuffer.md R143, R148, 20_memory.md R80: with `k = min(ARG[1], Occ)` and the destination range in MEM,
RB_READ stores at the destination, byte by byte, the `k * RB_ESZ` bytes from the tail on, each ring byte read just
before it is stored; `RB_TAIL` moves on with the wrap, `RES[0] = k`, and no other byte and nothing else changes. The
failures: `ERR_STATE` without a ring, else `ERR_ADDR` for a range outside MEM. -/
def Obligations.RbReadCopiesByteByByte : Prop :=
  decode 0x00000014#32 = .ok .rbRead
  ∧ ∀ (s : State) (k : Nat), k = min s.regs.arg1.toNat s.ring.occ →
    (s.ring.valid = false → exec .rbRead s = .next (s.ended .state 0 0))
    ∧ (s.ring.valid = true → s.regs.arg0.toNat + k * s.ring.esz.toNat > s.cfg.memSize →
        exec .rbRead s = .next (s.ended .addr 0 0))
    ∧ (s.ring.valid = true → s.ring.Inv s.cfg.memSize →
        s.regs.arg0.toNat + k * s.ring.esz.toNat ≤ s.cfg.memSize →
        ∃ trace : Nat → Memory,
          trace 0 = s.mem
          ∧ (∀ j < k * s.ring.esz.toNat, ∀ x : Nat,
              memByte (trace (j + 1)) x =
                (if x = s.regs.arg0.toNat + j then
                  memByte (trace j)
                    (s.ring.base.toNat + (s.ring.tail.toNat + j) % (s.ring.cap.toNat * s.ring.esz.toNat))
                 else memByte (trace j) x))
          ∧ exec .rbRead s = .next
              { s.ended .ok (BitVec.ofNat 32 k) 0 with
                mem := trace (k * s.ring.esz.toNat)
                ring :=
                  { s.ring with
                    tail :=
                      BitVec.ofNat 32
                        ((s.ring.tail.toNat + k * s.ring.esz.toNat) % (s.ring.cap.toNat * s.ring.esz.toNat)) } })

/-- 40_ringbuffer.md R142, R147, 20_memory.md R80: RB_INSERT copies its element to the head, byte by byte, each source
byte read just before it is stored; on a full ring it first moves `RB_TAIL` on by exactly one element, counts the drop
and returns 1, else it leaves both and returns 0; `RB_HEAD` moves on with the wrap, and no other byte and nothing else
changes. The failures: `ERR_STATE` without a ring, else `ERR_ADDR` for a source outside MEM. -/
def Obligations.RbInsertStoresAndEvictsTheOldest : Prop :=
  decode 0x00000013#32 = .ok .rbInsert
  ∧ ∀ (s : State),
    (s.ring.valid = false → exec .rbInsert s = .next (s.ended .state 0 0))
    ∧ (s.ring.valid = true → s.regs.arg0.toNat + s.ring.esz.toNat > s.cfg.memSize →
        exec .rbInsert s = .next (s.ended .addr 0 0))
    ∧ (s.ring.valid = true → s.ring.Inv s.cfg.memSize →
        s.regs.arg0.toNat + s.ring.esz.toNat ≤ s.cfg.memSize →
        ∃ trace : Nat → Memory,
          trace 0 = s.mem
          ∧ (∀ j < s.ring.esz.toNat, ∀ x : Nat,
              memByte (trace (j + 1)) x =
                (if x = s.ring.base.toNat + (s.ring.head.toNat + j) % (s.ring.cap.toNat * s.ring.esz.toNat) then
                  memByte (trace j) (s.regs.arg0.toNat + j)
                 else memByte (trace j) x))
          ∧ exec .rbInsert s = .next
              { s.ended .ok (if s.ring.free = 0 then 1#32 else 0#32) 0 with
                mem := trace s.ring.esz.toNat
                ring :=
                  { s.ring with
                    head :=
                      BitVec.ofNat 32
                        ((s.ring.head.toNat + s.ring.esz.toNat) % (s.ring.cap.toNat * s.ring.esz.toNat))
                    tail :=
                      if s.ring.free = 0 then
                        BitVec.ofNat 32
                          ((s.ring.tail.toNat + s.ring.esz.toNat) % (s.ring.cap.toNat * s.ring.esz.toNat))
                      else s.ring.tail }
                cap :=
                  { s.cap with
                    dropCnt := if s.ring.free = 0 then s.cap.dropCnt + 1#32 else s.cap.dropCnt } })

/-- 40_ringbuffer.md R147: as a queue of bytes, the ring after RB_INSERT is the ring before, less its oldest element
where it was full, with the bytes now stored at the old head, the new element, at the end; and where the source shares
no byte with the slot written, the new element is the source element. -/
def Obligations.RbInsertIsDropOldestEnqueue : Prop :=
  ∀ (s : State), s.cfg.wellFormed = true → s.ring.Inv s.cfg.memSize → s.ring.valid = true →
    s.regs.arg0.toNat + s.ring.esz.toNat ≤ s.cfg.memSize →
    ∃ (t : State) (element : List Byte), exec .rbInsert s = .next t ∧ t.regs.err = .ok
      ∧ t.ringBytes = (if s.ring.free = 0 then s.ringBytes.drop s.ring.esz.toNat else s.ringBytes) ++ element
      ∧ element = (List.range s.ring.esz.toNat).map (fun j => memByte t.mem (s.ring.addr s.ring.head.toNat j))
      ∧ ((∀ j < s.ring.esz.toNat, ∀ k < s.ring.esz.toNat,
            s.regs.arg0.toNat + k ≠ s.ring.addr s.ring.head.toNat j) →
          element = memBytes s.mem s.regs.arg0.toNat s.ring.esz.toNat)

/-- 40_ringbuffer.md R149: RB_ADVANCE_READ discards the oldest `ARG[0]` elements: only `RB_TAIL` moves, and the ring
then holds the rest; more than are held is `ERR_ARG`, no ring `ERR_STATE`. -/
def Obligations.RbAdvanceReadDiscardsTheOldest : Prop :=
  decode 0x00000015#32 = .ok .rbAdvanceRead
  ∧ ∀ (s : State), s.cfg.wellFormed = true → s.ring.Inv s.cfg.memSize →
    ∃ t, exec .rbAdvanceRead s = .next t
      ∧ t = (if s.ring.valid = false then s.ended .state 0 0
             else if s.regs.arg0.toNat > s.ring.occ then s.ended .arg 0 0
             else
               { s.ended .ok 0 0 with
                 ring :=
                   { s.ring with
                     tail :=
                       BitVec.ofNat 32
                         ((s.ring.tail.toNat + s.regs.arg0.toNat * s.ring.esz.toNat) % s.ring.endIndex) } })
      ∧ (s.ring.valid = true → s.regs.arg0.toNat ≤ s.ring.occ →
          t.ringBytes = s.ringBytes.drop (s.regs.arg0.toNat * s.ring.esz.toNat))

/-- 40_ringbuffer.md R150, R151, R152: the three queries change no state but the results: the address of the tail; the
length of the contiguous run from it, at most `Occ` and equal to it exactly when the elements held do not wrap, all of
it at ascending addresses; whether the ring is empty. Without a ring each fails with `ERR_STATE`. -/
def Obligations.RbQueriesReturnTheContiguousRun : Prop :=
  (decode 0x00000016#32 = .ok .rbGetReadAddress ∧ decode 0x00000017#32 = .ok .rbGetReadLen
    ∧ decode 0x00000018#32 = .ok .rbCheckEmpty)
  ∧ ∀ (s : State), s.cfg.wellFormed = true → s.ring.Inv s.cfg.memSize →
    (s.ring.valid = false →
      exec .rbGetReadAddress s = .next (s.ended .state 0 0)
      ∧ exec .rbGetReadLen s = .next (s.ended .state 0 0)
      ∧ exec .rbCheckEmpty s = .next (s.ended .state 0 0))
    ∧ (s.ring.valid = true →
      ∃ addr len : Word,
        exec .rbGetReadAddress s = .next (s.ended .ok addr 0)
        ∧ exec .rbGetReadLen s = .next (s.ended .ok len 0)
        ∧ exec .rbCheckEmpty s = .next (s.ended .ok (if s.ring.head = s.ring.tail then 1#32 else 0#32) 0)
        ∧ addr.toNat = s.ring.base.toNat + s.ring.tail.toNat ∧ addr.toNat < s.cfg.memSize
        ∧ len.toNat * s.ring.esz.toNat =
            (if s.ring.head.toNat ≥ s.ring.tail.toNat then s.ring.head.toNat - s.ring.tail.toNat
             else s.ring.endIndex - s.ring.tail.toNat)
        ∧ len.toNat ≤ s.ring.occ
        ∧ (len.toNat = s.ring.occ ↔ s.ring.tail.toNat ≤ s.ring.head.toNat ∨ s.ring.head = 0#32)
        ∧ ∀ j < len.toNat * s.ring.esz.toNat, s.ring.addr s.ring.tail.toNat j = addr.toNat + j)

/-- 40_ringbuffer.md R153: FIFO: over any session of whole writes and of reads that touch the ring's storage only
through the ring, what the ring held at first and all that was offered, in order, is all that was delivered, in order,
and what the ring holds at last; so from an empty ring what was delivered is a prefix of what was offered. The ring's
invariants (10_state.md R39) are kept. -/
def Obligations.RingDeliversInFifoOrder : Prop :=
  ∀ (s t : State) (offered delivered : List Byte), s.cfg.wellFormed = true → s.ring.Inv s.cfg.memSize →
    s.ring.valid = true → RingSession s offered delivered t →
    s.ringBytes ++ offered = delivered ++ t.ringBytes ∧ t.ring.Inv t.cfg.memSize
    ∧ (s.ring.head = s.ring.tail → delivered <+: offered)

/-! ### Capture, queue, notification -/

/-- 41_capture.md R171: a TIMER turn advances `CNT`, or wraps it to 0 at `ARR` or above, where `TIM_EN = 1`, and touches
nothing else; and with `ARR` unchanged the counter has period `ARR + 1`. (That a turn is taken off a schedule, and that
a TIMER turn with `TIM_EN = 0` passes and changes nothing, is the model's choice: log entry 1.) -/
def Obligations.TickCountsModuloTheReload : Prop :=
  ∀ (s : State),
    (∀ turns, s.schedule = .timer :: turns → step s = .next
      { s with
        schedule := turns
        cap :=
          { s.cap with
            cnt :=
              if s.cap.timEn then
                if s.cap.cnt.toNat ≥ s.cap.arr.toNat then 0#32 else s.cap.cnt + 1#32
              else s.cap.cnt } })
    ∧ (s.cap.cnt.toNat ≤ s.cap.arr.toNat → tick^[s.cap.arr.toNat + 1] s = s)

/-- 41_capture.md R180, R181, R182: an `Edge` step toggles the pin and latches the counter; with the DMA enabled it
stores the capture at `DMA_IDX`, which moves on and wraps at `2 * BLOCK_LEN`, and at a block boundary pushes the block
index, or drops it and counts where the queue is full, and posts the notification; nothing else changes. (The turn taken
off the schedule is the model's: log entry 1.) -/
def Obligations.EdgeCapturesAndDeliversBlocks : Prop :=
  ∀ (s : State) (turns : List Turn), s.cfg.wellFormed = true → s.schedule = .signal :: turns →
    step s = .next
      (if s.cap.dmaEn = false then
        { s with schedule := turns, cap := { s.cap with sig := !s.cap.sig, ccr := s.cap.cnt } }
       else if s.cap.dmaIdx + 1 = s.cfg.blockLen ∨ s.cap.dmaIdx + 1 = 2 * s.cfg.blockLen then
        { s with
          schedule := turns
          cap :=
            { s.cap with
              sig := !s.cap.sig
              ccr := s.cap.cnt
              capbuf := s.cap.capbuf.set s.cap.dmaIdx (some s.cap.cnt)
              dmaIdx := if s.cap.dmaIdx + 1 = 2 * s.cfg.blockLen then 0 else s.cap.dmaIdx + 1
              dropCnt := if s.bq.count = s.cfg.bqDepth then s.cap.dropCnt + 1#32 else s.cap.dropCnt
              ntf := true }
          bq :=
            if s.bq.count = s.cfg.bqDepth then s.bq
            else
              { s.bq with
                slots := s.bq.slots.set s.bq.head (decide (s.cap.dmaIdx + 1 = 2 * s.cfg.blockLen))
                head := (s.bq.head + 1) % s.cfg.bqDepth
                count := s.bq.count + 1 } }
       else
        { s with
          schedule := turns
          cap :=
            { s.cap with
              sig := !s.cap.sig
              ccr := s.cap.cnt
              capbuf := s.cap.capbuf.set s.cap.dmaIdx (some s.cap.cnt)
              dmaIdx := s.cap.dmaIdx + 1 } })

/-- 41_capture.md R182, R183, 10_state.md R37: the block-index queue is first in, first out: a push on a queue that is
not full puts the block behind those held, a pop takes the oldest; a push on a full queue leaves it. -/
def Obligations.BlockQueueIsFirstInFirstOut : Prop :=
  ∀ (s : State) (b : Bool), s.bq.Inv s.cfg.bqDepth →
    (bqPush s b).bq.contents s.cfg.bqDepth =
      (if s.bq.count = s.cfg.bqDepth then s.bq.contents s.cfg.bqDepth
       else s.bq.contents s.cfg.bqDepth ++ [b])
    ∧ (bqPush s b).bq.Inv s.cfg.bqDepth
    ∧ (0 < s.bq.count → ∃ (x : Bool) (t : State), bqPop s = some (x, t) ∧ t.bq.Inv s.cfg.bqDepth
        ∧ s.bq.contents s.cfg.bqDepth = x :: t.bq.contents s.cfg.bqDepth)

/-- 41_capture.md R186, 45_host_bus.md R332: the pulse width is the mathematical remainder of the difference modulo
`ARR + 1`, clamped to 16 bits. -/
def Obligations.PulseWidthIsTheClampedRemainder : Prop :=
  ∀ (cur prev arr : Word),
    (pulseWidth cur prev arr : Int) = min (((cur.toNat : Int) - prev.toNat) % ((arr.toNat : Int) + 1)) 65535

/-- 41_capture.md R184: the micro-step START of CAP_PROCESS: `ERR_STATE` unless there is a ring of 2-byte elements; the
end at once, with both results 0, where the queue is empty; else the oldest block is popped and the command is in
flight. -/
def Obligations.CapProcessStartPopsOrEnds : Prop :=
  decode 0x00000022#32 = .ok .capProcess
  ∧ ∀ (s : State), s.proc = .idle →
    (s.ring.valid = false ∨ s.ring.esz ≠ 2#32 → exec .capProcess s = .next (s.ended .state 0 0))
    ∧ (s.ring.valid = true → s.ring.esz = 2#32 → s.bq.count = 0 →
        exec .capProcess s = .next (s.ended .ok 0 0))
    ∧ (∀ b : Bool, s.ring.valid = true → s.ring.esz = 2#32 → s.bq.count ≠ 0 →
        s.bq.slots[s.bq.tail]? = some b →
        exec .capProcess s = .next
          { s with
            bq := { s.bq with tail := (s.bq.tail + 1) % s.cfg.bqDepth, count := s.bq.count - 1 }
            proc := .inblock b 0 1 0 })

/-- 41_capture.md R184 to R188: the micro-step ELEM, on any turn of the host's: with no previous capture it only records
the value; with one it appends the pulse width, low byte first, to the ring, whose head moves on by one element, and
whose tail too where it was full, the element lost being counted; then comes the next slot, or at the end of the block
the next block, or the end of the command with its two counts. No byte of MEM but the two at the ring's head changes,
and nothing else. (The turn taken off the schedule and the bus's answer are the model's record: log entries 1, 2.) -/
def Obligations.CapProcessElementAppendsTheWidth : Prop :=
  ∀ (s : State) (b : Bool) (i nb nw nw' : Nat) (cur : Word), s.Inv →
    (s.schedule = [] ∨ ∃ turns, s.schedule = .host :: turns) →
    s.proc = .inblock b i nb nw →
    s.cap.capbuf[b.toNat * s.cfg.blockLen + i]? = some (some cur) →
    nw' = (if s.cap.havePrev then nw + 1 else nw) →
    ∃ t : State, step s = .next t
      ∧ t = { s with mem := t.mem, ring := t.ring, cap := t.cap, bq := t.bq, proc := t.proc, regs := t.regs
                     reply := t.reply, schedule := s.schedule.tail }
      ∧ t.cap =
          { s.cap with
            prevCap := cur
            havePrev := true
            dropCnt :=
              if s.cap.havePrev = true ∧ s.ring.free = 0 then s.cap.dropCnt + 1#32 else s.cap.dropCnt }
      ∧ t.ring =
          (if s.cap.havePrev then
            { s.ring with
              head := BitVec.ofNat 32 ((s.ring.head.toNat + 2) % s.ring.endIndex)
              tail :=
                if s.ring.free = 0 then BitVec.ofNat 32 ((s.ring.tail.toNat + 2) % s.ring.endIndex)
                else s.ring.tail }
           else s.ring)
      ∧ t.ringBytes =
          (if s.cap.havePrev then
            (if s.ring.free = 0 then s.ringBytes.drop 2 else s.ringBytes)
            ++ leBytes 2 (pulseWidth cur s.cap.prevCap s.cap.arr)
           else s.ringBytes)
      ∧ (∀ x : Nat,
          (s.cap.havePrev = true →
            x ≠ s.ring.addr s.ring.head.toNat 0 ∧ x ≠ s.ring.addr s.ring.head.toNat 1) →
          memByte t.mem x = memByte s.mem x)
      ∧ (i + 1 < s.cfg.blockLen →
          t.proc = .inblock b (i + 1) nb nw' ∧ t.bq = s.bq ∧ t.regs = s.regs ∧ t.reply = .held)
      ∧ (i + 1 = s.cfg.blockLen → s.bq.count = 0 →
          t.proc = .idle ∧ t.bq = s.bq ∧ t.reply = .written
          ∧ t.regs =
              { s.regs with err := .ok, res0 := BitVec.ofNat 32 nb, res1 := BitVec.ofNat 32 nw' })
      ∧ (i + 1 = s.cfg.blockLen → 0 < s.bq.count →
          ∃ b' : Bool, s.bq.contents s.cfg.bqDepth = b' :: t.bq.contents s.cfg.bqDepth
            ∧ t.bq = { s.bq with tail := (s.bq.tail + 1) % s.cfg.bqDepth, count := s.bq.count - 1 }
            ∧ t.proc = .inblock b' 0 (nb + 1) nw' ∧ t.regs = s.regs ∧ t.reply = .held)

/-- 41_capture.md R184, 60_exceptions.md R357, R358: CAP_PROCESS ends: from a good state with a ring of 2-byte elements,
and with no turn of another agent, a CAP_PROCESS that finds `n` blocks queued ends after its START and
`n * BLOCK_LEN` elements, with the queue empty, `RES[0] = n` and `RES[1]` the values consumed less the first of a
session. -/
def Obligations.CapProcessEndsWhenNothingArrives : Prop :=
  ∀ (s : State) (rest : List HostAccess), s.Inv → s.hostFree → s.ring.valid = true → s.ring.esz = 2#32 →
    s.program = commandAccess 0x00000022#32 :: rest →
    ∃ t : State, Host.Core.run Sys2Proof.core (1 + s.bq.count * s.cfg.blockLen) s = .next t
      ∧ t.proc = .idle ∧ t.bq.count = 0 ∧ t.regs.err = .ok ∧ t.regs.res0 = BitVec.ofNat 32 s.bq.count
      ∧ t.regs.res1 =
          BitVec.ofNat 32
            (if s.cap.havePrev then s.bq.count * s.cfg.blockLen else s.bq.count * s.cfg.blockLen - 1)
      ∧ t.program = rest

/-- 41_capture.md R192, R193, R194: CAP_START: for either outcome of the draw a restart of an enabled channel makes, the
time-out keeps the capture going with `HAVE_PREV = 0` and `DROP_CNT = 1`; otherwise the queue is emptied, the
notification cleared and the channel armed at slot 0. Nothing else changes. (The counter of draws is the model's: log
entry 6.) -/
def Obligations.CapStartArmsOrTimesOut : Prop :=
  decode 0x00000020#32 = .ok .capStart
  ∧ ∀ (s : State), exec .capStart s = .next
    (if s.cap.dmaEn = true ∧ Config.dmaDisableOk s.draws = false then
      { s.ended .dmaTimeout 0 0 with
        cap := { s.cap with havePrev := false, dropCnt := 1#32 }
        draws := s.draws + 1 }
     else
      { s.ended .ok 1 0 with
        bq := { s.bq with head := 0, tail := 0, count := 0 }
        cap :=
          { s.cap with havePrev := false, dropCnt := 0#32, ntf := false, dmaIdx := 0, dmaEn := true }
        draws := if s.cap.dmaEn then s.draws + 1 else s.draws })

/-- 41_capture.md R192, R193, R195, R196: CAP_PAUSE: for either outcome of the draw, a time-out counts a drop and leaves
the channel enabled; otherwise the channel is off and `RES[0] = 1`. Nothing in flight is lost: nothing else changes. (The
counter of draws is the model's: log entry 6.) -/
def Obligations.CapPauseKeepsWhatIsInFlight : Prop :=
  decode 0x00000021#32 = .ok .capPause
  ∧ ∀ (s : State), exec .capPause s = .next
    (if s.cap.dmaEn = true ∧ Config.dmaDisableOk s.draws = false then
      { s.ended .dmaTimeout 0 0 with
        cap := { s.cap with dropCnt := s.cap.dropCnt + 1#32 }
        draws := s.draws + 1 }
     else
      { s.ended .ok 1 0 with
        cap := { s.cap with dmaEn := false }
        draws := if s.cap.dmaEn then s.draws + 1 else s.draws })

/-- 41_capture.md R197, R198: NTF_TAKE returns the flag and clears it; NTF_WAIT with `NTF = 1` ends at once with
`RES[0] = 1` and the flag cleared, and with `NTF = 0` it is in flight, nothing else changed. (That the write of NTF_WAIT and its end with `NTF = 1` are one step, and
that an NTF_WAIT in flight is the field `waiting`, is the model's reading: log entry 4.) -/
def Obligations.NotificationIsTakenOrAwaited : Prop :=
  (decode 0x00000023#32 = .ok .ntfTake ∧ decode 0x00000024#32 = .ok .ntfWait)
  ∧ ∀ (s : State), s.waiting = false →
    exec .ntfTake s = .next
      { s.ended .ok (if s.cap.ntf then 1#32 else 0#32) 0 with cap := { s.cap with ntf := false } }
    ∧ (s.cap.ntf = true →
        exec .ntfWait s = .next { s.ended .ok 1 0 with cap := { s.cap with ntf := false } })
    ∧ (s.cap.ntf = false → exec .ntfWait s = .next { s with waiting := true })

/-- 41_capture.md R198, 60_exceptions.md R356: while NTF_WAIT is in flight a turn of the host does nothing where
`NTF = 0`, and where `NTF = 1` ends the command. (The turn and the field `waiting` are the model's: log entries 1, 4.) -/
def Obligations.NtfWaitHoldsUntilTheNotification : Prop :=
  ∀ (s : State) (turns : List Turn), s.schedule = .host :: turns → s.proc = .idle → s.waiting = true →
    step s = .next
      (if s.cap.ntf then
        { s.ended .ok 1 0 with
          schedule := turns, waiting := false, cap := { s.cap with ntf := false }, reply := .written }
       else { s with schedule := turns })

/-! ### The decoder port -/

/-- 42_decoder_port.md R225, R227, 30_encoding.md R103: DEC_BEGIN of a protocol number 0 to 3 selects the protocol, loads
its half-bit period, clears all partial state and makes the decoder active; the tag record and everything else stay. A
number above 3 fails with `ERR_ARG`. -/
def Obligations.DecBeginSelectsTheProtocol : Prop :=
  (∀ imm : Half, decode (imm ++ 0x00#8 ++ 0x30#8) = .ok (.decBegin imm))
  ∧ ∀ (s : State) (imm : Half),
    (3 < imm.toNat → exec (.decBegin imm) s = .next (s.ended .arg 0 0))
    ∧ ∀ p : Proto, imm.toNat = p.code → exec (.decBegin imm) s = .next
        { s.ended .ok 0 0 with
          dec :=
            { active := true, proto := p
              halfUs :=
                match p with
                | .em4100 => BitVec.ofNat 16 s.cfg.emHalfUs0
                | .em4100Over32 => BitVec.ofNat 16 s.cfg.emHalfUs1
                | .em4100Over16 => BitVec.ofNat 16 s.cfg.emHalfUs2
                | .h10301 => 0#16
              fw0 := 0#32, fw1 := 0#32, fw2 := 0#32, bitCnt := 0, eb := [], winLen := 0, winSym := 0#6 } }

/-- 42_decoder_port.md R226, R228: DEC_PARTIAL_RESET clears the bit count, the pending edges and the window length and
keeps the frame buffer, the timing and everything else; before any DEC_BEGIN it fails with `ERR_STATE`. -/
def Obligations.DecPartialResetKeepsTheFrame : Prop :=
  decode 0x00000034#32 = .ok .decPartialReset
  ∧ ∀ (s : State), exec .decPartialReset s = .next
    (if s.dec.active then { s.ended .ok 0 0 with dec := { s.dec with bitCnt := 0, eb := [], winLen := 0 } }
     else s.ended .state 0 0)

/-- 42_decoder_port.md R223, R229, R230, R232: DEC_EXECUTE, after its checks in the order state, argument, address, runs
one pass over the event records in MEM, and DEC_EVENT one over the event of its word; the decoder is what the pass
leaves, `RES[0]` says whether it found a frame, the tag record is written only then, and nothing else changes. -/
def Obligations.DecExecuteAndDecEventRunOnePass : Prop :=
  (decode 0x00000031#32 = .ok .decExecute
    ∧ ∀ (dur : Half) (lvl : Bool),
      decode (dur ++ 0#7 ++ BitVec.ofBool lvl ++ 0x32#8) = .ok (.decEvent dur lvl))
  ∧ ∀ (s : State) (events : List EdgeEvent) (dur : Half) (lvl : Bool),
    events = (List.range s.regs.arg1.toNat).map (fun k =>
      ⟨memByte s.mem (s.regs.arg0.toNat + 4 * k + 1) ++ memByte s.mem (s.regs.arg0.toNat + 4 * k),
       (memByte s.mem (s.regs.arg0.toNat + 4 * k + 2)).getLsbD 0⟩) →
    exec .decExecute s = .next
      (if s.dec.active = false then s.ended .state 0 0
       else if s.regs.arg1.toNat > s.cfg.frameChunkSize then s.ended .arg 0 0
       else if s.regs.arg0.toNat + 4 * s.regs.arg1.toNat > s.cfg.memSize then s.ended .addr 0 0
       else
        { s.ended .ok (if (decExecutePass s.cfg s.dec events).2.isSome then 1#32 else 0#32) 0 with
          dec := (decExecutePass s.cfg s.dec events).1
          tag := (decExecutePass s.cfg s.dec events).2.getD s.tag })
    ∧ exec (.decEvent dur lvl) s = .next
      (if s.dec.active = false then s.ended .state 0 0
       else
        { s.ended .ok (if (decExecutePass s.cfg s.dec [⟨dur, lvl⟩]).2.isSome then 1#32 else 0#32) 0 with
          dec := (decExecutePass s.cfg s.dec [⟨dur, lvl⟩]).1
          tag := (decExecutePass s.cfg s.dec [⟨dur, lvl⟩]).2.getD s.tag })

/-- 42_decoder_port.md R231: DEC_GET_DATA writes the five UID bytes, a zero byte and the bitrate, low byte first, at the
destination, and changes no other byte and nothing else; a range outside MEM fails with `ERR_ADDR`. -/
def Obligations.DecGetDataWritesTheRecord : Prop :=
  decode 0x00000033#32 = .ok .decGetData
  ∧ ∀ (s : State),
    (s.regs.arg0.toNat + 8 > s.cfg.memSize → exec .decGetData s = .next (s.ended .addr 0 0))
    ∧ (s.regs.arg0.toNat + 8 ≤ s.cfg.memSize →
      ∃ m : Memory, exec .decGetData s = .next { s.ended .ok 0 0 with mem := m }
        ∧ memBytes m s.regs.arg0.toNat 8 =
            [s.tag.uid0, s.tag.uid1, s.tag.uid2, s.tag.uid3, s.tag.uid4, 0#8,
             s.tag.bitrate.extractLsb' 0 8, s.tag.bitrate.extractLsb' 8 8]
        ∧ ∀ x : Nat, (x < s.regs.arg0.toNat ∨ s.regs.arg0.toNat + 8 ≤ x) →
            memByte m x = memByte s.mem x)

/-- 42_decoder_port.md R224, 44_h10301.md R296: `ShiftIn` in frame bit positions: every bit moves one position toward the
oldest, the new bit is the newest, and the count saturates at `FRAME_BITS`. -/
def Obligations.ShiftInMovesTheFrameOneBit : Prop :=
  ∀ (d : Decoder) (b : Bool),
    (∀ p < 64, (d.shiftIn64 b).frame64.getMsbD p = if p = 63 then b else d.frame64.getMsbD (p + 1))
    ∧ (∀ p < 96, (d.shiftIn96 b).frame96.getMsbD p = if p = 95 then b else d.frame96.getMsbD (p + 1))
    ∧ (d.shiftIn64 b).bitCnt = min (d.bitCnt + 1) 64 ∧ (d.shiftIn96 b).bitCnt = min (d.bitCnt + 1) 96
    ∧ (d.shiftIn64 b).fw2 = d.fw2

/-- 42_decoder_port.md R234, 43_em4100.md R256, R260, R263, R274, 44_h10301.md R297, R299, R307: no edge twice, none lost.
Where the entries, pending then appended, fit the edge buffer, a pass takes from the oldest on whole pairs, each of
which gives a bit or a symbol, and ends in one of three ways: fewer than two entries remain, all of which stay; the next
pair is invalid, and only its first entry goes; the last pair taken completes a frame, and all that remain stay. What
stays is in the edge buffer in its order. Where the entries do not fit, the pass makes the full reset and finds no
frame. -/
def Obligations.PassConservesTheEdges : Prop :=
  ∀ (cfg : Config) (d : Decoder) (ev entries : List EdgeEvent), d.eb.length ≤ cfg.edgeBufLen →
    entries = d.eb ++ (if d.proto = .h10301 then ev else ev.flatMap (emNormalise cfg d.halfUs)) →
    (entries.length ≤ cfg.edgeBufLen →
      ∃ (pairs : List TakenPair) (rest : List EdgeEvent) (e : Decoder),
        entries = pairs.flatMap (fun p => [p.first, p.second]) ++ rest
        ∧ (∀ p ∈ pairs, d.pairClass cfg p.first p.second = .bit p.bit)
        ∧ ((rest.length < 2 ∧ d.takePairs cfg (pairs.map TakenPair.bit) = some e
              ∧ decExecutePass cfg d ev = ({ e with eb := rest }, none))
          ∨ (∃ (a b : EdgeEvent) (more : List EdgeEvent),
              rest = a :: b :: more ∧ d.pairClass cfg a b = .invalid
              ∧ d.takePairs cfg (pairs.map TakenPair.bit) = some e
              ∧ decExecutePass cfg d ev =
                  ({ e with bitCnt := 0, winLen := if d.proto = .h10301 then 0 else e.winLen, eb := b :: more },
                   none))
          ∨ (∃ (before : List TakenPair) (p : TakenPair) (f : Decoder) (tag : Tag),
              pairs = before ++ [p] ∧ d.takePairs cfg (before.map TakenPair.bit) = some e
              ∧ e.takePair cfg p.bit = (f, some tag)
              ∧ decExecutePass cfg d ev = ({ f with eb := rest }, some tag))))
    ∧ (cfg.edgeBufLen < entries.length →
      decExecutePass cfg d ev =
        ({ d with fw0 := 0#32, fw1 := 0#32, fw2 := 0#32, bitCnt := 0, eb := [], winLen := 0, winSym := 0#6 },
         none))

/-- 43_em4100.md R261, 44_h10301.md R298: an invalid pair at the head clears the bit count (and the H10301 window), drops
its first entry, keeps the rest for the next pass, keeps the frame buffer and finds no frame. -/
def Obligations.InvalidPairDropsOneEntry : Prop :=
  ∀ (cfg : Config) (d : Decoder) (a b : EdgeEvent) (rest : List EdgeEvent),
    (emClassify cfg d.halfUs a b = .invalid →
      emPass cfg d (a :: b :: rest) = ({ d with bitCnt := 0, eb := b :: rest }, none))
    ∧ (h10Symbol cfg a b = .invalid →
      h10Pass cfg d (a :: b :: rest) = ({ d with bitCnt := 0, winLen := 0, eb := b :: rest }, none))
    ∧ (a.level = b.level → emClassify cfg d.halfUs a b = .invalid ∧ h10Symbol cfg a b = .invalid)

/-! ### EM4100 -/

/-- 43_em4100.md R253, R258: for every tolerance in range no duration is both a half-bit and a full-bit, and with
`EM_TOL_PAIR_PCT ≥ EM_TOL_HALF_PCT` the combined check never rejects a pair both of whose halves pass. -/
def Obligations.EmWindowsAreDisjoint : Prop :=
  ∀ (cfg : Config) (h a b : Nat), cfg.wellFormed = true → 0 < h →
    ¬ (inHalf cfg h a = true ∧ inFull cfg h a = true)
    ∧ (cfg.emTolHalfPct ≤ cfg.emTolPairPct → inHalf cfg h a = true → inHalf cfg h b = true →
        inPair cfg h (a + b) = true)

/-- 43_em4100.md R254, R257: a pair whose halves are each within 25% of the half-bit period and whose levels differ is
the bit its levels say; a half shortened by 60% or more makes its pair invalid. -/
def Obligations.EmClassifiesWithinTwentyFivePerCent : Prop :=
  ∀ (cfg : Config) (h : Half) (a b : EdgeEvent), cfg.wellFormed = true →
    cfg.emTolHalfPct ≤ cfg.emTolPairPct → 0 < h.toNat →
    (4 * absDiff a.dur.toNat h.toNat ≤ h.toNat → 4 * absDiff b.dur.toNat h.toNat ≤ h.toNat →
      a.level ≠ b.level → emClassify cfg h a b = .bit b.level)
    ∧ (10 * a.dur.toNat ≤ 4 * h.toNat ∨ 10 * b.dur.toNat ≤ 4 * h.toNat → emClassify cfg h a b = .invalid)

/-- 43_em4100.md R275: a valid frame with any one of its 64 bits inverted is not valid. -/
def Obligations.EmParityRejectsAnySingleBitFlip : Prop :=
  ∀ (v : BitVec 64) (p : Nat), p < 64 → emValid v = true → emValid (v ^^^ (1#64 <<< (63 - p))) = false

/-- 43_em4100.md R270 to R273, R279: `EmValid` holds of every `EmPack(uid)`, and the tag record extracted from it is the
UID with the bitrate `H / 4`. -/
def Obligations.EmPackRoundTrips : Prop :=
  ∀ (u0 u1 u2 u3 u4 : Byte) (h : Half),
    emValid (emPack [u0, u1, u2, u3, u4]) = true
    ∧ emTag (emPack [u0, u1, u2, u3, u4]) h =
        { uid0 := u0, uid1 := u1, uid2 := u2, uid3 := u3, uid4 := u4
          bitrate := BitVec.ofNat 16 (h.toNat / 4) }

/-- 43_em4100.md R280, R281: the round trip, one event a pass: after the full reset of DEC_BEGIN, the wave of a tag's
frame at the nominal half-bit period, after a LOW idle of three half-bits or more and before one more LOW half-bit, makes
the decoder find the frame, with the tag's UID, for every parameter set in range. (R281 speaks of batches of any sizes;
for some parameters in range that is not so: NOTES.md.) -/
def Obligations.EmDecodesTheWaveOfATag : Prop :=
  ∀ (cfg : Config) (d : Decoder) (u0 u1 u2 u3 u4 : Byte) (idle : Nat), cfg.wellFormed = true →
    d.proto ≠ .h10301 → d.halfUs.toNat = protoHalfUs cfg d.proto → d.bitCnt = 0 → d.eb = [] →
    3 * d.halfUs.toNat ≤ idle → idle < 65536 →
    (feedBatches cfg d
      ((waveToEvents
        ([(false, idle)] ++ emWave (emPackBits [u0, u1, u2, u3, u4]) d.halfUs.toNat
          ++ [(false, d.halfUs.toNat)])).map fun e => [e])).2 =
      some
        { uid0 := u0, uid1 := u1, uid2 := u2, uid3 := u3, uid4 := u4
          bitrate := BitVec.ofNat 16 (d.halfUs.toNat / 4) }

/-! ### H10301 -/

/-- 44_h10301.md R293: bit 1 is declared exactly when at least four of the last five symbols are "one", bit 0 exactly
when at least five of six are "zero"; never both. -/
def Obligations.H10WindowDeclaresFourOfFiveOrFiveOfSix : Prop :=
  ∀ (cfg : Config) (d : Decoder), cfg.wellFormed = true → d.winLen ≤ 6 →
    (d.winDetect cfg = some true ↔ 5 ≤ d.winLen ∧ 4 ≤ symCount d.winSym (d.winLen - 5) 5 true)
    ∧ (d.winDetect cfg = some false ↔ d.winLen = 6 ∧ 5 ≤ symCount d.winSym 0 6 false)

/-- 44_h10301.md R301, R302, R309: a valid frame with any one of its 96 bits inverted is not valid, and with both
Manchester bits of one pair inverted it is not valid either. -/
def Obligations.H10ParityRejectsAnySingleBitFlip : Prop :=
  ∀ (cfg : Config) (v : BitVec 96), h10Valid cfg v = true →
    (∀ p < 96, h10Valid cfg (v ^^^ (1#96 <<< (95 - p))) = false)
    ∧ ∀ j < 26, h10Valid cfg (v ^^^ (3#96 <<< (50 - 2 * j))) = false

/-- 44_h10301.md R303, R308, R310, R311: `H10Valid` holds of every `H10Pack(fc, card)`, whatever the three fixed fields
are, and the tag record is the facility code and the card number. -/
def Obligations.H10PackRoundTrips : Prop :=
  ∀ (cfg : Config) (fc : BitVec 8) (card : BitVec 16),
    h10Valid cfg (h10Pack cfg fc card) = true
    ∧ h10Tag (h10Pack cfg fc card) =
        { uid0 := fc, uid1 := card.extractLsb' 8 8, uid2 := card.extractLsb' 0 8, uid3 := 0#8, uid4 := 0#8
          bitrate := 0#16 }

/-- 44_h10301.md R309, R312: the round trip: after the full reset of DEC_BEGIN, the wave of a frame, for tone periods that
are even, in batches of any sizes from 1 to `FRAME_CHUNK_SIZE`, makes the decoder find the frame, with its facility code
and card number. -/
def Obligations.H10DecodesTheWaveOfATag : Prop :=
  ∀ (cfg : Config) (d : Decoder) (fc : BitVec 8) (card : BitVec 16) (batches : List (List EdgeEvent)),
    cfg.wellFormed = true → cfg.h10PeriodZeroUs % 2 = 0 → cfg.h10PeriodOneUs % 2 = 0 →
    d.proto = .h10301 → d.bitCnt = 0 → d.eb = [] → d.winLen = 0 →
    batches.flatten = fskWave cfg ((List.range 96).map fun p => (h10Pack cfg fc card).getMsbD p) →
    (∀ b ∈ batches, 1 ≤ b.length ∧ b.length ≤ cfg.frameChunkSize) →
    (feedBatches cfg d batches).2 =
      some
        { uid0 := fc, uid1 := card.extractLsb' 8 8, uid2 := card.extractLsb' 0 8, uid3 := 0#8, uid4 := 0#8
          bitrate := 0#16 }

/-! ### The host's bus accesses, as steps -/

/-- 45_host_bus.md R321 to R326, 60_exceptions.md R356: where the next turn is the host's and no command is in flight, the
step is the next bus access of the host's program, made in the state it finds, with the access taken off the program and
the turn off the schedule; at the end of the program it does nothing but take the turn. (Program, schedule and the bus's
answer are the model's record: log entries 1, 2.) -/
def Obligations.StepPerformsTheNextAccess : Prop :=
  ∀ (s : State), (s.schedule = [] ∨ ∃ turns, s.schedule = .host :: turns) → s.proc = .idle → s.waiting = false →
    (∀ (a : HostAccess) (rest : List HostAccess), s.program = a :: rest →
      step s = busAccess a { s with program := rest, schedule := s.schedule.tail })
    ∧ (s.program = [] → step s = .next { s with schedule := s.schedule.tail })
end

