-- ==== Sys2Proof/Laws/Memory.lean ====
section
/-! SUPPORT. What the operations over MEM do: read after write, the canonical form, and for each loop what it answers
and what it leaves. -/

namespace Sys2Proof.Machine

/-! ### One byte -/

@[simp] theorem memGet?_memSet (m : Memory) (a x : Nat) (b : Byte) :
    memGet? (memSet m a b) x = if x = a then some b else memGet? m x := by
  induction m with
  | nil => simp [memSet, memGet?]
  | cons p rest ih =>
    obtain ⟨k, v⟩ := p
    simp only [memSet]
    split
    · simp [memGet?]
    · split
      · subst_vars; simp only [memGet?]; split <;> rfl
      · simp only [memGet?, ih]; split <;> split <;> simp_all

/-- Read after write: the byte written, and every other byte as it was. -/
@[simp] theorem memByte_memSet (m : Memory) (a x : Nat) (b : Byte) :
    memByte (memSet m a b) x = if x = a then b else memByte m x := by
  simp only [memByte, memGet?_memSet]; split <;> rfl

/-- The addresses of a memory after a write: the one written, and those of before. -/
theorem mem_memSet {m : Memory} {a : Nat} {b : Byte} {p : Host.Cell} (h : p ∈ memSet m a b) :
    p.1 = a ∨ p ∈ m := by
  induction m with
  | nil => simp only [memSet, List.mem_singleton] at h; simp [h]
  | cons q rest ih =>
    obtain ⟨k, v⟩ := q
    simp only [memSet] at h
    split at h
    · simp only [List.mem_cons] at h ⊢; rcases h with rfl | h | h <;> simp_all
    · split at h
      · simp only [List.mem_cons] at h ⊢; rcases h with rfl | h <;> simp_all
      · simp only [List.mem_cons] at h ⊢
        rcases h with rfl | h
        · simp
        · rcases ih h with h | h <;> simp [h]

/-- A write inside MEM keeps the canonical form. -/
theorem Memory.wf_memSet {size a : Nat} {m : Memory} {b : Byte} (h : Memory.wf size m) (ha : a < size) :
    Memory.wf size (memSet m a b) := by
  constructor
  · have hp := h.1
    clear h
    induction m with
    | nil => simp [memSet]
    | cons q rest ih =>
      obtain ⟨k, v⟩ := q
      rw [List.pairwise_cons] at hp
      simp only [memSet]
      split
      · refine List.pairwise_cons.2 ⟨fun p hp' => ?_, List.pairwise_cons.2 hp⟩
        rcases List.mem_cons.1 hp' with rfl | hp'
        · assumption
        · have := hp.1 p hp'; simp only at this ⊢; omega
      · split
        · subst_vars; exact List.pairwise_cons.2 hp
        · refine List.pairwise_cons.2 ⟨fun p hp' => ?_, ih hp.2⟩
          rcases mem_memSet hp' with h | h
          · simp only; omega
          · exact hp.1 p h
  · intro p hp
    rcases mem_memSet hp with h' | h'
    · omega
    · exact h.2 p h'

/-- The memory at reset has the canonical form. -/
theorem Memory.wf_reset (cfg : Config) : Memory.wf cfg.memSize (State.resetWith cfg).mem := by
  constructor <;> simp [State.resetWith]

theorem memGet?_eq_none_of_lt {m : Memory} {a : Nat} (h : ∀ p ∈ m, a < p.1) : memGet? m a = none := by
  induction m with
  | nil => rfl
  | cons q rest ih =>
    obtain ⟨k, v⟩ := q
    have hk := h (k, v) (by simp)
    simp only at hk
    simp only [memGet?]
    rw [if_neg (by omega)]
    exact ih fun p hp => h p (by simp [hp])

/-- Equal contents are equal data: two memories in canonical form that list the same bytes are one list. -/
theorem Memory.eq_of_memGet? {size : Nat} {m m' : Memory} (h : Memory.wf size m) (h' : Memory.wf size m')
    (he : ∀ a, memGet? m a = memGet? m' a) : m = m' := by
  have hp := h.1
  have hp' := h'.1
  clear h h'
  induction m generalizing m' with
  | nil =>
    cases m' with
    | nil => rfl
    | cons q _ => have := he q.1; simp [memGet?] at this
  | cons q rest ih =>
    obtain ⟨k, v⟩ := q
    rw [List.pairwise_cons] at hp
    cases m' with
    | nil => have := he k; simp [memGet?] at this
    | cons q' rest' =>
      obtain ⟨k', v'⟩ := q'
      rw [List.pairwise_cons] at hp'
      have hk : k = k' := by
        rcases Nat.lt_trichotomy k k' with hlt | heq | hgt
        · have := he k
          rw [memGet?_eq_none_of_lt (m := (k', v') :: rest')] at this
          · simp [memGet?] at this
          · intro p hm
            rcases List.mem_cons.1 hm with rfl | hm
            · exact hlt
            · have := hp'.1 p hm; simp only at this; omega
        · exact heq
        · have := he k'
          rw [memGet?_eq_none_of_lt (m := (k, v) :: rest)] at this
          · simp [memGet?] at this
          · intro p hm
            rcases List.mem_cons.1 hm with rfl | hm
            · exact hgt
            · have := hp.1 p hm; simp only at this; omega
      subst hk
      have hv : v = v' := by have := he k; simpa [memGet?] using this
      subst hv
      congr 1
      refine ih (fun a => ?_) hp.2 hp'.2
      by_cases ha : a = k
      · subst ha
        rw [memGet?_eq_none_of_lt hp.1, memGet?_eq_none_of_lt hp'.1]
      · have := he a; simpa [memGet?, ha] using this

/-! ### Bounded accesses -/

theorem readByte_of_lt {size a : Nat} {m : Memory} (h : a < size) : readByte size m a = some (memByte m a) := by
  simp [readByte, h]

theorem writeByte_of_lt {size a : Nat} {m : Memory} {b : Byte} (h : a < size) :
    writeByte size m a b = some (memSet m a b) := by
  simp [writeByte, h]

/-- Everything a bounded read can do. -/
theorem readByte_eq_some {size a : Nat} {m : Memory} {b : Byte} (h : readByte size m a = some b) :
    a < size ∧ b = memByte m a := by
  unfold readByte at h; split at h <;> simp_all

/-- Everything a bounded write can do. -/
theorem writeByte_eq_some {size a : Nat} {m m' : Memory} {b : Byte} (h : writeByte size m a b = some m') :
    a < size ∧ m' = memSet m a b := by
  unfold writeByte at h; split at h <;> simp_all

/-! ### Loops -/

/-- The bytes of a read, when every address is inside MEM. -/
theorem readBytes_of_lt {size : Nat} {m : Memory} {src : Nat → Nat} {n : Nat} :
    ∀ {j : Nat}, (∀ k < n, src (j + k) < size) →
      readBytes size m src n j = some ((List.range n).map fun k => memByte m (src (j + k))) := by
  induction n with
  | zero => intro j _; simp [readBytes]
  | succ n ih =>
    intro j h
    have h0 := h 0 (by omega)
    have ht := ih (j := j + 1) fun k hk => by have := h (k + 1) (by omega); rwa [← Nat.add_assoc, Nat.add_right_comm] at this
    simp only [readBytes, readByte_of_lt (show src j < size from h0), Option.bind_some, ht, Option.map_some]
    rw [List.range_succ_eq_map, List.map_cons, List.map_map]
    congr 2
    apply List.map_congr_left
    intro k _
    simp only [Function.comp_apply]
    congr 2; omega

/-- Everything a read of several bytes can do. -/
theorem readBytes_eq_some {size : Nat} {m : Memory} {src : Nat → Nat} {n : Nat} :
    ∀ {j : Nat} {l : List Byte}, readBytes size m src n j = some l →
      (∀ k < n, src (j + k) < size) ∧ l = (List.range n).map fun k => memByte m (src (j + k)) := by
  induction n with
  | zero => intro j l h; simp only [readBytes, Option.some.injEq] at h; simp [← h]
  | succ n ih =>
    intro j l h
    simp only [readBytes, Option.bind_eq_some_iff, Option.map_eq_some_iff] at h
    obtain ⟨b, hb, l', hl', rfl⟩ := h
    have hlt : ∀ k < n + 1, src (j + k) < size := by
      intro k hk
      rcases k with _ | k
      · exact (readByte_eq_some hb).1
      · have := (ih hl').1 k (by omega); rwa [Nat.add_assoc, Nat.add_comm 1] at this
    refine ⟨hlt, ?_⟩
    have hall := readBytes_of_lt (m := m) hlt
    simp only [readBytes, hb, Option.bind_some, hl', Option.map_some, Option.some.injEq] at hall
    exact hall

/-- Everything a store of several bytes can do: every address is inside MEM, the canonical form is kept, an address that
is no destination keeps its byte, and where no two destinations are one, each holds its byte. -/
theorem storeBytes_eq_some {size : Nat} {dst : Nat → Nat} {l : List Byte} :
    ∀ {j : Nat} {m m' : Memory}, storeBytes size dst l j m = some m' →
      (∀ k < l.length, dst (j + k) < size)
      ∧ (Memory.wf size m → Memory.wf size m')
      ∧ (∀ x, (∀ k < l.length, x ≠ dst (j + k)) → memByte m' x = memByte m x)
      ∧ ((∀ k < l.length, ∀ k' < l.length, dst (j + k) = dst (j + k') → k = k') →
          ∀ k < l.length, memByte m' (dst (j + k)) = l.getD k 0) := by
  induction l with
  | nil => intro j m m' h; simp only [storeBytes, Option.some.injEq] at h; subst h; simp
  | cons b rest ih =>
    intro j m m' h
    simp only [storeBytes, Option.bind_eq_some_iff] at h
    obtain ⟨m1, hm1, hrest⟩ := h
    obtain ⟨hlt, rfl⟩ := writeByte_eq_some hm1
    obtain ⟨ih1, ih2, ih3, ih4⟩ := ih hrest
    have hadd : ∀ k, j + (k + 1) = j + 1 + k := by intro k; omega
    refine ⟨?_, ?_, ?_, ?_⟩
    · intro k hk
      rcases k with _ | k
      · exact hlt
      · rw [hadd]; exact ih1 k (by simpa using hk)
    · intro h; exact ih2 (Memory.wf_memSet h hlt)
    · intro x hx
      rw [ih3 x fun k hk => by rw [← hadd]; exact hx (k + 1) (by simpa using hk)]
      rw [memByte_memSet, if_neg]
      exact hx 0 (by simp)
    · intro hinj k hk
      rcases k with _ | k
      · rw [ih3 _ fun k hk h => ?_]
        · simp
        · have := hinj 0 (by simp) (k + 1) (by simpa using hk) (by rw [hadd]; exact h)
          omega
      · rw [hadd]
        have := ih4 (fun a ha a' ha' he => ?_) k (by simpa using hk)
        · rw [this]; simp
        · have := hinj (a + 1) (by simpa using ha) (a' + 1) (by simpa using ha') (by rw [hadd a, hadd a']; exact he)
          omega

/-- A store goes through when every address is inside MEM. -/
theorem storeBytes_of_lt {size : Nat} {dst : Nat → Nat} {l : List Byte} :
    ∀ {j : Nat} {m : Memory}, (∀ k < l.length, dst (j + k) < size) → ∃ m', storeBytes size dst l j m = some m' := by
  induction l with
  | nil => intro j m _; exact ⟨m, rfl⟩
  | cons b rest ih =>
    intro j m h
    have h0 : dst j < size := h 0 (by simp)
    obtain ⟨m', hm'⟩ := ih (j := j + 1) (m := memSet m (dst j) b)
      fun k hk => by have := h (k + 1) (by simpa using hk); rwa [← Nat.add_assoc, Nat.add_right_comm] at this
    exact ⟨m', by simp [storeBytes, writeByte_of_lt h0, hm']⟩

/-- Everything the copy loop can do, step by step: after step `k` the byte at `dst (j + k)` is what `src (j + k)` held
just before it, and every other byte is as before the step. -/
theorem copyBytes_trace {size : Nat} {src dst : Nat → Nat} {n : Nat} :
    ∀ {j : Nat} {m : Memory}, (∀ k < n, src (j + k) < size) → (∀ k < n, dst (j + k) < size) →
      ∃ trace : Nat → Memory, trace 0 = m
        ∧ (∀ k < n, ∀ x, memByte (trace (k + 1)) x =
            if x = dst (j + k) then memByte (trace k) (src (j + k)) else memByte (trace k) x)
        ∧ (Memory.wf size m → Memory.wf size (trace n))
        ∧ copyBytes size src dst n j m = some (trace n) := by
  induction n with
  | zero => intro j m _ _; exact ⟨fun _ => m, rfl, by simp, id, rfl⟩
  | succ n ih =>
    intro j m hs hd
    have hs0 : src j < size := hs 0 (by omega)
    have hd0 : dst j < size := hd 0 (by omega)
    have hadd : ∀ k, j + 1 + k = j + (k + 1) := by intro k; omega
    obtain ⟨tr, h0, hstep, hwf, hcopy⟩ := ih (j := j + 1) (m := memSet m (dst j) (memByte m (src j)))
      (fun k hk => by rw [hadd]; exact hs (k + 1) (by omega)) (fun k hk => by rw [hadd]; exact hd (k + 1) (by omega))
    refine ⟨fun k => Nat.casesOn k m tr, rfl, ?_, ?_, ?_⟩
    · intro k hk x
      rcases k with _ | k
      · simp [h0]
      · have := hstep k (by omega) x
        rwa [hadd] at this
    · intro h; exact hwf (Memory.wf_memSet h hd0)
    · simp [copyBytes, readByte_of_lt hs0, writeByte_of_lt hd0, hcopy]

/-- What the copy loop answers, when it answers. -/
theorem copyBytes_eq_some {size : Nat} {src dst : Nat → Nat} {n : Nat} :
    ∀ {j : Nat} {m m' : Memory}, copyBytes size src dst n j m = some m' →
      (∀ k < n, src (j + k) < size) ∧ (∀ k < n, dst (j + k) < size) := by
  induction n with
  | zero => intro j m m' _; simp
  | succ n ih =>
    intro j m m' h
    simp only [copyBytes, Option.bind_eq_some_iff] at h
    obtain ⟨b, hb, m1, hm1, hrest⟩ := h
    obtain ⟨i1, i2⟩ := ih hrest
    have hadd : ∀ k, j + (k + 1) = j + 1 + k := by intro k; omega
    constructor <;> intro k hk <;> rcases k with _ | k
    · exact (readByte_eq_some hb).1
    · rw [hadd]; exact i1 k (by omega)
    · exact (writeByte_eq_some hm1).1
    · rw [hadd]; exact i2 k (by omega)

/-- A copy loop that goes through keeps the canonical form. -/
theorem copyBytes_wf {size : Nat} {src dst : Nat → Nat} {n j : Nat} {m m' : Memory}
    (h : copyBytes size src dst n j m = some m') (hm : Memory.wf size m) : Memory.wf size m' := by
  obtain ⟨hs, hd⟩ := copyBytes_eq_some h
  obtain ⟨tr, _, _, hwf, hc⟩ := copyBytes_trace (m := m) hs hd
  rw [hc] at h
  cases h
  exact hwf hm

/-- A copy leaves every address that is no destination. -/
theorem copyBytes_frame {size : Nat} {src dst : Nat → Nat} {n j : Nat} {m m' : Memory}
    (h : copyBytes size src dst n j m = some m') {x : Nat} (hx : ∀ k < n, x ≠ dst (j + k)) :
    memByte m' x = memByte m x := by
  obtain ⟨hs, hd⟩ := copyBytes_eq_some h
  obtain ⟨tr, h0, hstep, _, hc⟩ := copyBytes_trace (m := m) hs hd
  rw [hc] at h
  cases h
  have : ∀ k ≤ n, memByte (tr k) x = memByte m x := by
    intro k
    induction k with
    | zero => intro _; rw [h0]
    | succ k ih => intro hk; rw [hstep k (by omega), if_neg (hx k (by omega)), ih (by omega)]
  exact this n (Nat.le_refl n)

/-- A copy between ranges that share no address, to destinations that are all different, carries every byte over. -/
theorem copyBytes_apart {size : Nat} {src dst : Nat → Nat} {n j : Nat} {m m' : Memory}
    (h : copyBytes size src dst n j m = some m')
    (happ : ∀ k < n, ∀ k' < n, src (j + k) ≠ dst (j + k'))
    (hinj : ∀ k < n, ∀ k' < n, dst (j + k) = dst (j + k') → k = k') :
    ∀ k < n, memByte m' (dst (j + k)) = memByte m (src (j + k)) := by
  obtain ⟨hs, hd⟩ := copyBytes_eq_some h
  obtain ⟨tr, h0, hstep, _, hc⟩ := copyBytes_trace (m := m) hs hd
  rw [hc] at h
  cases h
  have hsrc : ∀ i ≤ n, ∀ k < n, memByte (tr i) (src (j + k)) = memByte m (src (j + k)) := by
    intro i
    induction i with
    | zero => intro _ k _; rw [h0]
    | succ i ih => intro hi k hk; rw [hstep i (by omega), if_neg (happ k hk i (by omega)), ih (by omega) k hk]
  have hdst : ∀ i ≤ n, ∀ k < i, memByte (tr i) (dst (j + k)) = memByte m (src (j + k)) := by
    intro i
    induction i with
    | zero => intro _ k hk; omega
    | succ i ih =>
      intro hi k hk
      rw [hstep i (by omega)]
      split
      · rename_i he
        have := hinj k (by omega) i (by omega) he
        subst this
        exact hsrc k (by omega) k (by omega)
      · rename_i hne
        exact ih (by omega) k (by
          rcases Nat.lt_or_ge k i with h | h
          · exact h
          · exact absurd (by rw [show k = i by omega]) hne)
  exact hdst n (Nat.le_refl n)

/-! ### Little-endian values -/

@[simp] theorem leBytes_length (n v : Nat) : (leBytes n v).length = n := by
  induction n generalizing v with
  | zero => rfl
  | succ n ih => simp [leBytes, ih]

/-- The bytes of a value give the value back, modulo its width. -/
theorem leValue_leBytes (n v : Nat) : leValue (leBytes n v) = v % 256 ^ n := by
  induction n generalizing v with
  | zero => simp [leBytes, leValue, Nat.mod_one]
  | succ n ih =>
    simp only [leBytes, leValue, ih, BitVec.toNat_ofNat, show 2 ^ 8 = 256 from rfl]
    rw [show 256 ^ (n + 1) = 256 * 256 ^ n from Nat.pow_succ' .., Nat.mod_mul]

/-- Byte `k` of a value. -/
theorem leBytes_getD (n v k : Nat) (h : k < n) : (leBytes n v).getD k 0 = BitVec.ofNat 8 (v / 256 ^ k) := by
  induction n generalizing v k with
  | zero => omega
  | succ n ih =>
    rcases k with _ | k
    · simp [leBytes]
    · simp only [leBytes, List.getD_cons_succ]
      rw [ih _ _ (by omega), Nat.div_div_eq_div_mul, Nat.pow_succ, Nat.mul_comm (256 ^ k)]

/-- A value of `n` bytes is below `256 ^ n`. -/
theorem leValue_lt (l : List Byte) : leValue l < 256 ^ l.length := by
  induction l with
  | nil => simp [leValue]
  | cons b rest ih =>
    simp only [leValue, List.length_cons, Nat.pow_succ]
    have := b.isLt
    omega

/-- A read of `n` bytes inside MEM. -/
theorem memRead_of_le {size a n : Nat} {m : Memory} (h : a + n ≤ size) :
    memRead size m a n = some (leValue ((List.range n).map fun j => memByte m (a + j))) := by
  rw [memRead, readBytes_of_lt (by intro k hk; omega)]
  simp

/-- A write of `n` bytes inside MEM goes through, puts byte `j` of the value at `a + j`, leaves every other byte, and
keeps the canonical form. -/
theorem memWrite_of_le {size a n v : Nat} {m : Memory} (h : a + n ≤ size) :
    ∃ m', memWrite size m a n v = some m'
      ∧ (∀ j < n, memByte m' (a + j) = BitVec.ofNat 8 (v / 256 ^ j))
      ∧ (∀ x, (x < a ∨ a + n ≤ x) → memByte m' x = memByte m x)
      ∧ (Memory.wf size m → Memory.wf size m') := by
  obtain ⟨m', hm'⟩ := storeBytes_of_lt (size := size) (dst := fun j => a + j) (l := leBytes n v) (j := 0) (m := m)
    (by intro k hk; simp only [leBytes_length] at hk; omega)
  obtain ⟨_, hwf, hframe, hval⟩ := storeBytes_eq_some hm'
  simp only [leBytes_length, Nat.zero_add] at hframe hval
  refine ⟨m', hm', fun j hj => ?_, fun x hx => hframe x (by intro k hk; omega), hwf⟩
  rw [hval (by intro k _ k' _ he; omega) j hj, leBytes_getD _ _ _ hj]

/-! ### Arithmetic -/

/-- `(a - b) mod m` is the mathematical remainder. -/
theorem subMod_int (a b m : Nat) (hm : 0 < m) : (subMod a b m : Int) = ((a : Int) - b) % m := by
  unfold subMod
  have hb : b % m < m := Nat.mod_lt b hm
  rw [Int.natCast_mod, Int.natCast_add, Int.natCast_sub (by omega)]
  have : (a : Int) + ((m : Int) - ((b % m : Nat) : Int)) = ((a : Int) - b) + m * (1 + b / m) := by
    have := Int.emod_add_mul_ediv (b : Int) m
    push_cast
    linarith
  rw [this, Int.add_mul_emod_self_left]

theorem subMod_lt (a b m : Nat) (hm : 0 < m) : subMod a b m < m := Nat.mod_lt _ hm

/-- The remainder of a difference of offsets below the modulus. -/
theorem subMod_of_lt {a b m : Nat} (ha : a < m) (hb : b < m) :
    subMod a b m = if b ≤ a then a - b else a + m - b := by
  unfold subMod
  rw [Nat.mod_eq_of_lt hb]
  split
  · rw [show a + (m - b) = (a - b) + m by omega, Nat.add_mod_right, Nat.mod_eq_of_lt (by omega)]
  · rw [Nat.mod_eq_of_lt (by omega)]; omega

end Sys2Proof.Machine
end

