-- ==== Sys2Proof/Laws/State.lean ====
section
/-! SUPPORT. One lemma per field per named update, each true by `rfl`: no later proof unfolds a record update. -/

namespace Sys2Proof.Machine

/-! ### `State.fail` -/

@[simp] theorem State.fail_cfg (s : State) (e : ErrCode) : (s.fail e).cfg = s.cfg := rfl
@[simp] theorem State.fail_regs (s : State) (e : ErrCode) :
    (s.fail e).regs = { s.regs with err := e, res0 := 0, res1 := 0 } := rfl
@[simp] theorem State.fail_cap (s : State) (e : ErrCode) : (s.fail e).cap = s.cap := rfl
@[simp] theorem State.fail_bq (s : State) (e : ErrCode) : (s.fail e).bq = s.bq := rfl
@[simp] theorem State.fail_proc (s : State) (e : ErrCode) : (s.fail e).proc = s.proc := rfl
@[simp] theorem State.fail_ring (s : State) (e : ErrCode) : (s.fail e).ring = s.ring := rfl
@[simp] theorem State.fail_dec (s : State) (e : ErrCode) : (s.fail e).dec = s.dec := rfl
@[simp] theorem State.fail_tag (s : State) (e : ErrCode) : (s.fail e).tag = s.tag := rfl
@[simp] theorem State.fail_mem (s : State) (e : ErrCode) : (s.fail e).mem = s.mem := rfl
@[simp] theorem State.fail_waiting (s : State) (e : ErrCode) : (s.fail e).waiting = s.waiting := rfl
@[simp] theorem State.fail_program (s : State) (e : ErrCode) : (s.fail e).program = s.program := rfl
@[simp] theorem State.fail_schedule (s : State) (e : ErrCode) : (s.fail e).schedule = s.schedule := rfl
@[simp] theorem State.fail_reply (s : State) (e : ErrCode) : (s.fail e).reply = s.reply := rfl
@[simp] theorem State.fail_draws (s : State) (e : ErrCode) : (s.fail e).draws = s.draws := rfl

/-! ### `State.succeed` -/

@[simp] theorem State.succeed_cfg (s : State) (r0 r1 : Word) : (s.succeed r0 r1).cfg = s.cfg := rfl
@[simp] theorem State.succeed_regs (s : State) (r0 r1 : Word) :
    (s.succeed r0 r1).regs = { s.regs with err := .ok, res0 := r0, res1 := r1 } := rfl
@[simp] theorem State.succeed_cap (s : State) (r0 r1 : Word) : (s.succeed r0 r1).cap = s.cap := rfl
@[simp] theorem State.succeed_bq (s : State) (r0 r1 : Word) : (s.succeed r0 r1).bq = s.bq := rfl
@[simp] theorem State.succeed_proc (s : State) (r0 r1 : Word) : (s.succeed r0 r1).proc = s.proc := rfl
@[simp] theorem State.succeed_ring (s : State) (r0 r1 : Word) : (s.succeed r0 r1).ring = s.ring := rfl
@[simp] theorem State.succeed_dec (s : State) (r0 r1 : Word) : (s.succeed r0 r1).dec = s.dec := rfl
@[simp] theorem State.succeed_tag (s : State) (r0 r1 : Word) : (s.succeed r0 r1).tag = s.tag := rfl
@[simp] theorem State.succeed_mem (s : State) (r0 r1 : Word) : (s.succeed r0 r1).mem = s.mem := rfl
@[simp] theorem State.succeed_waiting (s : State) (r0 r1 : Word) : (s.succeed r0 r1).waiting = s.waiting := rfl
@[simp] theorem State.succeed_program (s : State) (r0 r1 : Word) : (s.succeed r0 r1).program = s.program := rfl
@[simp] theorem State.succeed_schedule (s : State) (r0 r1 : Word) : (s.succeed r0 r1).schedule = s.schedule := rfl
@[simp] theorem State.succeed_reply (s : State) (r0 r1 : Word) : (s.succeed r0 r1).reply = s.reply := rfl
@[simp] theorem State.succeed_draws (s : State) (r0 r1 : Word) : (s.succeed r0 r1).draws = s.draws := rfl

/-! ### `State.ended` -/

@[simp] theorem State.ended_cfg (s : State) (e : ErrCode) (r0 r1 : Word) : (s.ended e r0 r1).cfg = s.cfg := rfl
@[simp] theorem State.ended_regs (s : State) (e : ErrCode) (r0 r1 : Word) :
    (s.ended e r0 r1).regs = { s.regs with err := e, res0 := r0, res1 := r1 } := rfl
@[simp] theorem State.ended_cap (s : State) (e : ErrCode) (r0 r1 : Word) : (s.ended e r0 r1).cap = s.cap := rfl
@[simp] theorem State.ended_bq (s : State) (e : ErrCode) (r0 r1 : Word) : (s.ended e r0 r1).bq = s.bq := rfl
@[simp] theorem State.ended_proc (s : State) (e : ErrCode) (r0 r1 : Word) : (s.ended e r0 r1).proc = s.proc := rfl
@[simp] theorem State.ended_ring (s : State) (e : ErrCode) (r0 r1 : Word) : (s.ended e r0 r1).ring = s.ring := rfl
@[simp] theorem State.ended_dec (s : State) (e : ErrCode) (r0 r1 : Word) : (s.ended e r0 r1).dec = s.dec := rfl
@[simp] theorem State.ended_tag (s : State) (e : ErrCode) (r0 r1 : Word) : (s.ended e r0 r1).tag = s.tag := rfl
@[simp] theorem State.ended_mem (s : State) (e : ErrCode) (r0 r1 : Word) : (s.ended e r0 r1).mem = s.mem := rfl
@[simp] theorem State.ended_waiting (s : State) (e : ErrCode) (r0 r1 : Word) :
    (s.ended e r0 r1).waiting = s.waiting := rfl
@[simp] theorem State.ended_program (s : State) (e : ErrCode) (r0 r1 : Word) :
    (s.ended e r0 r1).program = s.program := rfl
@[simp] theorem State.ended_schedule (s : State) (e : ErrCode) (r0 r1 : Word) :
    (s.ended e r0 r1).schedule = s.schedule := rfl
@[simp] theorem State.ended_reply (s : State) (e : ErrCode) (r0 r1 : Word) : (s.ended e r0 r1).reply = s.reply := rfl
@[simp] theorem State.ended_draws (s : State) (e : ErrCode) (r0 r1 : Word) : (s.ended e r0 r1).draws = s.draws := rfl

/-! ### `State.settle` -/

@[simp] theorem State.settle_cfg (s : State) : (s.settle).cfg = s.cfg := rfl
@[simp] theorem State.settle_regs (s : State) : (s.settle).regs = s.regs := rfl
@[simp] theorem State.settle_cap (s : State) : (s.settle).cap = s.cap := rfl
@[simp] theorem State.settle_bq (s : State) : (s.settle).bq = s.bq := rfl
@[simp] theorem State.settle_proc (s : State) : (s.settle).proc = s.proc := rfl
@[simp] theorem State.settle_ring (s : State) : (s.settle).ring = s.ring := rfl
@[simp] theorem State.settle_dec (s : State) : (s.settle).dec = s.dec := rfl
@[simp] theorem State.settle_tag (s : State) : (s.settle).tag = s.tag := rfl
@[simp] theorem State.settle_mem (s : State) : (s.settle).mem = s.mem := rfl
@[simp] theorem State.settle_waiting (s : State) : (s.settle).waiting = s.waiting := rfl
@[simp] theorem State.settle_program (s : State) : (s.settle).program = s.program := rfl
@[simp] theorem State.settle_schedule (s : State) : (s.settle).schedule = s.schedule := rfl
@[simp] theorem State.settle_reply (s : State) : (s.settle).reply = if s.inFlight then .held else .written := rfl
@[simp] theorem State.settle_draws (s : State) : (s.settle).draws = s.draws := rfl

/-! ### `tick` -/

@[simp] theorem tick_cfg (s : State) : (tick s).cfg = s.cfg := rfl
@[simp] theorem tick_regs (s : State) : (tick s).regs = s.regs := rfl
@[simp] theorem tick_cap (s : State) :
    (tick s).cap = { s.cap with
      cnt := if s.cap.arr.toNat ≤ s.cap.cnt.toNat then 0 else BitVec.ofNat 32 (s.cap.cnt.toNat + 1) } := rfl
@[simp] theorem tick_bq (s : State) : (tick s).bq = s.bq := rfl
@[simp] theorem tick_proc (s : State) : (tick s).proc = s.proc := rfl
@[simp] theorem tick_ring (s : State) : (tick s).ring = s.ring := rfl
@[simp] theorem tick_dec (s : State) : (tick s).dec = s.dec := rfl
@[simp] theorem tick_tag (s : State) : (tick s).tag = s.tag := rfl
@[simp] theorem tick_mem (s : State) : (tick s).mem = s.mem := rfl
@[simp] theorem tick_waiting (s : State) : (tick s).waiting = s.waiting := rfl
@[simp] theorem tick_program (s : State) : (tick s).program = s.program := rfl
@[simp] theorem tick_schedule (s : State) : (tick s).schedule = s.schedule := rfl
@[simp] theorem tick_reply (s : State) : (tick s).reply = s.reply := rfl
@[simp] theorem tick_draws (s : State) : (tick s).draws = s.draws := rfl

/-! ### `ringEvict` -/

@[simp] theorem ringEvict_cfg (s : State) : (ringEvict s).cfg = s.cfg := rfl
@[simp] theorem ringEvict_regs (s : State) : (ringEvict s).regs = s.regs := rfl
@[simp] theorem ringEvict_cap (s : State) :
    (ringEvict s).cap = if s.ring.free = 0 then s.cap.countDrop else s.cap := rfl
@[simp] theorem ringEvict_bq (s : State) : (ringEvict s).bq = s.bq := rfl
@[simp] theorem ringEvict_proc (s : State) : (ringEvict s).proc = s.proc := rfl
@[simp] theorem ringEvict_ring (s : State) :
    (ringEvict s).ring = if s.ring.free = 0 then s.ring.popped s.ring.esz.toNat else s.ring := rfl
@[simp] theorem ringEvict_dec (s : State) : (ringEvict s).dec = s.dec := rfl
@[simp] theorem ringEvict_tag (s : State) : (ringEvict s).tag = s.tag := rfl
@[simp] theorem ringEvict_mem (s : State) : (ringEvict s).mem = s.mem := rfl
@[simp] theorem ringEvict_waiting (s : State) : (ringEvict s).waiting = s.waiting := rfl
@[simp] theorem ringEvict_program (s : State) : (ringEvict s).program = s.program := rfl
@[simp] theorem ringEvict_schedule (s : State) : (ringEvict s).schedule = s.schedule := rfl
@[simp] theorem ringEvict_reply (s : State) : (ringEvict s).reply = s.reply := rfl
@[simp] theorem ringEvict_draws (s : State) : (ringEvict s).draws = s.draws := rfl

/-! ### `latchEdge` -/

@[simp] theorem latchEdge_cfg (s : State) : (latchEdge s).cfg = s.cfg := rfl
@[simp] theorem latchEdge_regs (s : State) : (latchEdge s).regs = s.regs := rfl
@[simp] theorem latchEdge_cap (s : State) :
    (latchEdge s).cap = { s.cap with sig := !s.cap.sig, ccr := s.cap.cnt } := rfl
@[simp] theorem latchEdge_bq (s : State) : (latchEdge s).bq = s.bq := rfl
@[simp] theorem latchEdge_proc (s : State) : (latchEdge s).proc = s.proc := rfl
@[simp] theorem latchEdge_ring (s : State) : (latchEdge s).ring = s.ring := rfl
@[simp] theorem latchEdge_dec (s : State) : (latchEdge s).dec = s.dec := rfl
@[simp] theorem latchEdge_tag (s : State) : (latchEdge s).tag = s.tag := rfl
@[simp] theorem latchEdge_mem (s : State) : (latchEdge s).mem = s.mem := rfl
@[simp] theorem latchEdge_waiting (s : State) : (latchEdge s).waiting = s.waiting := rfl
@[simp] theorem latchEdge_program (s : State) : (latchEdge s).program = s.program := rfl
@[simp] theorem latchEdge_schedule (s : State) : (latchEdge s).schedule = s.schedule := rfl
@[simp] theorem latchEdge_reply (s : State) : (latchEdge s).reply = s.reply := rfl
@[simp] theorem latchEdge_draws (s : State) : (latchEdge s).draws = s.draws := rfl

/-! ### `dmaTransfer` -/

@[simp] theorem dmaTransfer_cfg (s : State) : (dmaTransfer s).cfg = s.cfg := rfl
@[simp] theorem dmaTransfer_regs (s : State) : (dmaTransfer s).regs = s.regs := rfl
@[simp] theorem dmaTransfer_cap (s : State) :
    (dmaTransfer s).cap = { s.cap with
      capbuf := s.cap.capbuf.set s.cap.dmaIdx (some s.cap.ccr), dmaIdx := s.cap.dmaIdx + 1 } := rfl
@[simp] theorem dmaTransfer_bq (s : State) : (dmaTransfer s).bq = s.bq := rfl
@[simp] theorem dmaTransfer_proc (s : State) : (dmaTransfer s).proc = s.proc := rfl
@[simp] theorem dmaTransfer_ring (s : State) : (dmaTransfer s).ring = s.ring := rfl
@[simp] theorem dmaTransfer_dec (s : State) : (dmaTransfer s).dec = s.dec := rfl
@[simp] theorem dmaTransfer_tag (s : State) : (dmaTransfer s).tag = s.tag := rfl
@[simp] theorem dmaTransfer_mem (s : State) : (dmaTransfer s).mem = s.mem := rfl
@[simp] theorem dmaTransfer_waiting (s : State) : (dmaTransfer s).waiting = s.waiting := rfl
@[simp] theorem dmaTransfer_program (s : State) : (dmaTransfer s).program = s.program := rfl
@[simp] theorem dmaTransfer_schedule (s : State) : (dmaTransfer s).schedule = s.schedule := rfl
@[simp] theorem dmaTransfer_reply (s : State) : (dmaTransfer s).reply = s.reply := rfl
@[simp] theorem dmaTransfer_draws (s : State) : (dmaTransfer s).draws = s.draws := rfl

/-! ### `dmaWrap` -/

@[simp] theorem dmaWrap_cfg (s : State) : (dmaWrap s).cfg = s.cfg := rfl
@[simp] theorem dmaWrap_regs (s : State) : (dmaWrap s).regs = s.regs := rfl
@[simp] theorem dmaWrap_cap (s : State) : (dmaWrap s).cap = { s.cap with dmaIdx := 0 } := rfl
@[simp] theorem dmaWrap_bq (s : State) : (dmaWrap s).bq = s.bq := rfl
@[simp] theorem dmaWrap_proc (s : State) : (dmaWrap s).proc = s.proc := rfl
@[simp] theorem dmaWrap_ring (s : State) : (dmaWrap s).ring = s.ring := rfl
@[simp] theorem dmaWrap_dec (s : State) : (dmaWrap s).dec = s.dec := rfl
@[simp] theorem dmaWrap_tag (s : State) : (dmaWrap s).tag = s.tag := rfl
@[simp] theorem dmaWrap_mem (s : State) : (dmaWrap s).mem = s.mem := rfl
@[simp] theorem dmaWrap_waiting (s : State) : (dmaWrap s).waiting = s.waiting := rfl
@[simp] theorem dmaWrap_program (s : State) : (dmaWrap s).program = s.program := rfl
@[simp] theorem dmaWrap_schedule (s : State) : (dmaWrap s).schedule = s.schedule := rfl
@[simp] theorem dmaWrap_reply (s : State) : (dmaWrap s).reply = s.reply := rfl
@[simp] theorem dmaWrap_draws (s : State) : (dmaWrap s).draws = s.draws := rfl

/-! ### `blockEvent` -/

@[simp] theorem blockEvent_cfg (s : State) (b : Bool) : (blockEvent s b).cfg = (bqPush s b).cfg := rfl
@[simp] theorem blockEvent_regs (s : State) (b : Bool) : (blockEvent s b).regs = (bqPush s b).regs := rfl
@[simp] theorem blockEvent_cap (s : State) (b : Bool) :
    (blockEvent s b).cap = { (bqPush s b).cap with ntf := true } := rfl
@[simp] theorem blockEvent_bq (s : State) (b : Bool) : (blockEvent s b).bq = (bqPush s b).bq := rfl
@[simp] theorem blockEvent_proc (s : State) (b : Bool) : (blockEvent s b).proc = (bqPush s b).proc := rfl
@[simp] theorem blockEvent_ring (s : State) (b : Bool) : (blockEvent s b).ring = (bqPush s b).ring := rfl
@[simp] theorem blockEvent_dec (s : State) (b : Bool) : (blockEvent s b).dec = (bqPush s b).dec := rfl
@[simp] theorem blockEvent_tag (s : State) (b : Bool) : (blockEvent s b).tag = (bqPush s b).tag := rfl
@[simp] theorem blockEvent_mem (s : State) (b : Bool) : (blockEvent s b).mem = (bqPush s b).mem := rfl
@[simp] theorem blockEvent_waiting (s : State) (b : Bool) : (blockEvent s b).waiting = (bqPush s b).waiting := rfl
@[simp] theorem blockEvent_program (s : State) (b : Bool) : (blockEvent s b).program = (bqPush s b).program := rfl
@[simp] theorem blockEvent_schedule (s : State) (b : Bool) : (blockEvent s b).schedule = (bqPush s b).schedule := rfl
@[simp] theorem blockEvent_reply (s : State) (b : Bool) : (blockEvent s b).reply = (bqPush s b).reply := rfl
@[simp] theorem blockEvent_draws (s : State) (b : Bool) : (blockEvent s b).draws = (bqPush s b).draws := rfl

/-! ### `capStartClear` -/

@[simp] theorem capStartClear_cfg (s : State) : (capStartClear s).cfg = s.cfg := rfl
@[simp] theorem capStartClear_regs (s : State) : (capStartClear s).regs = s.regs := rfl
@[simp] theorem capStartClear_cap (s : State) :
    (capStartClear s).cap = { s.cap with havePrev := false, dropCnt := 0 } := rfl
@[simp] theorem capStartClear_bq (s : State) : (capStartClear s).bq = s.bq := rfl
@[simp] theorem capStartClear_proc (s : State) : (capStartClear s).proc = s.proc := rfl
@[simp] theorem capStartClear_ring (s : State) : (capStartClear s).ring = s.ring := rfl
@[simp] theorem capStartClear_dec (s : State) : (capStartClear s).dec = s.dec := rfl
@[simp] theorem capStartClear_tag (s : State) : (capStartClear s).tag = s.tag := rfl
@[simp] theorem capStartClear_mem (s : State) : (capStartClear s).mem = s.mem := rfl
@[simp] theorem capStartClear_waiting (s : State) : (capStartClear s).waiting = s.waiting := rfl
@[simp] theorem capStartClear_program (s : State) : (capStartClear s).program = s.program := rfl
@[simp] theorem capStartClear_schedule (s : State) : (capStartClear s).schedule = s.schedule := rfl
@[simp] theorem capStartClear_reply (s : State) : (capStartClear s).reply = s.reply := rfl
@[simp] theorem capStartClear_draws (s : State) : (capStartClear s).draws = s.draws := rfl

/-! ### `capArm` -/

@[simp] theorem capArm_cfg (s : State) : (capArm s).cfg = s.cfg := rfl
@[simp] theorem capArm_regs (s : State) : (capArm s).regs = s.regs := rfl
@[simp] theorem capArm_cap (s : State) :
    (capArm s).cap = { s.cap with ntf := false, dmaIdx := 0, dmaEn := true } := rfl
@[simp] theorem capArm_bq (s : State) : (capArm s).bq = { s.bq with head := 0, tail := 0, count := 0 } := rfl
@[simp] theorem capArm_proc (s : State) : (capArm s).proc = s.proc := rfl
@[simp] theorem capArm_ring (s : State) : (capArm s).ring = s.ring := rfl
@[simp] theorem capArm_dec (s : State) : (capArm s).dec = s.dec := rfl
@[simp] theorem capArm_tag (s : State) : (capArm s).tag = s.tag := rfl
@[simp] theorem capArm_mem (s : State) : (capArm s).mem = s.mem := rfl
@[simp] theorem capArm_waiting (s : State) : (capArm s).waiting = s.waiting := rfl
@[simp] theorem capArm_program (s : State) : (capArm s).program = s.program := rfl
@[simp] theorem capArm_schedule (s : State) : (capArm s).schedule = s.schedule := rfl
@[simp] theorem capArm_reply (s : State) : (capArm s).reply = s.reply := rfl
@[simp] theorem capArm_draws (s : State) : (capArm s).draws = s.draws := rfl

/-! ### `rememberCapture` -/

@[simp] theorem rememberCapture_cfg (s : State) (cur : Word) : (rememberCapture s cur).cfg = s.cfg := rfl
@[simp] theorem rememberCapture_regs (s : State) (cur : Word) : (rememberCapture s cur).regs = s.regs := rfl
@[simp] theorem rememberCapture_cap (s : State) (cur : Word) :
    (rememberCapture s cur).cap = { s.cap with prevCap := cur, havePrev := true } := rfl
@[simp] theorem rememberCapture_bq (s : State) (cur : Word) : (rememberCapture s cur).bq = s.bq := rfl
@[simp] theorem rememberCapture_proc (s : State) (cur : Word) : (rememberCapture s cur).proc = s.proc := rfl
@[simp] theorem rememberCapture_ring (s : State) (cur : Word) : (rememberCapture s cur).ring = s.ring := rfl
@[simp] theorem rememberCapture_dec (s : State) (cur : Word) : (rememberCapture s cur).dec = s.dec := rfl
@[simp] theorem rememberCapture_tag (s : State) (cur : Word) : (rememberCapture s cur).tag = s.tag := rfl
@[simp] theorem rememberCapture_mem (s : State) (cur : Word) : (rememberCapture s cur).mem = s.mem := rfl
@[simp] theorem rememberCapture_waiting (s : State) (cur : Word) : (rememberCapture s cur).waiting = s.waiting := rfl
@[simp] theorem rememberCapture_program (s : State) (cur : Word) : (rememberCapture s cur).program = s.program := rfl
@[simp] theorem rememberCapture_schedule (s : State) (cur : Word) :
    (rememberCapture s cur).schedule = s.schedule := rfl
@[simp] theorem rememberCapture_reply (s : State) (cur : Word) : (rememberCapture s cur).reply = s.reply := rfl
@[simp] theorem rememberCapture_draws (s : State) (cur : Word) : (rememberCapture s cur).draws = s.draws := rfl

/-! ### `ntfWaitDone` -/

@[simp] theorem ntfWaitDone_cfg (s : State) : (ntfWaitDone s).cfg = s.cfg := rfl
@[simp] theorem ntfWaitDone_regs (s : State) :
    (ntfWaitDone s).regs = { s.regs with err := .ok, res0 := 1, res1 := 0 } := rfl
@[simp] theorem ntfWaitDone_cap (s : State) : (ntfWaitDone s).cap = { s.cap with ntf := false } := rfl
@[simp] theorem ntfWaitDone_bq (s : State) : (ntfWaitDone s).bq = s.bq := rfl
@[simp] theorem ntfWaitDone_proc (s : State) : (ntfWaitDone s).proc = s.proc := rfl
@[simp] theorem ntfWaitDone_ring (s : State) : (ntfWaitDone s).ring = s.ring := rfl
@[simp] theorem ntfWaitDone_dec (s : State) : (ntfWaitDone s).dec = s.dec := rfl
@[simp] theorem ntfWaitDone_tag (s : State) : (ntfWaitDone s).tag = s.tag := rfl
@[simp] theorem ntfWaitDone_mem (s : State) : (ntfWaitDone s).mem = s.mem := rfl
@[simp] theorem ntfWaitDone_waiting (s : State) : (ntfWaitDone s).waiting = false := rfl
@[simp] theorem ntfWaitDone_program (s : State) : (ntfWaitDone s).program = s.program := rfl
@[simp] theorem ntfWaitDone_schedule (s : State) : (ntfWaitDone s).schedule = s.schedule := rfl
@[simp] theorem ntfWaitDone_reply (s : State) : (ntfWaitDone s).reply = s.reply := rfl
@[simp] theorem ntfWaitDone_draws (s : State) : (ntfWaitDone s).draws = s.draws := rfl

/-! ### `refuseAccess` -/

@[simp] theorem refuseAccess_cfg (s : State) : (refuseAccess s).cfg = s.cfg := rfl
@[simp] theorem refuseAccess_regs (s : State) : (refuseAccess s).regs = s.regs := rfl
@[simp] theorem refuseAccess_cap (s : State) : (refuseAccess s).cap = s.cap := rfl
@[simp] theorem refuseAccess_bq (s : State) : (refuseAccess s).bq = s.bq := rfl
@[simp] theorem refuseAccess_proc (s : State) : (refuseAccess s).proc = s.proc := rfl
@[simp] theorem refuseAccess_ring (s : State) : (refuseAccess s).ring = s.ring := rfl
@[simp] theorem refuseAccess_dec (s : State) : (refuseAccess s).dec = s.dec := rfl
@[simp] theorem refuseAccess_tag (s : State) : (refuseAccess s).tag = s.tag := rfl
@[simp] theorem refuseAccess_mem (s : State) : (refuseAccess s).mem = s.mem := rfl
@[simp] theorem refuseAccess_waiting (s : State) : (refuseAccess s).waiting = s.waiting := rfl
@[simp] theorem refuseAccess_program (s : State) : (refuseAccess s).program = s.program := rfl
@[simp] theorem refuseAccess_schedule (s : State) : (refuseAccess s).schedule = s.schedule := rfl
@[simp] theorem refuseAccess_reply (s : State) : (refuseAccess s).reply = .refused := rfl
@[simp] theorem refuseAccess_draws (s : State) : (refuseAccess s).draws = s.draws := rfl

/-! ### `State.initial` -/

@[simp] theorem State.initial_cfg (cfg : Config) (p : List HostAccess) (q : List Turn) :
    (State.initial cfg p q).cfg = cfg := rfl
@[simp] theorem State.initial_regs (cfg : Config) (p : List HostAccess) (q : List Turn) :
    (State.initial cfg p q).regs = (State.resetWith cfg).regs := rfl
@[simp] theorem State.initial_cap (cfg : Config) (p : List HostAccess) (q : List Turn) :
    (State.initial cfg p q).cap = (State.resetWith cfg).cap := rfl
@[simp] theorem State.initial_bq (cfg : Config) (p : List HostAccess) (q : List Turn) :
    (State.initial cfg p q).bq = (State.resetWith cfg).bq := rfl
@[simp] theorem State.initial_proc (cfg : Config) (p : List HostAccess) (q : List Turn) :
    (State.initial cfg p q).proc = (State.resetWith cfg).proc := rfl
@[simp] theorem State.initial_ring (cfg : Config) (p : List HostAccess) (q : List Turn) :
    (State.initial cfg p q).ring = (State.resetWith cfg).ring := rfl
@[simp] theorem State.initial_dec (cfg : Config) (p : List HostAccess) (q : List Turn) :
    (State.initial cfg p q).dec = (State.resetWith cfg).dec := rfl
@[simp] theorem State.initial_tag (cfg : Config) (p : List HostAccess) (q : List Turn) :
    (State.initial cfg p q).tag = (State.resetWith cfg).tag := rfl
@[simp] theorem State.initial_mem (cfg : Config) (p : List HostAccess) (q : List Turn) :
    (State.initial cfg p q).mem = (State.resetWith cfg).mem := rfl
@[simp] theorem State.initial_waiting (cfg : Config) (p : List HostAccess) (q : List Turn) :
    (State.initial cfg p q).waiting = (State.resetWith cfg).waiting := rfl
@[simp] theorem State.initial_program (cfg : Config) (p : List HostAccess) (q : List Turn) :
    (State.initial cfg p q).program = p := rfl
@[simp] theorem State.initial_schedule (cfg : Config) (p : List HostAccess) (q : List Turn) :
    (State.initial cfg p q).schedule = q := rfl
@[simp] theorem State.initial_reply (cfg : Config) (p : List HostAccess) (q : List Turn) :
    (State.initial cfg p q).reply = (State.resetWith cfg).reply := rfl
@[simp] theorem State.initial_draws (cfg : Config) (p : List HostAccess) (q : List Turn) :
    (State.initial cfg p q).draws = (State.resetWith cfg).draws := rfl

/-! ### `runPass` -/

@[simp] theorem runPass_cfg (s : State) (ev : List EdgeEvent) : (runPass s ev).cfg = s.cfg := rfl
@[simp] theorem runPass_regs (s : State) (ev : List EdgeEvent) :
    (runPass s ev).regs = { s.regs with
      err := .ok, res0 := if (decExecutePass s.cfg s.dec ev).2.isSome then 1 else 0, res1 := 0 } := rfl
@[simp] theorem runPass_cap (s : State) (ev : List EdgeEvent) : (runPass s ev).cap = s.cap := rfl
@[simp] theorem runPass_bq (s : State) (ev : List EdgeEvent) : (runPass s ev).bq = s.bq := rfl
@[simp] theorem runPass_proc (s : State) (ev : List EdgeEvent) : (runPass s ev).proc = s.proc := rfl
@[simp] theorem runPass_ring (s : State) (ev : List EdgeEvent) : (runPass s ev).ring = s.ring := rfl
@[simp] theorem runPass_dec (s : State) (ev : List EdgeEvent) :
    (runPass s ev).dec = (decExecutePass s.cfg s.dec ev).1 := rfl
@[simp] theorem runPass_tag (s : State) (ev : List EdgeEvent) :
    (runPass s ev).tag = (decExecutePass s.cfg s.dec ev).2.getD s.tag := rfl
@[simp] theorem runPass_mem (s : State) (ev : List EdgeEvent) : (runPass s ev).mem = s.mem := rfl
@[simp] theorem runPass_waiting (s : State) (ev : List EdgeEvent) : (runPass s ev).waiting = s.waiting := rfl
@[simp] theorem runPass_program (s : State) (ev : List EdgeEvent) : (runPass s ev).program = s.program := rfl
@[simp] theorem runPass_schedule (s : State) (ev : List EdgeEvent) : (runPass s ev).schedule = s.schedule := rfl
@[simp] theorem runPass_reply (s : State) (ev : List EdgeEvent) : (runPass s ev).reply = s.reply := rfl
@[simp] theorem runPass_draws (s : State) (ev : List EdgeEvent) : (runPass s ev).draws = s.draws := rfl

/-! ### `Capture.countDrop` -/

@[simp] theorem Capture.countDrop_timEn (c : Capture) : (c.countDrop).timEn = c.timEn := rfl
@[simp] theorem Capture.countDrop_irqEn (c : Capture) : (c.countDrop).irqEn = c.irqEn := rfl
@[simp] theorem Capture.countDrop_cnt (c : Capture) : (c.countDrop).cnt = c.cnt := rfl
@[simp] theorem Capture.countDrop_arr (c : Capture) : (c.countDrop).arr = c.arr := rfl
@[simp] theorem Capture.countDrop_sig (c : Capture) : (c.countDrop).sig = c.sig := rfl
@[simp] theorem Capture.countDrop_ccr (c : Capture) : (c.countDrop).ccr = c.ccr := rfl
@[simp] theorem Capture.countDrop_dmaEn (c : Capture) : (c.countDrop).dmaEn = c.dmaEn := rfl
@[simp] theorem Capture.countDrop_dmaIdx (c : Capture) : (c.countDrop).dmaIdx = c.dmaIdx := rfl
@[simp] theorem Capture.countDrop_capbuf (c : Capture) : (c.countDrop).capbuf = c.capbuf := rfl
@[simp] theorem Capture.countDrop_havePrev (c : Capture) : (c.countDrop).havePrev = c.havePrev := rfl
@[simp] theorem Capture.countDrop_prevCap (c : Capture) : (c.countDrop).prevCap = c.prevCap := rfl
@[simp] theorem Capture.countDrop_dropCnt (c : Capture) : (c.countDrop).dropCnt = c.dropCnt + 1 := rfl
@[simp] theorem Capture.countDrop_ntf (c : Capture) : (c.countDrop).ntf = c.ntf := rfl

/-! ### `Ring.pushed` -/

@[simp] theorem Ring.pushed_valid (r : Ring) (m : Nat) : (r.pushed m).valid = r.valid := rfl
@[simp] theorem Ring.pushed_base (r : Ring) (m : Nat) : (r.pushed m).base = r.base := rfl
@[simp] theorem Ring.pushed_cap (r : Ring) (m : Nat) : (r.pushed m).cap = r.cap := rfl
@[simp] theorem Ring.pushed_esz (r : Ring) (m : Nat) : (r.pushed m).esz = r.esz := rfl
@[simp] theorem Ring.pushed_head (r : Ring) (m : Nat) :
    (r.pushed m).head = BitVec.ofNat 32 ((r.head.toNat + m) % r.endIndex) := rfl
@[simp] theorem Ring.pushed_tail (r : Ring) (m : Nat) : (r.pushed m).tail = r.tail := rfl

/-! ### `Ring.popped` -/

@[simp] theorem Ring.popped_valid (r : Ring) (m : Nat) : (r.popped m).valid = r.valid := rfl
@[simp] theorem Ring.popped_base (r : Ring) (m : Nat) : (r.popped m).base = r.base := rfl
@[simp] theorem Ring.popped_cap (r : Ring) (m : Nat) : (r.popped m).cap = r.cap := rfl
@[simp] theorem Ring.popped_esz (r : Ring) (m : Nat) : (r.popped m).esz = r.esz := rfl
@[simp] theorem Ring.popped_head (r : Ring) (m : Nat) : (r.popped m).head = r.head := rfl
@[simp] theorem Ring.popped_tail (r : Ring) (m : Nat) :
    (r.popped m).tail = BitVec.ofNat 32 ((r.tail.toNat + m) % r.endIndex) := rfl

@[simp] theorem Ring.pushed_endIndex (r : Ring) (m : Nat) : (r.pushed m).endIndex = r.endIndex := rfl
@[simp] theorem Ring.popped_endIndex (r : Ring) (m : Nat) : (r.popped m).endIndex = r.endIndex := rfl
@[simp] theorem Ring.pushed_addr (r : Ring) (m : Nat) : (r.pushed m).addr = r.addr := rfl
@[simp] theorem Ring.popped_addr (r : Ring) (m : Nat) : (r.popped m).addr = r.addr := rfl

/-! ### `Decoder.fullReset` -/

@[simp] theorem Decoder.fullReset_active (d : Decoder) : (d.fullReset).active = d.active := rfl
@[simp] theorem Decoder.fullReset_proto (d : Decoder) : (d.fullReset).proto = d.proto := rfl
@[simp] theorem Decoder.fullReset_halfUs (d : Decoder) : (d.fullReset).halfUs = d.halfUs := rfl
@[simp] theorem Decoder.fullReset_fw0 (d : Decoder) : (d.fullReset).fw0 = 0 := rfl
@[simp] theorem Decoder.fullReset_fw1 (d : Decoder) : (d.fullReset).fw1 = 0 := rfl
@[simp] theorem Decoder.fullReset_fw2 (d : Decoder) : (d.fullReset).fw2 = 0 := rfl
@[simp] theorem Decoder.fullReset_bitCnt (d : Decoder) : (d.fullReset).bitCnt = 0 := rfl
@[simp] theorem Decoder.fullReset_eb (d : Decoder) : (d.fullReset).eb = [] := rfl
@[simp] theorem Decoder.fullReset_winLen (d : Decoder) : (d.fullReset).winLen = 0 := rfl
@[simp] theorem Decoder.fullReset_winSym (d : Decoder) : (d.fullReset).winSym = 0 := rfl

/-! ### `Decoder.partialReset` -/

@[simp] theorem Decoder.partialReset_active (d : Decoder) : (d.partialReset).active = d.active := rfl
@[simp] theorem Decoder.partialReset_proto (d : Decoder) : (d.partialReset).proto = d.proto := rfl
@[simp] theorem Decoder.partialReset_halfUs (d : Decoder) : (d.partialReset).halfUs = d.halfUs := rfl
@[simp] theorem Decoder.partialReset_fw0 (d : Decoder) : (d.partialReset).fw0 = d.fw0 := rfl
@[simp] theorem Decoder.partialReset_fw1 (d : Decoder) : (d.partialReset).fw1 = d.fw1 := rfl
@[simp] theorem Decoder.partialReset_fw2 (d : Decoder) : (d.partialReset).fw2 = d.fw2 := rfl
@[simp] theorem Decoder.partialReset_bitCnt (d : Decoder) : (d.partialReset).bitCnt = 0 := rfl
@[simp] theorem Decoder.partialReset_eb (d : Decoder) : (d.partialReset).eb = [] := rfl
@[simp] theorem Decoder.partialReset_winLen (d : Decoder) : (d.partialReset).winLen = 0 := rfl
@[simp] theorem Decoder.partialReset_winSym (d : Decoder) : (d.partialReset).winSym = d.winSym := rfl

/-! ### `Decoder.emptyWindow` -/

@[simp] theorem Decoder.emptyWindow_active (d : Decoder) : (d.emptyWindow).active = d.active := rfl
@[simp] theorem Decoder.emptyWindow_proto (d : Decoder) : (d.emptyWindow).proto = d.proto := rfl
@[simp] theorem Decoder.emptyWindow_halfUs (d : Decoder) : (d.emptyWindow).halfUs = d.halfUs := rfl
@[simp] theorem Decoder.emptyWindow_fw0 (d : Decoder) : (d.emptyWindow).fw0 = d.fw0 := rfl
@[simp] theorem Decoder.emptyWindow_fw1 (d : Decoder) : (d.emptyWindow).fw1 = d.fw1 := rfl
@[simp] theorem Decoder.emptyWindow_fw2 (d : Decoder) : (d.emptyWindow).fw2 = d.fw2 := rfl
@[simp] theorem Decoder.emptyWindow_bitCnt (d : Decoder) : (d.emptyWindow).bitCnt = d.bitCnt := rfl
@[simp] theorem Decoder.emptyWindow_eb (d : Decoder) : (d.emptyWindow).eb = d.eb := rfl
@[simp] theorem Decoder.emptyWindow_winLen (d : Decoder) : (d.emptyWindow).winLen = 0 := rfl
@[simp] theorem Decoder.emptyWindow_winSym (d : Decoder) : (d.emptyWindow).winSym = d.winSym := rfl

/-! ### `Decoder.shiftIn64` -/

@[simp] theorem Decoder.shiftIn64_active (d : Decoder) (b : Bool) : (d.shiftIn64 b).active = d.active := rfl
@[simp] theorem Decoder.shiftIn64_proto (d : Decoder) (b : Bool) : (d.shiftIn64 b).proto = d.proto := rfl
@[simp] theorem Decoder.shiftIn64_halfUs (d : Decoder) (b : Bool) : (d.shiftIn64 b).halfUs = d.halfUs := rfl
@[simp] theorem Decoder.shiftIn64_fw0 (d : Decoder) (b : Bool) :
    (d.shiftIn64 b).fw0 = (shiftInBit d.frame64 b).extractLsb' 32 32 := rfl
@[simp] theorem Decoder.shiftIn64_fw1 (d : Decoder) (b : Bool) :
    (d.shiftIn64 b).fw1 = (shiftInBit d.frame64 b).extractLsb' 0 32 := rfl
@[simp] theorem Decoder.shiftIn64_fw2 (d : Decoder) (b : Bool) : (d.shiftIn64 b).fw2 = d.fw2 := rfl
@[simp] theorem Decoder.shiftIn64_bitCnt (d : Decoder) (b : Bool) :
    (d.shiftIn64 b).bitCnt = min (d.bitCnt + 1) 64 := rfl
@[simp] theorem Decoder.shiftIn64_eb (d : Decoder) (b : Bool) : (d.shiftIn64 b).eb = d.eb := rfl
@[simp] theorem Decoder.shiftIn64_winLen (d : Decoder) (b : Bool) : (d.shiftIn64 b).winLen = d.winLen := rfl
@[simp] theorem Decoder.shiftIn64_winSym (d : Decoder) (b : Bool) : (d.shiftIn64 b).winSym = d.winSym := rfl

/-! ### `Decoder.shiftIn96` -/

@[simp] theorem Decoder.shiftIn96_active (d : Decoder) (b : Bool) : (d.shiftIn96 b).active = d.active := rfl
@[simp] theorem Decoder.shiftIn96_proto (d : Decoder) (b : Bool) : (d.shiftIn96 b).proto = d.proto := rfl
@[simp] theorem Decoder.shiftIn96_halfUs (d : Decoder) (b : Bool) : (d.shiftIn96 b).halfUs = d.halfUs := rfl
@[simp] theorem Decoder.shiftIn96_fw0 (d : Decoder) (b : Bool) :
    (d.shiftIn96 b).fw0 = (shiftInBit d.frame96 b).extractLsb' 64 32 := rfl
@[simp] theorem Decoder.shiftIn96_fw1 (d : Decoder) (b : Bool) :
    (d.shiftIn96 b).fw1 = (shiftInBit d.frame96 b).extractLsb' 32 32 := rfl
@[simp] theorem Decoder.shiftIn96_fw2 (d : Decoder) (b : Bool) :
    (d.shiftIn96 b).fw2 = (shiftInBit d.frame96 b).extractLsb' 0 32 := rfl
@[simp] theorem Decoder.shiftIn96_bitCnt (d : Decoder) (b : Bool) :
    (d.shiftIn96 b).bitCnt = min (d.bitCnt + 1) 96 := rfl
@[simp] theorem Decoder.shiftIn96_eb (d : Decoder) (b : Bool) : (d.shiftIn96 b).eb = d.eb := rfl
@[simp] theorem Decoder.shiftIn96_winLen (d : Decoder) (b : Bool) : (d.shiftIn96 b).winLen = d.winLen := rfl
@[simp] theorem Decoder.shiftIn96_winSym (d : Decoder) (b : Bool) : (d.shiftIn96 b).winSym = d.winSym := rfl

/-! ### Updates that branch: the fields no branch touches -/

@[simp] theorem timerTurn_cfg (s : State) : (timerTurn s).cfg = s.cfg := by
  unfold timerTurn; split <;> rfl
@[simp] theorem timerTurn_regs (s : State) : (timerTurn s).regs = s.regs := by
  unfold timerTurn; split <;> rfl
@[simp] theorem timerTurn_bq (s : State) : (timerTurn s).bq = s.bq := by
  unfold timerTurn; split <;> rfl
@[simp] theorem timerTurn_proc (s : State) : (timerTurn s).proc = s.proc := by
  unfold timerTurn; split <;> rfl
@[simp] theorem timerTurn_ring (s : State) : (timerTurn s).ring = s.ring := by
  unfold timerTurn; split <;> rfl
@[simp] theorem timerTurn_dec (s : State) : (timerTurn s).dec = s.dec := by
  unfold timerTurn; split <;> rfl
@[simp] theorem timerTurn_tag (s : State) : (timerTurn s).tag = s.tag := by
  unfold timerTurn; split <;> rfl
@[simp] theorem timerTurn_mem (s : State) : (timerTurn s).mem = s.mem := by
  unfold timerTurn; split <;> rfl
@[simp] theorem timerTurn_waiting (s : State) : (timerTurn s).waiting = s.waiting := by
  unfold timerTurn; split <;> rfl
@[simp] theorem timerTurn_program (s : State) : (timerTurn s).program = s.program := by
  unfold timerTurn; split <;> rfl
@[simp] theorem timerTurn_schedule (s : State) : (timerTurn s).schedule = s.schedule := by
  unfold timerTurn; split <;> rfl
@[simp] theorem timerTurn_reply (s : State) : (timerTurn s).reply = s.reply := by
  unfold timerTurn; split <;> rfl
@[simp] theorem timerTurn_draws (s : State) : (timerTurn s).draws = s.draws := by
  unfold timerTurn; split <;> rfl

@[simp] theorem bqPush_cfg (s : State) (b : Bool) : (bqPush s b).cfg = s.cfg := by
  unfold bqPush; split <;> rfl
@[simp] theorem bqPush_regs (s : State) (b : Bool) : (bqPush s b).regs = s.regs := by
  unfold bqPush; split <;> rfl
@[simp] theorem bqPush_proc (s : State) (b : Bool) : (bqPush s b).proc = s.proc := by
  unfold bqPush; split <;> rfl
@[simp] theorem bqPush_ring (s : State) (b : Bool) : (bqPush s b).ring = s.ring := by
  unfold bqPush; split <;> rfl
@[simp] theorem bqPush_dec (s : State) (b : Bool) : (bqPush s b).dec = s.dec := by
  unfold bqPush; split <;> rfl
@[simp] theorem bqPush_tag (s : State) (b : Bool) : (bqPush s b).tag = s.tag := by
  unfold bqPush; split <;> rfl
@[simp] theorem bqPush_mem (s : State) (b : Bool) : (bqPush s b).mem = s.mem := by
  unfold bqPush; split <;> rfl
@[simp] theorem bqPush_waiting (s : State) (b : Bool) : (bqPush s b).waiting = s.waiting := by
  unfold bqPush; split <;> rfl
@[simp] theorem bqPush_program (s : State) (b : Bool) : (bqPush s b).program = s.program := by
  unfold bqPush; split <;> rfl
@[simp] theorem bqPush_schedule (s : State) (b : Bool) : (bqPush s b).schedule = s.schedule := by
  unfold bqPush; split <;> rfl
@[simp] theorem bqPush_reply (s : State) (b : Bool) : (bqPush s b).reply = s.reply := by
  unfold bqPush; split <;> rfl
@[simp] theorem bqPush_draws (s : State) (b : Bool) : (bqPush s b).draws = s.draws := by
  unfold bqPush; split <;> rfl

@[simp] theorem edge_cfg (s : State) : (edge s).cfg = s.cfg := by
  simp only [edge]; repeat' split
  all_goals simp
@[simp] theorem edge_regs (s : State) : (edge s).regs = s.regs := by
  simp only [edge]; repeat' split
  all_goals simp
@[simp] theorem edge_proc (s : State) : (edge s).proc = s.proc := by
  simp only [edge]; repeat' split
  all_goals simp
@[simp] theorem edge_ring (s : State) : (edge s).ring = s.ring := by
  simp only [edge]; repeat' split
  all_goals simp
@[simp] theorem edge_dec (s : State) : (edge s).dec = s.dec := by
  simp only [edge]; repeat' split
  all_goals simp
@[simp] theorem edge_tag (s : State) : (edge s).tag = s.tag := by
  simp only [edge]; repeat' split
  all_goals simp
@[simp] theorem edge_mem (s : State) : (edge s).mem = s.mem := by
  simp only [edge]; repeat' split
  all_goals simp
@[simp] theorem edge_waiting (s : State) : (edge s).waiting = s.waiting := by
  simp only [edge]; repeat' split
  all_goals simp
@[simp] theorem edge_program (s : State) : (edge s).program = s.program := by
  simp only [edge]; repeat' split
  all_goals simp
@[simp] theorem edge_schedule (s : State) : (edge s).schedule = s.schedule := by
  simp only [edge]; repeat' split
  all_goals simp
@[simp] theorem edge_reply (s : State) : (edge s).reply = s.reply := by
  simp only [edge]; repeat' split
  all_goals simp
@[simp] theorem edge_draws (s : State) : (edge s).draws = s.draws := by
  simp only [edge]; repeat' split
  all_goals simp


@[simp] theorem dmaDisable_cfg (s : State) : (dmaDisable s).2.cfg = s.cfg := by
  simp only [dmaDisable]; repeat' split
  all_goals rfl
@[simp] theorem dmaDisable_regs (s : State) : (dmaDisable s).2.regs = s.regs := by
  simp only [dmaDisable]; repeat' split
  all_goals rfl
@[simp] theorem dmaDisable_bq (s : State) : (dmaDisable s).2.bq = s.bq := by
  simp only [dmaDisable]; repeat' split
  all_goals rfl
@[simp] theorem dmaDisable_proc (s : State) : (dmaDisable s).2.proc = s.proc := by
  simp only [dmaDisable]; repeat' split
  all_goals rfl
@[simp] theorem dmaDisable_ring (s : State) : (dmaDisable s).2.ring = s.ring := by
  simp only [dmaDisable]; repeat' split
  all_goals rfl
@[simp] theorem dmaDisable_dec (s : State) : (dmaDisable s).2.dec = s.dec := by
  simp only [dmaDisable]; repeat' split
  all_goals rfl
@[simp] theorem dmaDisable_tag (s : State) : (dmaDisable s).2.tag = s.tag := by
  simp only [dmaDisable]; repeat' split
  all_goals rfl
@[simp] theorem dmaDisable_mem (s : State) : (dmaDisable s).2.mem = s.mem := by
  simp only [dmaDisable]; repeat' split
  all_goals rfl
@[simp] theorem dmaDisable_waiting (s : State) : (dmaDisable s).2.waiting = s.waiting := by
  simp only [dmaDisable]; repeat' split
  all_goals rfl
@[simp] theorem dmaDisable_program (s : State) : (dmaDisable s).2.program = s.program := by
  simp only [dmaDisable]; repeat' split
  all_goals rfl
@[simp] theorem dmaDisable_schedule (s : State) : (dmaDisable s).2.schedule = s.schedule := by
  simp only [dmaDisable]; repeat' split
  all_goals rfl
@[simp] theorem dmaDisable_reply (s : State) : (dmaDisable s).2.reply = s.reply := by
  simp only [dmaDisable]; repeat' split
  all_goals rfl

@[simp] theorem Decoder.winPush_active (d : Decoder) (b : Bool) : (d.winPush b).active = d.active := by
  unfold Decoder.winPush; split <;> rfl
@[simp] theorem Decoder.winPush_proto (d : Decoder) (b : Bool) : (d.winPush b).proto = d.proto := by
  unfold Decoder.winPush; split <;> rfl
@[simp] theorem Decoder.winPush_halfUs (d : Decoder) (b : Bool) : (d.winPush b).halfUs = d.halfUs := by
  unfold Decoder.winPush; split <;> rfl
@[simp] theorem Decoder.winPush_fw0 (d : Decoder) (b : Bool) : (d.winPush b).fw0 = d.fw0 := by
  unfold Decoder.winPush; split <;> rfl
@[simp] theorem Decoder.winPush_fw1 (d : Decoder) (b : Bool) : (d.winPush b).fw1 = d.fw1 := by
  unfold Decoder.winPush; split <;> rfl
@[simp] theorem Decoder.winPush_fw2 (d : Decoder) (b : Bool) : (d.winPush b).fw2 = d.fw2 := by
  unfold Decoder.winPush; split <;> rfl
@[simp] theorem Decoder.winPush_bitCnt (d : Decoder) (b : Bool) : (d.winPush b).bitCnt = d.bitCnt := by
  unfold Decoder.winPush; split <;> rfl
@[simp] theorem Decoder.winPush_eb (d : Decoder) (b : Bool) : (d.winPush b).eb = d.eb := by
  unfold Decoder.winPush; split <;> rfl

end Sys2Proof.Machine
end

