-- ==== Sys2Proof/Laws/Ring.lean ====
section
/-! SUPPORT. The ring as a queue of bytes: where its addresses lie, how much it holds, and what a put, an insert and an
advance do to it. -/

namespace Sys2Proof.Machine

/-! ### Geometry -/

section geometry
variable {size : Nat} {r : Ring}

theorem Ring.Inv.endIndex_pos (h : r.Inv size) (hv : r.valid = true) : 0 < r.endIndex := by
  obtain ⟨h1, h2, _⟩ := h hv
  exact Nat.mul_pos (by omega) (by omega)

/-- Every byte of the storage is inside MEM. -/
theorem Ring.Inv.addr_lt (h : r.Inv size) (hv : r.valid = true) (off j : Nat) : r.addr off j < size := by
  have := Nat.mod_lt (off + j) (h.endIndex_pos hv)
  have := (h hv).2.2.1
  simp only [Ring.addr]
  omega

/-- An address of the storage. -/
theorem Ring.Inv.addr_mem (h : r.Inv size) (hv : r.valid = true) (off j : Nat) :
    r.base.toNat ≤ r.addr off j ∧ r.addr off j < r.base.toNat + r.endIndex := by
  have := Nat.mod_lt (off + j) (h.endIndex_pos hv)
  simp only [Ring.addr]
  omega

theorem Ring.addr_add (off i j : Nat) : r.addr (off + i) j = r.addr off (i + j) := by
  simp only [Ring.addr, Nat.add_assoc]

theorem Ring.addr_mod (off j : Nat) : r.addr (off % r.endIndex) j = r.addr off j := by
  simp only [Ring.addr, Nat.mod_add_mod]

/-- Two bytes less than the storage apart lie at different addresses. -/
theorem Ring.addr_inj {off j k : Nat} (hj : j < r.endIndex) (hk : k < r.endIndex)
    (h : r.addr off j = r.addr off k) : j = k := by
  have h' : (off + j) % r.endIndex = (off + k) % r.endIndex := by simpa [Ring.addr] using h
  have := Nat.ModEq.add_left_cancel' off (show off + j ≡ off + k [MOD r.endIndex] from h')
  rw [Nat.ModEq, Nat.mod_eq_of_lt hj, Nat.mod_eq_of_lt hk] at this
  exact this

theorem Ring.esz_dvd_endIndex : r.esz.toNat ∣ r.endIndex := Nat.dvd_mul_left ..

theorem mod_mod_of_dvd' {a m z : Nat} (hz : z ∣ m) (ha : z ∣ a) : a % m % z = 0 := by
  rw [Nat.mod_mod_of_dvd _ hz]; exact Nat.mod_eq_zero_of_dvd ha

theorem Ring.Inv.esz_dvd_head (h : r.Inv size) (hv : r.valid = true) : r.esz.toNat ∣ r.head.toNat :=
  Nat.dvd_of_mod_eq_zero (h hv).2.2.2.2.2.1

theorem Ring.Inv.esz_dvd_tail (h : r.Inv size) (hv : r.valid = true) : r.esz.toNat ∣ r.tail.toNat :=
  Nat.dvd_of_mod_eq_zero (h hv).2.2.2.2.2.2

/-- An offset below the storage size fits its register. -/
theorem Ring.Inv.ofNat_toNat (h : r.Inv size) (hv : r.valid = true) (hs : size ≤ 2 ^ 32) (m : Nat) :
    (BitVec.ofNat 32 (m % r.endIndex)).toNat = m % r.endIndex := by
  have := Nat.mod_lt m (h.endIndex_pos hv)
  have := (h hv).2.2.1
  rw [BitVec.toNat_ofNat, Nat.mod_eq_of_lt]
  omega

/-- Moving the head by whole elements keeps the invariants. -/
theorem Ring.Inv.pushed (h : r.Inv size) (hs : size ≤ 2 ^ 32) {m : Nat} (hm : r.esz.toNat ∣ m) :
    (r.pushed m).Inv size := by
  intro hv
  have hv' : r.valid = true := hv
  obtain ⟨h1, h2, h3, h4, h5, h6, h7⟩ := h hv'
  refine ⟨h1, h2, h3, ?_, h5, ?_, h7⟩
  · simp only [Ring.pushed_head, Ring.pushed_endIndex, h.ofNat_toNat hv' hs]
    exact Nat.mod_lt _ (h.endIndex_pos hv')
  · simp only [Ring.pushed_head, Ring.pushed_esz, h.ofNat_toNat hv' hs]
    exact mod_mod_of_dvd' Ring.esz_dvd_endIndex (Nat.dvd_add (h.esz_dvd_head hv') hm)

/-- Moving the tail by whole elements keeps the invariants. -/
theorem Ring.Inv.popped (h : r.Inv size) (hs : size ≤ 2 ^ 32) {m : Nat} (hm : r.esz.toNat ∣ m) :
    (r.popped m).Inv size := by
  intro hv
  have hv' : r.valid = true := hv
  obtain ⟨h1, h2, h3, h4, h5, h6, h7⟩ := h hv'
  refine ⟨h1, h2, h3, h4, ?_, h6, ?_⟩
  · simp only [Ring.popped_tail, Ring.popped_endIndex, h.ofNat_toNat hv' hs]
    exact Nat.mod_lt _ (h.endIndex_pos hv')
  · simp only [Ring.popped_tail, Ring.popped_esz, h.ofNat_toNat hv' hs]
    exact mod_mod_of_dvd' Ring.esz_dvd_endIndex (Nat.dvd_add (h.esz_dvd_tail hv') hm)

/-! ### Occupancy -/

/-- The bytes held. -/
theorem Ring.Inv.occ_mul (h : r.Inv size) (hv : r.valid = true) :
    r.occ * r.esz.toNat = subMod r.head.toNat r.tail.toNat r.endIndex := by
  obtain ⟨h1, h2, h3, h4, h5, h6, h7⟩ := h hv
  unfold Ring.occ
  apply Nat.div_mul_cancel
  rw [subMod_of_lt h4 h5]
  split
  · exact Nat.dvd_sub (h.esz_dvd_head hv) (h.esz_dvd_tail hv)
  · exact Nat.dvd_sub (Nat.dvd_add (h.esz_dvd_head hv) Ring.esz_dvd_endIndex) (h.esz_dvd_tail hv)

/-- `(tail + bytes held) mod RB_END` is the head. -/
theorem Ring.Inv.tail_add_occ (h : r.Inv size) (hv : r.valid = true) :
    (r.tail.toNat + r.occ * r.esz.toNat) % r.endIndex = r.head.toNat := by
  obtain ⟨h1, h2, h3, h4, h5, h6, h7⟩ := h hv
  rw [h.occ_mul hv, subMod_of_lt h4 h5]
  split
  · rw [Nat.mod_eq_of_lt (by omega)]; omega
  · rw [show r.tail.toNat + (r.head.toNat + r.endIndex - r.tail.toNat) = r.head.toNat + r.endIndex by omega,
      Nat.add_mod_right, Nat.mod_eq_of_lt h4]

theorem Ring.Inv.occ_mul_lt (h : r.Inv size) (hv : r.valid = true) : r.occ * r.esz.toNat < r.endIndex := by
  rw [h.occ_mul hv]; exact subMod_lt _ _ _ (h.endIndex_pos hv)

/-- One slot is kept free. -/
theorem Ring.Inv.occ_lt_cap (h : r.Inv size) (hv : r.valid = true) : r.occ < r.cap.toNat :=
  Nat.lt_of_mul_lt_mul_right (h.occ_mul_lt hv)

theorem Ring.Inv.occ_add_free (h : r.Inv size) (hv : r.valid = true) : r.occ + r.free + 1 = r.cap.toNat := by
  have := h.occ_lt_cap hv
  unfold Ring.free
  omega

/-- The bytes held, told by a tail, a number of bytes and the head they lead to. -/
theorem Ring.occ_eq_of {n : Nat} (h : r.Inv size) (hv : r.valid = true) (hn : n < r.cap.toNat)
    (he : (r.tail.toNat + n * r.esz.toNat) % r.endIndex = r.head.toNat) : r.occ = n := by
  have h2 := (h hv).2.1
  have hlt : n * r.esz.toNat < r.endIndex := Nat.mul_lt_mul_of_pos_right hn (by omega)
  have := h.tail_add_occ hv
  rw [← he] at this
  have := Nat.ModEq.add_left_cancel' _ this
  rw [Nat.ModEq, Nat.mod_eq_of_lt (h.occ_mul_lt hv), Nat.mod_eq_of_lt hlt] at this
  exact Nat.eq_of_mul_eq_mul_right (by omega) this

/-- A put of `k` elements that fit adds `k` to what the ring holds. -/
theorem Ring.Inv.occ_pushed (h : r.Inv size) (hv : r.valid = true) (hs : size ≤ 2 ^ 32) {k : Nat} (hk : k ≤ r.free) :
    (r.pushed (k * r.esz.toNat)).occ = r.occ + k := by
  have hi := h.pushed hs (Nat.dvd_mul_left r.esz.toNat k)
  have hf := h.occ_add_free hv
  refine Ring.occ_eq_of hi hv (by simp only [Ring.pushed_cap]; omega) ?_
  simp only [Ring.pushed_tail, Ring.pushed_esz, Ring.pushed_endIndex, Ring.pushed_head, h.ofNat_toNat hv hs]
  rw [Nat.add_mul, ← Nat.add_assoc, Nat.add_mod, h.tail_add_occ hv, Nat.add_mod_mod]

/-- An advance by `k` elements held takes `k` from what the ring holds. -/
theorem Ring.Inv.occ_popped (h : r.Inv size) (hv : r.valid = true) (hs : size ≤ 2 ^ 32) {k : Nat} (hk : k ≤ r.occ) :
    (r.popped (k * r.esz.toNat)).occ = r.occ - k := by
  have hi := h.popped hs (Nat.dvd_mul_left r.esz.toNat k)
  have hf := h.occ_add_free hv
  refine Ring.occ_eq_of hi hv (by simp only [Ring.popped_cap]; omega) ?_
  simp only [Ring.popped_tail, Ring.popped_esz, Ring.popped_endIndex, Ring.popped_head, h.ofNat_toNat hv hs]
  rw [Nat.mod_add_mod, Nat.add_assoc, ← Nat.add_mul, Nat.add_sub_cancel' hk, h.tail_add_occ hv]

end geometry

/-! ### The bytes held -/

@[simp] theorem State.ringBytes_length (s : State) : s.ringBytes.length = s.ring.occ * s.ring.esz.toNat := by
  simp [State.ringBytes]

/-- What the ring holds depends on the ring and on MEM alone. -/
theorem State.ringBytes_congr {s t : State} (hr : t.ring = s.ring) (hm : t.mem = s.mem) : t.ringBytes = s.ringBytes := by
  simp [State.ringBytes, hr, hm]

/-- An advance by `k` elements held drops them. -/
theorem ringBytes_popped {s t : State} {size k : Nat} (h : s.ring.Inv size) (hv : s.ring.valid = true)
    (hs : size ≤ 2 ^ 32) (hk : k ≤ s.ring.occ) (hr : t.ring = s.ring.popped (k * s.ring.esz.toNat))
    (hm : t.mem = s.mem) : t.ringBytes = s.ringBytes.drop (k * s.ring.esz.toNat) := by
  apply List.ext_getElem
  · simp only [State.ringBytes_length, List.length_drop, hr, h.occ_popped hv hs hk, Ring.popped_esz, Nat.sub_mul]
  · intro i h1 h2
    simp only [State.ringBytes, List.getElem_map, List.getElem_range, List.getElem_drop, hr, hm,
      Ring.popped_addr, Ring.popped_tail, h.ofNat_toNat hv hs, Ring.addr_mod, Ring.addr_add]

/-- Bytes put at the head, where they fit, are held last. -/
theorem ringBytes_pushed {s t : State} {size k : Nat} {bytes : List Byte} (h : s.ring.Inv size)
    (hv : s.ring.valid = true) (hs : size ≤ 2 ^ 32) (hk : k ≤ s.ring.free)
    (hlen : bytes.length = k * s.ring.esz.toNat) (hr : t.ring = s.ring.pushed (k * s.ring.esz.toNat))
    (hnew : ∀ j < bytes.length, memByte t.mem (s.ring.addr s.ring.head.toNat j) = bytes.getD j 0)
    (hold : ∀ j < s.ring.occ * s.ring.esz.toNat,
      memByte t.mem (s.ring.addr s.ring.tail.toNat j) = memByte s.mem (s.ring.addr s.ring.tail.toNat j)) :
    t.ringBytes = s.ringBytes ++ bytes := by
  have hocc : t.ring.occ = s.ring.occ + k := by rw [hr]; exact h.occ_pushed hv hs hk
  have hesz : t.ring.esz = s.ring.esz := by rw [hr]; rfl
  apply List.ext_getElem
  · simp only [State.ringBytes_length, List.length_append, hocc, hesz, hlen, Nat.add_mul]
  · intro i h1 h2
    simp only [State.ringBytes, List.getElem_map, List.getElem_range, hr, Ring.pushed_addr, Ring.pushed_tail]
    rw [List.getElem_append]
    split
    · rename_i hi
      simp only [List.length_map, List.length_range] at hi
      simp only [List.getElem_map, List.getElem_range]
      exact hold i hi
    · rename_i hi
      simp only [List.length_map, List.length_range] at hi ⊢
      have hi2 : i - s.ring.occ * s.ring.esz.toNat < bytes.length := by
        simp only [State.ringBytes_length, hocc, hesz, Nat.add_mul] at h1
        omega
      have := hnew _ hi2
      rw [List.getD_eq_getElem _ _ hi2] at this
      rw [← this, ← h.tail_add_occ hv, Ring.addr_mod, Ring.addr_add]
      congr 2
      omega

/-- The bytes put at the head and the bytes held lie apart. -/
theorem Ring.Inv.addr_head_ne_tail {size k : Nat} {r : Ring} (h : r.Inv size) (hv : r.valid = true)
    (hk : k ≤ r.free) {i j : Nat} (hi : i < k * r.esz.toNat) (hj : j < r.occ * r.esz.toNat) :
    r.addr r.tail.toNat j ≠ r.addr r.head.toNat i := by
  have hf := h.occ_add_free hv
  have h2 := (h hv).2.1
  have htot : r.occ * r.esz.toNat + k * r.esz.toNat < r.endIndex := by
    rw [← Nat.add_mul]
    exact Nat.mul_lt_mul_of_pos_right (by omega) (by omega)
  intro he
  rw [← h.tail_add_occ hv, Ring.addr_mod, Ring.addr_add] at he
  have := Ring.addr_inj (by omega) (by omega) he
  omega

/-! ### The shared operations -/

/-- Everything `RingPut` does with whole elements that fit: it goes through, moves the head, keeps the invariants and
the canonical form, changes no byte but those it stores, and the ring then holds the bytes last. -/
theorem ringPut_spec {s : State} {k : Nat} {bytes : List Byte} (h : s.ring.Inv s.cfg.memSize)
    (hv : s.ring.valid = true) (hs : s.cfg.memSize ≤ 2 ^ 32) (hk : k ≤ s.ring.free)
    (hlen : bytes.length = k * s.ring.esz.toNat) :
    ∃ m, ringPut s bytes = some { s with mem := m, ring := s.ring.pushed (k * s.ring.esz.toNat) }
      ∧ (s.ring.pushed (k * s.ring.esz.toNat)).Inv s.cfg.memSize
      ∧ (Memory.wf s.cfg.memSize s.mem → Memory.wf s.cfg.memSize m)
      ∧ (∀ j < bytes.length, memByte m (s.ring.addr s.ring.head.toNat j) = bytes.getD j 0)
      ∧ (∀ x, (∀ j < bytes.length, x ≠ s.ring.addr s.ring.head.toNat j) → memByte m x = memByte s.mem x)
      ∧ State.ringBytes { s with mem := m, ring := s.ring.pushed (k * s.ring.esz.toNat) } = s.ringBytes ++ bytes := by
  obtain ⟨m, hm⟩ := storeBytes_of_lt (size := s.cfg.memSize) (dst := s.ring.addr s.ring.head.toNat) (l := bytes)
    (j := 0) (m := s.mem) (fun j _ => h.addr_lt hv _ _)
  obtain ⟨_, hwf, hframe, hval⟩ := storeBytes_eq_some hm
  simp only [Nat.zero_add] at hframe hval
  have hf := h.occ_add_free hv
  have h2 := (h hv).2.1
  have hlt : bytes.length < s.ring.endIndex := by
    rw [hlen]; exact Nat.mul_lt_mul_of_pos_right (by omega) (by omega)
  have hnew := hval fun i hi j hj he => Ring.addr_inj (by omega) (by omega) he
  refine ⟨m, ?_, h.pushed hs (Nat.dvd_mul_left ..), hwf, hnew, hframe, ?_⟩
  · simp [ringPut, hm, hlen]
  · refine ringBytes_pushed h hv hs hk hlen rfl hnew fun j hj => hframe _ fun i hi => ?_
    exact h.addr_head_ne_tail hv hk (by omega) hj

/-- Everything the eviction of `RingInsert` does: the invariants are kept, there is room for one element, and what the
ring holds has lost its oldest element where the ring was full. -/
theorem ringEvict_spec {s : State} (h : s.ring.Inv s.cfg.memSize) (hv : s.ring.valid = true)
    (hs : s.cfg.memSize ≤ 2 ^ 32) :
    (ringEvict s).ring.Inv s.cfg.memSize ∧ (ringEvict s).ring.valid = true ∧ 1 ≤ (ringEvict s).ring.free
      ∧ (ringEvict s).ringBytes = if s.ring.free = 0 then s.ringBytes.drop s.ring.esz.toNat else s.ringBytes := by
  have hcap := (h hv).1
  have hf := h.occ_add_free hv
  by_cases h0 : s.ring.free = 0
  · have hocc : 1 ≤ s.ring.occ := by omega
    have hring : (ringEvict s).ring = s.ring.popped (1 * s.ring.esz.toNat) := by simp [h0]
    refine ⟨?_, by simp [h0, hv], ?_, ?_⟩
    · rw [hring]; exact h.popped hs (Nat.dvd_mul_left ..)
    · rw [hring]
      simp only [Ring.free, Ring.popped_cap, h.occ_popped hv hs hocc]
      omega
    · rw [if_pos h0, ringBytes_popped h hv hs hocc hring rfl, Nat.one_mul]
  · have hring : (ringEvict s).ring = s.ring := by simp [h0]
    rw [if_neg h0, hring]
    exact ⟨h, hv, by omega, State.ringBytes_congr hring rfl⟩

/-- The slot that is written lies where it lay before the eviction. -/
theorem ringEvict_slot (s : State) :
    (ringEvict s).ring.esz = s.ring.esz
    ∧ (ringEvict s).ring.addr (ringEvict s).ring.head.toNat = s.ring.addr s.ring.head.toNat := by
  by_cases h0 : s.ring.free = 0 <;> simp [h0]

/-- What the ring holds once an element stands at the head of MEM `m`, the oldest evicted where the ring was full: that
element comes last. -/
theorem ringBytes_inserted {s : State} {m : Memory} (h : s.ring.Inv s.cfg.memSize) (hv : s.ring.valid = true)
    (hs : s.cfg.memSize ≤ 2 ^ 32)
    (hframe : ∀ x, (∀ j < s.ring.esz.toNat, x ≠ s.ring.addr s.ring.head.toNat j) → memByte m x = memByte s.mem x) :
    ((ringEvict s).ring.pushed s.ring.esz.toNat).Inv s.cfg.memSize
      ∧ State.ringBytes { ringEvict s with mem := m, ring := (ringEvict s).ring.pushed s.ring.esz.toNat } =
          (if s.ring.free = 0 then s.ringBytes.drop s.ring.esz.toNat else s.ringBytes)
          ++ (List.range s.ring.esz.toNat).map fun j => memByte m (s.ring.addr s.ring.head.toNat j) := by
  obtain ⟨hi, hiv, hfree, hbytes⟩ := ringEvict_spec h hv hs
  obtain ⟨hesz, haddr⟩ := ringEvict_slot s
  refine ⟨hi.pushed hs (by rw [hesz]), ?_⟩
  rw [← hbytes]
  refine ringBytes_pushed hi hiv hs hfree (by rw [hesz]; simp) (by simp only [hesz, Nat.one_mul]) ?_ ?_
  · intro j hj
    simp only [List.length_map, List.length_range] at hj
    rw [haddr]
    simp [hj]
  · intro j hj
    refine hframe _ fun i hi' => ?_
    rw [← haddr]
    exact hi.addr_head_ne_tail hiv hfree (by rw [hesz]; omega) hj

/-- What `RingInsert` answers, when it answers: the state after the eviction, with other bytes in MEM and the head moved
on. -/
theorem ringInsert_eq_some {s u : State} {bytes : List Byte} (h : ringInsert s bytes = some u) :
    ∃ m, u = { ringEvict s with mem := m, ring := (ringEvict s).ring.pushed bytes.length } := by
  obtain ⟨m, -, rfl⟩ := Option.map_eq_some_iff.mp h
  exact ⟨m, rfl⟩

/-- Everything `RingInsert` does with one element: it always goes through; on a full ring it first drops the oldest
element and counts it. -/
theorem ringInsert_spec {s : State} {bytes : List Byte} (h : s.ring.Inv s.cfg.memSize)
    (hv : s.ring.valid = true) (hs : s.cfg.memSize ≤ 2 ^ 32) (hlen : bytes.length = s.ring.esz.toNat) :
    ∃ m, ringInsert s bytes =
        some { ringEvict s with mem := m, ring := (ringEvict s).ring.pushed s.ring.esz.toNat }
      ∧ ((ringEvict s).ring.pushed s.ring.esz.toNat).Inv s.cfg.memSize
      ∧ (Memory.wf s.cfg.memSize s.mem → Memory.wf s.cfg.memSize m)
      ∧ (∀ j < s.ring.esz.toNat, memByte m (s.ring.addr s.ring.head.toNat j) = bytes.getD j 0)
      ∧ (∀ x, (∀ j < s.ring.esz.toNat, x ≠ s.ring.addr s.ring.head.toNat j) → memByte m x = memByte s.mem x)
      ∧ State.ringBytes { ringEvict s with mem := m, ring := (ringEvict s).ring.pushed s.ring.esz.toNat } =
          (if s.ring.free = 0 then s.ringBytes.drop s.ring.esz.toNat else s.ringBytes) ++ bytes := by
  obtain ⟨hi, hiv, hfree, hbytes⟩ := ringEvict_spec h hv hs
  obtain ⟨hesz, haddr⟩ := ringEvict_slot s
  obtain ⟨m, hput, hinv, hwf, hnew, hframe, hall⟩ :=
    ringPut_spec (s := ringEvict s) (k := 1) (bytes := bytes) hi hiv hs hfree (by rw [hesz]; omega)
  simp only [Nat.one_mul, hesz, haddr, hlen, hbytes, ringEvict_cfg, ringEvict_mem] at hput hinv hwf hnew hframe hall
  exact ⟨m, hput, hinv, hwf, hnew, hframe, hall⟩

end Sys2Proof.Machine
end

