-- ==== Sys2Proof/Laws/Capture.lean ====
section
/-! SUPPORT. What the operations of the capture path can do, once each: the queue's two ends, the DMA disable, the end
of a block and the element of CAP_PROCESS. -/

namespace Sys2Proof.Machine

/-! ### The block-index queue -/

/-- Everything a push can do. -/
theorem bqPush_cases (s : State) (b : Bool) :
    (s.bq.count = s.cfg.bqDepth ∧ bqPush s b = { s with cap := s.cap.countDrop })
    ∨ (s.bq.count ≠ s.cfg.bqDepth ∧ bqPush s b =
        { s with
          bq :=
            { slots := s.bq.slots.set s.bq.head b, head := (s.bq.head + 1) % s.cfg.bqDepth, tail := s.bq.tail
              count := s.bq.count + 1 } }) := by
  by_cases h : s.bq.count = s.cfg.bqDepth <;> simp [bqPush, h]

/-- Everything a pop can do. -/
theorem bqPop_eq_some {s t : State} {b : Bool} (h : bqPop s = some (b, t)) :
    s.bq.slots[s.bq.tail]? = some b
    ∧ t = { s with bq := { s.bq with tail := (s.bq.tail + 1) % s.cfg.bqDepth, count := s.bq.count - 1 } } := by
  simp only [bqPop, Option.map_eq_some_iff, Prod.mk.injEq] at h
  obtain ⟨b', hb, rfl, rfl⟩ := h
  exact ⟨hb, rfl⟩

/-- A pop goes through where the tail is a slot. -/
theorem bqPop_of_lt {s : State} (h : s.bq.tail < s.bq.slots.length) :
    bqPop s = some (s.bq.slots.getD s.bq.tail false,
      { s with bq := { s.bq with tail := (s.bq.tail + 1) % s.cfg.bqDepth, count := s.bq.count - 1 } }) := by
  simp [bqPop, h]

/-! ### The DMA disable -/

/-- Everything a disable can do: the channel was off already; it is off now; or the time-out. -/
theorem dmaDisable_cases (s : State) :
    (s.cap.dmaEn = false ∧ dmaDisable s = (true, s))
    ∨ (s.cap.dmaEn = true ∧ Config.dmaDisableOk s.draws = true
        ∧ dmaDisable s = (true, { s with draws := s.draws + 1, cap := { s.cap with dmaEn := false } }))
    ∨ (s.cap.dmaEn = true ∧ Config.dmaDisableOk s.draws = false
        ∧ dmaDisable s = (false, { s with draws := s.draws + 1 })) := by
  by_cases he : s.cap.dmaEn = true
  · cases ho : Config.dmaDisableOk s.draws <;> simp [dmaDisable, he, ho]
  · simp only [Bool.not_eq_true] at he
    simp [dmaDisable, he]

/-! ### CAP_PROCESS -/

/-- The clamped width fits its 16 bits. -/
theorem pulseWidth_lt (cur prev arr : Word) : pulseWidth cur prev arr < 2 ^ 16 := by
  unfold pulseWidth; omega

/-- With the clamp out of reach, the width is below the period. -/
theorem pulseWidth_le_arr (cur prev arr : Word) : pulseWidth cur prev arr ≤ arr.toNat := by
  have := subMod_lt cur.toNat prev.toNat (arr.toNat + 1) (by omega)
  unfold pulseWidth; omega

/-- Everything the end of a block can do, when it answers a next state. -/
theorem nextBlock_eq_next {s t : State} {nb nw : Nat} (h : nextBlock s nb nw = .next t) :
    (s.bq.count = 0
      ∧ t = State.succeed { s with proc := .idle } (BitVec.ofNat 32 nb) (BitVec.ofNat 32 nw))
    ∨ (s.bq.count ≠ 0 ∧ ∃ b, s.bq.slots[s.bq.tail]? = some b
      ∧ t = { s with
              bq := { s.bq with tail := (s.bq.tail + 1) % s.cfg.bqDepth, count := s.bq.count - 1 }
              proc := .inblock b 0 (nb + 1) nw }) := by
  unfold nextBlock at h
  split at h
  · cases h; exact .inl ⟨‹_›, rfl⟩
  · split at h
    · cases h
    · rename_i hpop
      cases h
      obtain ⟨hb, rfl⟩ := bqPop_eq_some hpop
      exact .inr ⟨‹_›, _, hb, rfl⟩

/-- The end of a block answers a next state where the tail is a slot. -/
theorem nextBlock_of_lt {s : State} {nb nw : Nat} (h : s.bq.tail < s.bq.slots.length) :
    ∃ t, nextBlock s nb nw = .next t := by
  unfold nextBlock
  split
  · exact ⟨_, rfl⟩
  · rw [bqPop_of_lt h]; exact ⟨_, rfl⟩

/-- Everything the end of ELEM can do. -/
theorem elemNext_eq_next {s t : State} {b : Bool} {i nb nw : Nat} (h : elemNext s b i nb nw = .next t) :
    (i + 1 < s.cfg.blockLen ∧ t = { s with proc := .inblock b (i + 1) nb nw })
    ∨ (s.cfg.blockLen ≤ i + 1 ∧ nextBlock s nb nw = .next t) := by
  unfold elemNext at h
  split at h
  · cases h; exact .inl ⟨‹_›, rfl⟩
  · exact .inr ⟨by omega, h⟩

/-- Everything ELEM can do, when it answers a next state: the slot holds a value; the width is inserted where there is a
previous value; and the element's end comes next. -/
theorem elem_eq_next {s t : State} {b : Bool} {i nb nw : Nat} (h : elem s b i nb nw = .next t) :
    ∃ cur, s.cap.capbuf[captureIndex s.cfg.blockLen b i]? = some (some cur)
      ∧ ((s.cap.havePrev = true ∧ ∃ u,
            ringInsert s (leBytes 2 (pulseWidth cur s.cap.prevCap s.cap.arr)) = some u
            ∧ elemNext (rememberCapture u cur) b i nb (nw + 1) = .next t)
        ∨ (s.cap.havePrev = false ∧ elemNext (rememberCapture s cur) b i nb nw = .next t)) := by
  unfold elem at h
  split at h
  · rename_i cur hcur
    refine ⟨cur, hcur, ?_⟩
    split at h
    · split at h
      · cases h
      · rename_i u hu
        exact .inl ⟨‹_›, u, hu, h⟩
    · rename_i hp; exact .inr ⟨by simpa using hp, h⟩
  · cases h

/-! ### The Edge step -/

/-- Everything an `Edge` step can do: no transfer; a transfer inside a block; the end of block 0; the end of block 1. -/
theorem edge_cases (s : State) :
    (s.cap.dmaEn = false ∧ edge s = latchEdge s)
    ∨ (s.cap.dmaEn = true ∧ s.cap.dmaIdx + 1 ≠ s.cfg.blockLen ∧ s.cap.dmaIdx + 1 ≠ 2 * s.cfg.blockLen
        ∧ edge s = dmaTransfer (latchEdge s))
    ∨ (s.cap.dmaEn = true ∧ s.cap.dmaIdx + 1 = s.cfg.blockLen
        ∧ edge s = blockEvent (dmaTransfer (latchEdge s)) false)
    ∨ (s.cap.dmaEn = true ∧ s.cap.dmaIdx + 1 ≠ s.cfg.blockLen ∧ s.cap.dmaIdx + 1 = 2 * s.cfg.blockLen
        ∧ edge s = blockEvent (dmaWrap (dmaTransfer (latchEdge s))) true) := by
  cases he : s.cap.dmaEn
  · simp [edge, he]
  · by_cases h1 : s.cap.dmaIdx + 1 = s.cfg.blockLen
    · simp [edge, he, h1]
    · by_cases h2 : s.cap.dmaIdx + 1 = 2 * s.cfg.blockLen
      · refine .inr (.inr (.inr ⟨rfl, h1, h2, ?_⟩))
        simp [edge, he, h2, h2 ▸ h1]
      · simp [edge, he, h1, h2]

end Sys2Proof.Machine
end

