-- ==== Sys2Proof/Laws/Decoder.lean ====
section
/-! SUPPORT. What the operations of the decoder can do, once each: the append, the shift, the two passes. -/

namespace Sys2Proof.Machine

/-! ### The edge buffer -/

/-- Everything the append can do: the entries at the end where they fit, an overflow where they do not. -/
theorem appendEntries_eq {bufLen : Nat} {xs : List EdgeEvent} :
    ∀ {eb : List EdgeEvent}, eb.length ≤ bufLen →
      appendEntries bufLen eb xs = if eb.length + xs.length ≤ bufLen then some (eb ++ xs) else none := by
  induction xs with
  | nil => intro eb h; simp [appendEntries, h]
  | cons x rest ih =>
    intro eb h
    simp only [appendEntries, List.length_cons]
    split
    · rw [if_neg (by omega)]
    · rw [ih (by simp only [List.length_append, List.length_singleton]; omega)]
      simp only [List.length_append, List.length_singleton, List.append_assoc, List.singleton_append]
      simp only [Nat.add_assoc, Nat.add_comm 1]

/-! ### The frame buffer -/

/-- The frame after a shift, as one value. -/
theorem Decoder.frame64_shiftIn64 (d : Decoder) (b : Bool) : (d.shiftIn64 b).frame64 = shiftInBit d.frame64 b := by
  simp only [Decoder.frame64, Decoder.shiftIn64_fw0, Decoder.shiftIn64_fw1]
  exact BitVec.eq_of_getLsbD_eq fun i hi => by
    simp only [BitVec.getLsbD_append, BitVec.getLsbD_extractLsb']
    by_cases h : i < 32
    · simp [h]
    · simp only [h, if_false]
      rw [show i - 32 < 32 by omega |> decide_eq_true, show 32 + (i - 32) = i by omega]
      rfl

/-- The frame after a shift, as one value. -/
theorem Decoder.frame96_shiftIn96 (d : Decoder) (b : Bool) : (d.shiftIn96 b).frame96 = shiftInBit d.frame96 b := by
  simp only [Decoder.frame96, Decoder.shiftIn96_fw0, Decoder.shiftIn96_fw1, Decoder.shiftIn96_fw2]
  exact BitVec.eq_of_getLsbD_eq fun i hi => by
    simp only [BitVec.getLsbD_append, BitVec.getLsbD_extractLsb']
    by_cases h : i < 32
    · simp [h]
    · by_cases h' : i - 32 < 32
      · simp only [h, h', if_false, decide_true, Bool.true_and, if_true]
        congr 1; omega
      · simp only [h, h', if_false]
        rw [show i - 32 - 32 < 32 by omega |> decide_eq_true, show 64 + (i - 32 - 32) = i by omega]
        rfl

/-! ### The EM4100 pass -/

/-- Everything the loop of `EmExecute` leaves: the entries less some of the oldest, the bit count within the frame, and
every field it does not own. -/
theorem emPass_spec (cfg : Config) (es : List EdgeEvent) :
    ∀ d : Decoder,
      (∃ n ≤ es.length, (emPass cfg d es).1.eb = es.drop n)
      ∧ (d.bitCnt ≤ 64 → (emPass cfg d es).1.bitCnt ≤ 64)
      ∧ (emPass cfg d es).1.active = d.active ∧ (emPass cfg d es).1.proto = d.proto
      ∧ (emPass cfg d es).1.halfUs = d.halfUs ∧ (emPass cfg d es).1.fw2 = d.fw2
      ∧ (emPass cfg d es).1.winLen = d.winLen ∧ (emPass cfg d es).1.winSym = d.winSym := by
  match es with
  | [] => intro d; simp [emPass]
  | [a] => intro d; simpa [emPass] using ⟨0, by simp⟩
  | a :: b :: rest =>
    intro d
    simp only [emPass]
    split
    · exact ⟨⟨1, by simp, rfl⟩, by simp, rfl, rfl, rfl, rfl, rfl, rfl⟩
    · split
      · refine ⟨⟨2, by simp, rfl⟩, fun h => ?_, rfl, rfl, rfl, rfl, rfl, rfl⟩
        simp only [Decoder.shiftIn64_bitCnt]; omega
      · rename_i x _ _
        obtain ⟨⟨n, hn, he⟩, hb, h1, h2, h3, h4, h5, h6⟩ := emPass_spec cfg rest (d.shiftIn64 x)
        refine ⟨⟨n + 2, by simpa using hn, by simpa using he⟩, fun h => hb ?_, ?_, ?_, ?_, ?_, ?_, ?_⟩
        · simp only [Decoder.shiftIn64_bitCnt]; omega
        all_goals simp [*]

/-! ### The H10301 pass -/

theorem Decoder.winPush_winLen_le (d : Decoder) (b : Bool) (h : d.winLen ≤ 6) : (d.winPush b).winLen ≤ 6 := by
  unfold Decoder.winPush; split <;> simp only <;> omega

/-- Everything the loop of `H10Execute` leaves. -/
theorem h10Pass_spec (cfg : Config) (es : List EdgeEvent) :
    ∀ d : Decoder,
      (∃ n ≤ es.length, (h10Pass cfg d es).1.eb = es.drop n)
      ∧ (d.bitCnt ≤ 96 → (h10Pass cfg d es).1.bitCnt ≤ 96) ∧ (d.winLen ≤ 6 → (h10Pass cfg d es).1.winLen ≤ 6)
      ∧ (h10Pass cfg d es).1.active = d.active ∧ (h10Pass cfg d es).1.proto = d.proto
      ∧ (h10Pass cfg d es).1.halfUs = d.halfUs := by
  match es with
  | [] => intro d; simp [h10Pass]
  | [a] => intro d; simpa [h10Pass] using ⟨0, by simp⟩
  | a :: b :: rest =>
    intro d
    simp only [h10Pass]
    split
    · exact ⟨⟨1, by simp, rfl⟩, by simp, by simp, rfl, rfl, rfl⟩
    · rename_i x _
      split
      · obtain ⟨⟨n, hn, he⟩, hb, hw, h1, h2, h3⟩ := h10Pass_spec cfg rest (d.winPush x)
        refine ⟨⟨n + 2, by simpa using hn, by simpa using he⟩, fun h => hb (by simpa using h),
          fun h => hw (d.winPush_winLen_le x h), ?_, ?_, ?_⟩
        all_goals simp [*]
      · rename_i y _
        split
        · refine ⟨⟨2, by simp, rfl⟩, fun h => ?_, by simp, by simp, by simp, by simp⟩
          simp only [Decoder.shiftIn96_bitCnt]; omega
        · obtain ⟨⟨n, hn, he⟩, hb, hw, h1, h2, h3⟩ :=
            h10Pass_spec cfg rest ((d.winPush x).emptyWindow.shiftIn96 y)
          refine ⟨⟨n + 2, by simpa using hn, by simpa using he⟩, fun h => hb ?_, fun _ => hw (by simp), ?_, ?_, ?_⟩
          · simp only [Decoder.shiftIn96_bitCnt]; omega
          all_goals simp [*]

/-! ### A pass of any protocol -/

/-- The entries a pass adds to the edge buffer. -/
def passEntries (cfg : Config) (d : Decoder) (ev : List EdgeEvent) : List EdgeEvent :=
  match d.proto with
  | .em4100 => ev.flatMap (emNormalise cfg d.halfUs)
  | .em4100Over32 => ev.flatMap (emNormalise cfg d.halfUs)
  | .em4100Over16 => ev.flatMap (emNormalise cfg d.halfUs)
  | .h10301 => ev

/-- Everything a pass can do: the overflow, or the loop of its protocol over the entries. -/
theorem decExecutePass_cases (cfg : Config) (d : Decoder) (ev : List EdgeEvent) (h : d.eb.length ≤ cfg.edgeBufLen) :
    (cfg.edgeBufLen < d.eb.length + (passEntries cfg d ev).length ∧ decExecutePass cfg d ev = (d.fullReset, none))
    ∨ (d.eb.length + (passEntries cfg d ev).length ≤ cfg.edgeBufLen ∧
        decExecutePass cfg d ev =
          if d.proto = .h10301 then h10Pass cfg d (d.eb ++ passEntries cfg d ev)
          else emPass cfg d (d.eb ++ passEntries cfg d ev)) := by
  rcases Nat.lt_or_ge cfg.edgeBufLen (d.eb.length + (passEntries cfg d ev).length) with hlt | hle
  · refine .inl ⟨hlt, ?_⟩
    cases hp : d.proto <;> simp only [passEntries, hp] at hlt <;>
      simp only [decExecutePass, hp, emExecute, h10Execute, appendEntries_eq h] <;>
      rw [if_neg (by omega)]
  · refine .inr ⟨hle, ?_⟩
    cases hp : d.proto <;> simp only [passEntries, hp] at hle <;>
      simp only [decExecutePass, hp, emExecute, h10Execute, appendEntries_eq h, passEntries] <;>
      rw [if_pos (by omega)] <;> simp

end Sys2Proof.Machine
end

