-- ==== Sys2Proof/Laws/Encoding.lean ====
section
/-! SUPPORT. The fields of a command word: what the encoder puts into each, and the word they make up. -/

namespace Sys2Proof

/-- A word is its three fields (30_encoding.md R101). -/
theorem word_eq_fields (w : Word) : immOf w ++ auxOf w ++ opcOf w = w := by
  apply BitVec.eq_of_getLsbD_eq
  intro i hi
  simp only [immOf, auxOf, opcOf, BitVec.getLsbD_append, BitVec.getLsbD_extractLsb']
  split
  · simp [*]
  · split
    · rw [show 8 + (i - 8) = i by omega]; simp [*]
    · rw [show 16 + (i - 8 - 8) = i by omega, decide_eq_true (by omega : i - 8 - 8 < 16), Bool.true_and]

@[simp] theorem opcOf_fields (imm : Half) (aux opc : Byte) : opcOf (imm ++ aux ++ opc) = opc := by
  apply BitVec.eq_of_getLsbD_eq
  intro i hi
  simp only [opcOf, BitVec.getLsbD_extractLsb']
  change (decide (i < 8) && BitVec.getLsbD (imm ++ aux ++ opc) (0 + i)) = _
  simp only [BitVec.getLsbD_append, Nat.zero_add, hi, decide_true, Bool.true_and, if_true]

@[simp] theorem auxOf_fields (imm : Half) (aux opc : Byte) : auxOf (imm ++ aux ++ opc) = aux := by
  apply BitVec.eq_of_getLsbD_eq
  intro i hi
  simp only [auxOf, BitVec.getLsbD_extractLsb']
  change (decide (i < 8) && BitVec.getLsbD (imm ++ aux ++ opc) (8 + i)) = _
  simp only [BitVec.getLsbD_append, hi, decide_true, Bool.true_and]
  rw [if_neg (by omega), if_pos (by omega), Nat.add_sub_cancel_left]

@[simp] theorem immOf_fields (imm : Half) (aux opc : Byte) : immOf (imm ++ aux ++ opc) = imm := by
  apply BitVec.eq_of_getLsbD_eq
  intro i hi
  simp only [immOf, BitVec.getLsbD_extractLsb']
  change (decide (i < 16) && BitVec.getLsbD (imm ++ aux ++ opc) (16 + i)) = _
  simp only [BitVec.getLsbD_append, hi, decide_true, Bool.true_and]
  rw [if_neg (by omega), if_neg (by omega), show 16 + i - 8 - 8 = i by omega]

end Sys2Proof
end

