-- ==== Sys2Proof/Laws/PerInstr.lean ====
section
/-! SUPPORT. The statements made for each command as syntax: its word selects the row of the opcode table that carries
its mnemonic (30_encoding.md R102, R106). -/

namespace Sys2Proof

/-- The command's word selects the row of its mnemonic. -/
def Laws.TableRow.Statement (i : Instr) : Prop :=
  ∃ r ∈ opcodeTable, r.mnemonic = mnemonicOf i ∧ r.selects (encode i) = true

theorem Laws.TableRow.nop : Laws.TableRow.Statement .nop :=
  ⟨opcodeTable.getD 0 ⟨"", 0, 0⟩, by decide, rfl, rfl⟩

theorem Laws.TableRow.rbInit : Laws.TableRow.Statement .rbInit :=
  ⟨opcodeTable.getD 1 ⟨"", 0, 0⟩, by decide, rfl, rfl⟩

theorem Laws.TableRow.rbReset : Laws.TableRow.Statement .rbReset :=
  ⟨opcodeTable.getD 2 ⟨"", 0, 0⟩, by decide, rfl, rfl⟩

theorem Laws.TableRow.rbWrite : Laws.TableRow.Statement .rbWrite :=
  ⟨opcodeTable.getD 3 ⟨"", 0, 0⟩, by decide, rfl, rfl⟩

theorem Laws.TableRow.rbInsert : Laws.TableRow.Statement .rbInsert :=
  ⟨opcodeTable.getD 4 ⟨"", 0, 0⟩, by decide, rfl, rfl⟩

theorem Laws.TableRow.rbRead : Laws.TableRow.Statement .rbRead :=
  ⟨opcodeTable.getD 5 ⟨"", 0, 0⟩, by decide, rfl, rfl⟩

theorem Laws.TableRow.rbAdvanceRead : Laws.TableRow.Statement .rbAdvanceRead :=
  ⟨opcodeTable.getD 6 ⟨"", 0, 0⟩, by decide, rfl, rfl⟩

theorem Laws.TableRow.rbGetReadAddress : Laws.TableRow.Statement .rbGetReadAddress :=
  ⟨opcodeTable.getD 7 ⟨"", 0, 0⟩, by decide, rfl, rfl⟩

theorem Laws.TableRow.rbGetReadLen : Laws.TableRow.Statement .rbGetReadLen :=
  ⟨opcodeTable.getD 8 ⟨"", 0, 0⟩, by decide, rfl, rfl⟩

theorem Laws.TableRow.rbCheckEmpty : Laws.TableRow.Statement .rbCheckEmpty :=
  ⟨opcodeTable.getD 9 ⟨"", 0, 0⟩, by decide, rfl, rfl⟩

theorem Laws.TableRow.capStart : Laws.TableRow.Statement .capStart :=
  ⟨opcodeTable.getD 10 ⟨"", 0, 0⟩, by decide, rfl, rfl⟩

theorem Laws.TableRow.capPause : Laws.TableRow.Statement .capPause :=
  ⟨opcodeTable.getD 11 ⟨"", 0, 0⟩, by decide, rfl, rfl⟩

theorem Laws.TableRow.capProcess : Laws.TableRow.Statement .capProcess :=
  ⟨opcodeTable.getD 12 ⟨"", 0, 0⟩, by decide, rfl, rfl⟩

theorem Laws.TableRow.ntfTake : Laws.TableRow.Statement .ntfTake :=
  ⟨opcodeTable.getD 13 ⟨"", 0, 0⟩, by decide, rfl, rfl⟩

theorem Laws.TableRow.ntfWait : Laws.TableRow.Statement .ntfWait :=
  ⟨opcodeTable.getD 14 ⟨"", 0, 0⟩, by decide, rfl, rfl⟩

theorem Laws.TableRow.decBegin (imm : Half) : Laws.TableRow.Statement (.decBegin imm) := by
  refine ⟨⟨"DEC_BEGIN", 0x00000030#32, 0x0000FFFF#32⟩, by decide, rfl, ?_⟩
  simp only [OpcodeRow.selects, encode, beq_iff_eq]
  change (imm ++ 0x00#8 ++ 0x30#8) &&& 0x0000FFFF#(16 + 8 + 8) = 0x00000030#(16 + 8 + 8)
  apply BitVec.eq_of_getLsbD_eq
  intro i hi
  simp only [BitVec.getLsbD_and, BitVec.getLsbD_append]
  interval_cases i <;> simp

theorem Laws.TableRow.decExecute : Laws.TableRow.Statement .decExecute :=
  ⟨opcodeTable.getD 16 ⟨"", 0, 0⟩, by decide, rfl, rfl⟩

theorem Laws.TableRow.decEvent (dur : Half) (lvl : Bool) : Laws.TableRow.Statement (.decEvent dur lvl) := by
  refine ⟨⟨"DEC_EVENT", 0x00000032#32, 0x0000FEFF#32⟩, by decide, rfl, ?_⟩
  simp only [OpcodeRow.selects, encode, beq_iff_eq]
  change (dur ++ 0#7 ++ BitVec.ofBool lvl ++ 0x32#8) &&& 0x0000FEFF#(16 + 7 + 1 + 8) = 0x00000032#(16 + 7 + 1 + 8)
  apply BitVec.eq_of_getLsbD_eq
  intro i hi
  simp only [BitVec.getLsbD_and, BitVec.getLsbD_append]
  interval_cases i <;> simp

theorem Laws.TableRow.decGetData : Laws.TableRow.Statement .decGetData :=
  ⟨opcodeTable.getD 18 ⟨"", 0, 0⟩, by decide, rfl, rfl⟩

theorem Laws.TableRow.decPartialReset : Laws.TableRow.Statement .decPartialReset :=
  ⟨opcodeTable.getD 19 ⟨"", 0, 0⟩, by decide, rfl, rfl⟩

end Sys2Proof
end

