-- ==== Sys2Proof/Laws/Step.lean ====
section
/-! SUPPORT. What a step can do, said once: by agent, and for the host's turn by the piece of work it takes. -/

namespace Sys2Proof.Machine

/-! ### Outcomes -/

@[simp] theorem mapNext_next (f : State → State) (s : State) : mapNext f (.next s) = .next (f s) := rfl

theorem mapNext_eq_next {f : State → State} {o : Host.Outcome State Fault Refusal} {t : State}
    (h : mapNext f o = .next t) : ∃ u, o = .next u ∧ t = f u := by
  cases o <;> simp_all [mapNext]

/-! ### By agent -/

/-- A step, with the turn it is. -/
theorem step_eq (s : State) :
    step s = takeTurn (s.schedule.headD .host) { s with schedule := s.schedule.tail } := by
  obtain ⟨cfg, regs, cap, bq, proc, ring, dec, tag, mem, waiting, program, schedule, reply, draws⟩ := s
  cases schedule <;> rfl

theorem step_nil {s : State} (h : s.schedule = []) : step s = hostTurn s := by
  simp [step, h, takeTurn]

theorem step_cons {s : State} {turn : Turn} {rest : List Turn} (h : s.schedule = turn :: rest) :
    step s = takeTurn turn { s with schedule := rest } := by
  simp [step, h]

/-- Everything a step can do: a timer turn, an edge, or a turn of the host; the turn is taken off the schedule. -/
theorem step_cases {s t : State} (h : step s = .next t) :
    (∃ rest, s.schedule = .timer :: rest ∧ t = timerTurn { s with schedule := rest })
    ∨ (∃ rest, s.schedule = .signal :: rest ∧ t = edge { s with schedule := rest })
    ∨ ((s.schedule = [] ∨ ∃ rest, s.schedule = .host :: rest)
        ∧ hostTurn { s with schedule := s.schedule.tail } = .next t) := by
  rw [step_eq] at h
  cases hs : s.schedule with
  | nil => rw [hs] at h; exact .inr (.inr ⟨.inl rfl, h⟩)
  | cons turn rest =>
    rw [hs] at h
    cases turn with
    | timer => cases h; exact .inl ⟨rest, rfl, rfl⟩
    | signal => cases h; exact .inr (.inl ⟨rest, rfl, rfl⟩)
    | host => exact .inr (.inr ⟨.inr ⟨rest, rfl⟩, h⟩)

/-! ### Runs -/

theorem core_run_next (M : Host.Core) {s t : M.State} (n : Nat) (h : M.step s = .next t) :
    M.run (n + 1) s = M.run n t := by
  rw [Host.Core.run.eq_2, h]

theorem core_run_one (M : Host.Core) (s : M.State) : M.run 1 s = M.step s := by
  rw [Host.Core.run.eq_2]
  cases M.step s <;> rfl

/-- A run of one step more, where the first step answers a next state. -/
theorem run_succ {s t : State} (n : Nat) (h : step s = .next t) :
    Host.Core.run Sys2Proof.core (n + 1) s = Host.Core.run Sys2Proof.core n t :=
  core_run_next Sys2Proof.core n h

/-- A run of one step. -/
theorem run_one (s : State) : Host.Core.run Sys2Proof.core 1 s = step s :=
  core_run_one Sys2Proof.core s

/-! ### The host's turn -/

/-- Everything a turn of the host can do: an element of CAP_PROCESS; the hold or the end of NTF_WAIT; nothing, at the end
of the program; an access refused; a register or MEM access; an illegal word; a command. -/
theorem hostTurn_cases {s t : State} (h : hostTurn s = .next t) :
    (∃ b i nb nw u, s.proc = .inblock b i nb nw ∧ elem s b i nb nw = .next u ∧ t = u.settle)
    ∨ (s.proc = .idle ∧ s.waiting = true
        ∧ ((s.cap.ntf = true ∧ t = (ntfWaitDone s).settle) ∨ (s.cap.ntf = false ∧ t = s)))
    ∨ (s.proc = .idle ∧ s.waiting = false ∧ s.program = [] ∧ t = s)
    ∨ (s.proc = .idle ∧ s.waiting = false ∧ ∃ a rest, s.program = a :: rest
        ∧ ((a.wellFormed s.cfg.memSize = false ∧ t = refuseAccess { s with program := rest })
          ∨ (a.wellFormed s.cfg.memSize = true
            ∧ ((∃ off n, a = .regRead off n
                  ∧ t = { s with program := rest, reply := .value (s.readReg off.toNat) })
              ∨ (∃ off n v, a = .regWrite off n v ∧ off ≠ 0#32
                  ∧ t = { State.writeReg { s with program := rest } off.toNat v with reply := .written })
              ∨ (∃ x n, a = .memRead x n ∧ t = hostMemRead { s with program := rest } x n)
              ∨ (∃ x n v, a = .memWrite x n v ∧ t = hostMemWrite { s with program := rest } x n v)
              ∨ (∃ n w e, a = .regWrite 0#32 n w ∧ decode w = .illegal e
                  ∧ t = (State.fail { s with program := rest } .opcode).settle)
              ∨ (∃ n w i u, a = .regWrite 0#32 n w ∧ decode w = .ok i
                  ∧ exec i { s with program := rest } = .next u ∧ t = u.settle))))) := by
  unfold hostTurn at h
  split at h
  · rename_i b i nb nw hp
    obtain ⟨u, hu, rfl⟩ := mapNext_eq_next h
    exact .inl ⟨b, i, nb, nw, u, hp, hu, rfl⟩
  · rename_i hp
    split at h
    · rename_i hw
      split at h <;> cases h
      · exact .inr (.inl ⟨hp, hw, .inl ⟨‹_›, rfl⟩⟩)
      · rename_i hn; exact .inr (.inl ⟨hp, hw, .inr ⟨by simpa using hn, rfl⟩⟩)
    · rename_i hw
      have hw' : s.waiting = false := by simpa using hw
      split at h
      · cases h; exact .inr (.inr (.inl ⟨hp, hw', ‹_›, rfl⟩))
      · rename_i a rest hprog
        refine .inr (.inr (.inr ⟨hp, hw', a, rest, hprog, ?_⟩))
        unfold busAccess at h
        split at h
        · rename_i hwf
          refine .inr ⟨hwf, ?_⟩
          cases a with
          | regRead off n => cases h; exact .inl ⟨off, n, rfl, rfl⟩
          | memRead x n => cases h; exact .inr (.inr (.inl ⟨x, n, rfl, rfl⟩))
          | memWrite x n v => cases h; exact .inr (.inr (.inr (.inl ⟨x, n, v, rfl, rfl⟩)))
          | regWrite off n v =>
            simp only [performAccess] at h
            split at h
            · rename_i hoff
              subst hoff
              obtain ⟨u, hu, rfl⟩ := mapNext_eq_next h
              unfold runCommand at hu
              split at hu
              · rename_i e hd
                cases hu
                exact .inr (.inr (.inr (.inr (.inl ⟨n, v, e, rfl, hd, rfl⟩))))
              · rename_i i hd
                exact .inr (.inr (.inr (.inr (.inr ⟨n, v, i, u, rfl, hd, hu, rfl⟩))))
            · rename_i hoff
              cases h
              exact .inr (.inl ⟨off, n, v, rfl, hoff, rfl⟩)
        · rename_i hwf
          cases h
          exact .inl ⟨by simpa using hwf, rfl⟩

/-! ### Commands that can fail, or that copy -/

/-- Everything RB_WRITE can do. -/
theorem execRbWrite_eq_next {s t : State} (h : execRbWrite s = .next t) :
    (s.ring.valid = false ∧ t = s.fail .state)
    ∨ (s.ring.valid = true ∧ s.cfg.memSize < s.argN0 + rbWriteCount s * s.ring.esz.toNat ∧ t = s.fail .addr)
    ∨ (s.ring.valid = true ∧ s.argN0 + rbWriteCount s * s.ring.esz.toNat ≤ s.cfg.memSize
        ∧ ∃ mem, copyBytes s.cfg.memSize (fun j => s.argN0 + j) (s.ring.addr s.ring.head.toNat)
              (rbWriteCount s * s.ring.esz.toNat) 0 s.mem = some mem
          ∧ t = State.succeed
              { s with mem := mem, ring := s.ring.pushed (rbWriteCount s * s.ring.esz.toNat) }
              (BitVec.ofNat 32 (rbWriteCount s)) 0) := by
  unfold execRbWrite at h
  split at h
  · cases h; exact .inl ⟨‹_›, rfl⟩
  · rename_i hv
    have hv' : s.ring.valid = true := by simpa using hv
    simp only at h
    split at h
    · cases h; exact .inr (.inl ⟨hv', by omega, rfl⟩)
    · split at h
      · cases h
      · rename_i hb mem hm; cases h; exact .inr (.inr ⟨hv', by omega, mem, hm, rfl⟩)

/-- Everything RB_READ can do. -/
theorem execRbRead_eq_next {s t : State} (h : execRbRead s = .next t) :
    (s.ring.valid = false ∧ t = s.fail .state)
    ∨ (s.ring.valid = true ∧ s.cfg.memSize < s.argN0 + rbReadCount s * s.ring.esz.toNat ∧ t = s.fail .addr)
    ∨ (s.ring.valid = true ∧ s.argN0 + rbReadCount s * s.ring.esz.toNat ≤ s.cfg.memSize
        ∧ ∃ mem, copyBytes s.cfg.memSize (s.ring.addr s.ring.tail.toNat) (fun j => s.argN0 + j)
              (rbReadCount s * s.ring.esz.toNat) 0 s.mem = some mem
          ∧ t = State.succeed
              { s with mem := mem, ring := s.ring.popped (rbReadCount s * s.ring.esz.toNat) }
              (BitVec.ofNat 32 (rbReadCount s)) 0) := by
  unfold execRbRead at h
  split at h
  · cases h; exact .inl ⟨‹_›, rfl⟩
  · rename_i hv
    have hv' : s.ring.valid = true := by simpa using hv
    simp only at h
    split at h
    · cases h; exact .inr (.inl ⟨hv', by omega, rfl⟩)
    · split at h
      · cases h
      · rename_i hb mem hm; cases h; exact .inr (.inr ⟨hv', by omega, mem, hm, rfl⟩)

/-- Everything RB_INSERT can do. -/
theorem execRbInsert_eq_next {s t : State} (h : execRbInsert s = .next t) :
    (s.ring.valid = false ∧ t = s.fail .state)
    ∨ (s.ring.valid = true ∧ s.cfg.memSize < s.argN0 + s.ring.esz.toNat ∧ t = s.fail .addr)
    ∨ (s.ring.valid = true ∧ s.argN0 + s.ring.esz.toNat ≤ s.cfg.memSize
        ∧ ∃ mem, copyBytes s.cfg.memSize (fun j => s.argN0 + j) (s.ring.addr s.ring.head.toNat) s.ring.esz.toNat 0
              s.mem = some mem
          ∧ t = State.succeed
              { ringEvict s with mem := mem, ring := (ringEvict s).ring.pushed s.ring.esz.toNat }
              (flagResult (decide (s.ring.free = 0))) 0) := by
  unfold execRbInsert at h
  split at h
  · cases h; exact .inl ⟨‹_›, rfl⟩
  · rename_i hv
    have hv' : s.ring.valid = true := by simpa using hv
    split at h
    · cases h; exact .inr (.inl ⟨hv', by omega, rfl⟩)
    · split at h
      · cases h
      · rename_i mem hm; cases h; exact .inr (.inr ⟨hv', by omega, mem, hm, rfl⟩)

/-- The event record at an address inside MEM. -/
theorem readEvent_of_le {size a : Nat} {m : Memory} (h : a + 4 ≤ size) :
    readEvent size m a =
      some ⟨BitVec.ofNat 16 (leValue [memByte m a, memByte m (a + 1)]), (memByte m (a + 2)).getLsbD 0⟩ := by
  rw [readEvent, memRead_of_le (by omega), readByte_of_lt (by omega)]
  rfl

/-- The event records of a range inside MEM. -/
theorem readEvents_of_le {size n : Nat} {m : Memory} :
    ∀ {a : Nat}, a + 4 * n ≤ size →
      readEvents size m n a = some ((List.range n).map fun k =>
        ⟨BitVec.ofNat 16 (leValue [memByte m (a + 4 * k), memByte m (a + 4 * k + 1)]),
          (memByte m (a + 4 * k + 2)).getLsbD 0⟩) := by
  induction n with
  | zero => intro a _; rfl
  | succ n ih =>
    intro a h
    rw [readEvents, readEvent_of_le (by omega), Option.bind_some, ih (by omega), Option.map_some,
      List.range_succ_eq_map, List.map_cons, List.map_map]
    congr 2
    apply List.map_congr_left
    intro k _
    simp only [Function.comp_apply]
    rw [show a + 4 + 4 * k = a + 4 * (k + 1) by omega]

/-- Everything DEC_EXECUTE can do. -/
theorem execDecExecute_eq_next {s t : State} (h : execDecExecute s = .next t) :
    (∃ e, t = s.fail e) ∨ (s.dec.active = true ∧ ∃ ev, t = runPass s ev) := by
  unfold execDecExecute at h
  split at h
  · cases h; exact .inl ⟨_, rfl⟩
  · rename_i ha
    split at h
    · cases h; exact .inl ⟨_, rfl⟩
    · split at h
      · cases h; exact .inl ⟨_, rfl⟩
      · split at h
        · cases h
        · cases h; exact .inr ⟨by simpa using ha, _, rfl⟩

/-- Everything DEC_EVENT can do. -/
theorem execDecEvent_eq_next {s t : State} {dur : Half} {lvl : Bool} (h : execDecEvent dur lvl s = .next t) :
    (∃ e, t = s.fail e) ∨ (s.dec.active = true ∧ ∃ ev, t = runPass s ev) := by
  unfold execDecEvent at h
  split at h
  · cases h; exact .inl ⟨_, rfl⟩
  · rename_i ha; cases h; exact .inr ⟨by simpa using ha, _, rfl⟩

/-- Everything DEC_GET_DATA can do. -/
theorem execDecGetData_eq_next {s t : State} (h : execDecGetData s = .next t) :
    t = s.fail .addr
    ∨ ∃ mem, storeBytes s.cfg.memSize (fun j => s.argN0 + j) (tagBytes s.tag) 0 s.mem = some mem
        ∧ t = State.succeed { s with mem := mem } 0 0 := by
  unfold execDecGetData at h
  split at h
  · cases h; exact .inl rfl
  · split at h
    · cases h
    · rename_i mem hm; cases h; exact .inr ⟨mem, hm, rfl⟩

end Sys2Proof.Machine
end

