-- ==== Sys2Proof/Tests/Slice0.lean ====
section
/-! SUPPORT. The model's own tests: what the well-formedness checks refuse, the decoding of a word of every command
written out from 30_encoding.md R101 and R106, at most two small tests of each command (the numbers are those of
95_test_vectors.md), and for every statement with hypotheses a state and operands that meet them. -/

namespace Sys2Proof.Tests

open Sys2Proof Sys2Proof.Machine

/-! ### Helpers -/

/-- The next state of an outcome, where it is one. -/
def after (o : Host.Outcome State Fault Refusal) : State :=
  match o with
  | .next t => t
  | .fault _ => State.reset
  | .refused _ => State.reset

/-- An outcome is a next state. -/
def completes (o : Host.Outcome State Fault Refusal) : Bool :=
  match o with
  | .next _ => true
  | .fault _ => false
  | .refused _ => false

theorem eq_next_of_completes {o : Host.Outcome State Fault Refusal} (h : completes o = true) :
    o = .next (after o) := by
  cases o <;> simp_all [completes, after]

/-- What a field of the next state is; none where there is no next state. -/
def got {α : Type} (f : State → α) (o : Host.Outcome State Fault Refusal) : Option α :=
  if completes o then some (f (after o)) else none

/-- The reset state with blocks of four, as section 3 of 95_test_vectors.md takes it. -/
def base : State := State.resetWith { Config.default with blockLen := 4 }

/-- A state with the three argument registers set. -/
def args (s : State) (a b c : Word) : State := { s with regs := { s.regs with arg0 := a, arg1 := b, arg2 := c } }

/-- A state about to take a bus access. -/
def doing (s : State) (a : HostAccess) : State := { s with program := [a] }

/-- The bytes of a list of numbers, in MEM from `a` on. -/
def cells (a : Nat) (l : List Nat) : Memory := l.zipIdx.map fun p => (a + p.2, BitVec.ofNat 8 p.1)

/-- A ring of four 2-byte elements at 0x100, its offsets given. -/
def ringed (head tail : Word) (mem : Memory) : State :=
  { base with ring := { valid := true, base := 0x100, cap := 4, esz := 2, head := head, tail := tail }, mem := mem }

/-- The ring storage of eight bytes, then twelve source bytes. -/
def storage : Memory := cells 0x100 [0x11, 0x12, 0x21, 0x22, 0x31, 0x32, 0x41, 0x42]
  ++ cells 0x200 [0xA0, 0xA1, 0xA2, 0xA3, 0xA4, 0xA5, 0xA6, 0xA7, 0xA8, 0xA9, 0xAA, 0xAB]

/-- The result fields of a command. -/
def results (s : State) : Nat × Nat × Nat := (s.regs.err.code, s.regs.res0.toNat, s.regs.res1.toNat)

/-- The offsets of the ring. -/
def offsets (s : State) : Nat × Nat := (s.ring.head.toNat, s.ring.tail.toNat)

/-- The bytes of MEM as numbers. -/
def dump (s : State) (a n : Nat) : List Nat := (memBytes s.mem a n).map BitVec.toNat

/-- Block 0 of V-CAP-3 captured and queued, `ARR = 999`, over the ring of `ringed`. -/
def captured (head tail : Word) : State :=
  { ringed head tail storage with
    cap :=
      { base.cap with
        arr := 999, dmaEn := true, dmaIdx := 4, ntf := true
        capbuf := [some 100, some 350, some 900, some 150, none, none, none, none] }
    bq := { slots := [false, false, false, false], head := 1, tail := 0, count := 1 } }

/-- A decoder of EM4100/16 after DEC_BEGIN. -/
def em16 : Decoder :=
  { base.dec with active := true, proto := .em4100Over16, halfUs := 64 }

/-- A decoder of H10301 after DEC_BEGIN. -/
def h10 : Decoder := { base.dec with active := true, proto := .h10301 }

/-- The worked frame AA BB CC DD EE (V-EM-7) with all but its stop bit received and half of that bit pending. -/
def lastBit : State :=
  { base with
    dec :=
      { em16 with
        fw0 := (emPack [0xAA, 0xBB, 0xCC, 0xDD, 0xEE] >>> 1).extractLsb' 32 32
        fw1 := (emPack [0xAA, 0xBB, 0xCC, 0xDD, 0xEE] >>> 1).extractLsb' 0 32
        bitCnt := 63
        eb := [⟨64, true⟩] } }

/-! ### Well-formedness: each check refuses an ill-formed term -/

theorem test_wf_default : Config.default.wellFormed = true := by decide

theorem test_wf_extremes :
    ({ Config.default with cntWidth := 16, blockLen := 32768, bqDepth := 8, memSize := 2 ^ 32, frameChunkSize := 127
                           edgeBufLen := 255, emHalfUs0 := 16383, emTolHalfPct := 33, emTolPairPct := 100
                           h10PeriodOneUs := 65535, h10TolPct := 100 } : Config).wellFormed = true := by decide

theorem test_wf_refuses_cntWidth :
    ({ Config.default with cntWidth := 15 } : Config).wellFormed = false
    ∧ ({ Config.default with cntWidth := 33 } : Config).wellFormed = false := by decide

theorem test_wf_refuses_blockLen :
    ({ Config.default with blockLen := 0 } : Config).wellFormed = false
    ∧ ({ Config.default with blockLen := 32769 } : Config).wellFormed = false := by decide

theorem test_wf_refuses_bqDepth :
    ({ Config.default with bqDepth := 0 } : Config).wellFormed = false
    ∧ ({ Config.default with bqDepth := 9 } : Config).wellFormed = false := by decide

theorem test_wf_refuses_memSize :
    ({ Config.default with memSize := 0 } : Config).wellFormed = false
    ∧ ({ Config.default with memSize := 2 ^ 32 + 1 } : Config).wellFormed = false := by decide

theorem test_wf_refuses_frameChunkSize :
    ({ Config.default with frameChunkSize := 0 } : Config).wellFormed = false := by decide

theorem test_wf_refuses_edgeBufLen :
    ({ Config.default with edgeBufLen := 64 } : Config).wellFormed = false
    ∧ ({ Config.default with edgeBufLen := 256 } : Config).wellFormed = false := by decide

theorem test_wf_refuses_emHalfUs :
    ({ Config.default with emHalfUs0 := 0 } : Config).wellFormed = false
    ∧ ({ Config.default with emHalfUs1 := 16384 } : Config).wellFormed = false
    ∧ ({ Config.default with emHalfUs2 := 0 } : Config).wellFormed = false := by decide

theorem test_wf_refuses_emTol :
    ({ Config.default with emTolHalfPct := 24 } : Config).wellFormed = false
    ∧ ({ Config.default with emTolHalfPct := 34 } : Config).wellFormed = false
    ∧ ({ Config.default with emTolPairPct := 0 } : Config).wellFormed = false
    ∧ ({ Config.default with emTolPairPct := 101 } : Config).wellFormed = false := by decide

theorem test_wf_refuses_h10 :
    ({ Config.default with h10PeriodZeroUs := 80 } : Config).wellFormed = false
    ∧ ({ Config.default with h10PeriodZeroUs := 0 } : Config).wellFormed = false
    ∧ ({ Config.default with h10PeriodOneUs := 65536 } : Config).wellFormed = false
    ∧ ({ Config.default with h10TolPct := 0 } : Config).wellFormed = false
    ∧ ({ Config.default with h10TolPct := 101 } : Config).wellFormed = false
    ∧ ({ Config.default with h10OneWin := 4 } : Config).wellFormed = false
    ∧ ({ Config.default with h10OneMin := 5 } : Config).wellFormed = false
    ∧ ({ Config.default with h10ZeroWin := 5 } : Config).wellFormed = false
    ∧ ({ Config.default with h10ZeroMin := 6 } : Config).wellFormed = false := by decide

/-- Refused: a wrong width, an unaligned offset, an offset outside the block (20_memory.md R74). -/
theorem test_wf_refuses_register_accesses :
    (HostAccess.regRead 0x04 2).wellFormed 65536 = false ∧ (HostAccess.regRead 0x06 4).wellFormed 65536 = false
    ∧ (HostAccess.regWrite 0x80 4 0).wellFormed 65536 = false
    ∧ (HostAccess.regWrite 0x7C 4 0).wellFormed 65536 = true := by decide

/-- Refused: a width of 3, an unaligned address, an address outside MEM (20_memory.md R74, R76). -/
theorem test_wf_refuses_mem_accesses :
    (HostAccess.memRead 0 3).wellFormed 65536 = false ∧ (HostAccess.memRead 0x101 2).wellFormed 65536 = false
    ∧ (HostAccess.memWrite 0x102 4 0).wellFormed 65536 = false
    ∧ (HostAccess.memWrite 0x10000 1 0).wellFormed 65536 = false
    ∧ (HostAccess.memWrite 0xFFFE 4 0).wellFormed 65538 = false
    ∧ (HostAccess.memRead 0xFFFC 4).wellFormed 65536 = true := by decide

/-! ### Decoding: IMM ++ AUX ++ OPC written out from 30_encoding.md R101, R103, R104, R106 -/

theorem test_decode_nop : decode (0x0000#16 ++ 0x00#8 ++ 0x00#8) = .ok .nop := by decide

theorem test_decode_ring :
    decode (0x0000#16 ++ 0x00#8 ++ 0x10#8) = .ok .rbInit ∧ decode (0x0000#16 ++ 0x00#8 ++ 0x11#8) = .ok .rbReset
    ∧ decode (0x0000#16 ++ 0x00#8 ++ 0x12#8) = .ok .rbWrite
    ∧ decode (0x0000#16 ++ 0x00#8 ++ 0x13#8) = .ok .rbInsert
    ∧ decode (0x0000#16 ++ 0x00#8 ++ 0x14#8) = .ok .rbRead
    ∧ decode (0x0000#16 ++ 0x00#8 ++ 0x15#8) = .ok .rbAdvanceRead
    ∧ decode (0x0000#16 ++ 0x00#8 ++ 0x16#8) = .ok .rbGetReadAddress
    ∧ decode (0x0000#16 ++ 0x00#8 ++ 0x17#8) = .ok .rbGetReadLen
    ∧ decode (0x0000#16 ++ 0x00#8 ++ 0x18#8) = .ok .rbCheckEmpty := by decide

theorem test_decode_capture :
    decode (0x0000#16 ++ 0x00#8 ++ 0x20#8) = .ok .capStart
    ∧ decode (0x0000#16 ++ 0x00#8 ++ 0x21#8) = .ok .capPause
    ∧ decode (0x0000#16 ++ 0x00#8 ++ 0x22#8) = .ok .capProcess
    ∧ decode (0x0000#16 ++ 0x00#8 ++ 0x23#8) = .ok .ntfTake
    ∧ decode (0x0000#16 ++ 0x00#8 ++ 0x24#8) = .ok .ntfWait := by decide

theorem test_decode_decoder :
    decode (0x8003#16 ++ 0x00#8 ++ 0x30#8) = .ok (.decBegin 0x8003#16)
    ∧ decode (0x0000#16 ++ 0x00#8 ++ 0x31#8) = .ok .decExecute
    ∧ decode (0x8001#16 ++ 0#7 ++ 1#1 ++ 0x32#8) = .ok (.decEvent 0x8001#16 true)
    ∧ decode (0x8001#16 ++ 0#7 ++ 0#1 ++ 0x32#8) = .ok (.decEvent 0x8001#16 false)
    ∧ decode (0x0000#16 ++ 0x00#8 ++ 0x33#8) = .ok .decGetData
    ∧ decode (0x0000#16 ++ 0x00#8 ++ 0x34#8) = .ok .decPartialReset := by decide

/-- V-ERR-1: unknown opcodes and must-be-zero fields. -/
theorem test_decode_refuses :
    decode 0x00000001#32 = .illegal (.unknownOpcode 0x01) ∧ decode 0x00010010#32 = .illegal (.mustBeZero 0x10)
    ∧ decode 0x00000232#32 = .illegal (.mustBeZero 0x32) ∧ decode 0x000000FF#32 = .illegal (.unknownOpcode 0xFF)
    ∧ decode 0x00000130#32 = .illegal (.mustBeZero 0x30) := by decide

theorem test_decodeTableWord :
    decodeTableWord 32 0x00020030 = some (.decBegin 2#16) ∧ decodeTableWord 16 0x0132 = some (.decEvent 0#16 true)
    ∧ decodeTableWord 32 0x00000035 = none := by decide

/-- The first step after reset runs the word that withFetchWord places. -/
theorem test_step_runs_the_placed_word :
    got (fun t => (t.dec.proto, t.dec.halfUs.toNat, t.reply)) (step (State.reset.withFetchWord 32 0x00020030)) =
      some (.em4100Over16, 64, .written) := by decide

theorem test_step_illegal_word :
    got (fun t => (results t, t.reply)) (step (State.reset.withFetchWord 32 0x00000001)) =
      some ((1, 0, 0), .written) := by decide

/-! ### The commands -/

/-- V-ERR-2: NOP clears a pending code. -/
theorem test_nop : got results (exec .nop (base.ended .addr 7 9)) = some (0, 0, 0) := by decide

/-- V-RB-8: storage may end exactly at `MEM_SIZE`, and the ring is empty. -/
theorem test_rbInit :
    got (fun t => (results t, t.ring)) (exec .rbInit (args base 0xFFF8 4 2)) =
      some ((0, 0, 0), { valid := true, base := 0xFFF8, cap := 4, esz := 2, head := 0, tail := 0 }) := by decide

/-- V-RB-8: the argument checks come before the range, and neither sum nor product wraps. -/
theorem test_rbInit_fails :
    got results (exec .rbInit (args base 0 65536 65536)) = some (2, 0, 0)
    ∧ got results (exec .rbInit (args base 0xFFFFFFFF 2 1)) = some (3, 0, 0) := by decide

/-- V-RB-6. -/
theorem test_rbReset :
    got (fun t => (results t, offsets t, t.ring.cap.toNat)) (exec .rbReset (ringed 6 2 storage)) =
      some ((0, 0, 0), (0, 0), 4) := by decide

/-- V-RB-2: a write that wraps. -/
theorem test_rbWrite_wraps :
    got (fun t => (results t, offsets t, dump t 0x100 8)) (exec .rbWrite (args (ringed 6 6 storage) 0x206 3 0)) =
      some ((0, 3, 0), (4, 6), [0xA8, 0xA9, 0xAA, 0xAB, 0x31, 0x32, 0xA6, 0xA7]) := by decide

/-- V-RB-5: a source that overlaps the ring's storage copies what the copy has just stored. -/
theorem test_rbWrite_overlap :
    got (fun t => (results t, dump t 0xFE 10))
        (exec .rbWrite (args (ringed 0 0 (cells 0xFE [0xAA, 0xBB, 0, 0, 0, 0, 0, 0, 0, 0])) 0xFE 3 0)) =
      some ((0, 3, 0), [0xAA, 0xBB, 0xAA, 0xBB, 0xAA, 0xBB, 0xAA, 0xBB, 0, 0]) := by decide

/-- R147: a full ring loses its oldest element (head 6, tail 0 of a ring of four). R80: a source one byte before the slot
written gives its first byte twice. -/
theorem test_rbInsert_evicts :
    got (fun t => (results t, offsets t, t.cap.dropCnt.toNat, dump t 0x104 4))
        (exec .rbInsert (args (ringed 6 0 storage) 0x202 0 0)) =
      some ((0, 1, 0), (0, 2), 1, [0x31, 0x32, 0xA2, 0xA3])
    ∧ got (fun t => (results t, dump t 0x104 4)) (exec .rbInsert (args (ringed 6 0 storage) 0x105 0 0)) =
      some ((0, 1, 0), [0x31, 0x32, 0x32, 0x32]) := by decide

/-- V-RB-9: the source is checked before anything changes. -/
theorem test_rbInsert_fails :
    got (fun t => (results t, offsets t)) (exec .rbInsert (args (ringed 6 0 storage) 0xFFFF 0 0)) =
      some ((3, 0, 0), (6, 0)) := by decide

/-- V-RB-4: a destination over the ring's storage. -/
theorem test_rbRead_overlap :
    got (fun t => (results t, offsets t, dump t 0x100 8)) (exec .rbRead (args (ringed 6 0 storage) 0x102 3 0)) =
      some ((0, 3, 0), (6, 6), [0x11, 0x12, 0x11, 0x12, 0x11, 0x12, 0x11, 0x12]) := by decide

/-- A read that wraps, and asks for more than there is (R148). -/
theorem test_rbRead_wraps :
    got (fun t => (results t, offsets t, dump t 0x300 4)) (exec .rbRead (args (ringed 2 6 storage) 0x300 9 0)) =
      some ((0, 2, 0), (2, 2), [0x41, 0x42, 0x11, 0x12]) := by decide

/-- V-RB-2. -/
theorem test_rbAdvanceRead :
    got (fun t => (results t, offsets t)) (exec .rbAdvanceRead (args (ringed 4 6 storage) 1 0 0)) =
      some ((0, 0, 0), (4, 0)) := by decide

/-- V-RB-10: more than are held. -/
theorem test_rbAdvanceRead_fails :
    got (fun t => (results t, offsets t)) (exec .rbAdvanceRead (args (ringed 2 0 storage) 3 0 0)) =
      some ((2, 0, 0), (2, 0)) := by decide

/-- V-RB-2. -/
theorem test_rbGetReadAddress :
    got results (exec .rbGetReadAddress (ringed 4 6 storage)) = some (0, 0x106, 0) := by decide

/-- V-RB-2: the run ends at the end of storage. -/
theorem test_rbGetReadLen :
    got results (exec .rbGetReadLen (ringed 4 6 storage)) = some (0, 1, 0)
    ∧ got results (exec .rbGetReadLen (ringed 4 0 storage)) = some (0, 2, 0) := by decide

/-- R152. -/
theorem test_rbCheckEmpty :
    got results (exec .rbCheckEmpty (ringed 4 4 storage)) = some (0, 1, 0)
    ∧ got results (exec .rbCheckEmpty (ringed 4 6 storage)) = some (0, 0, 0) := by decide

/-- V-CAP-3: from a channel that is off no draw is made. -/
theorem test_capStart :
    got (fun t => (results t, t.status.toNat, t.dmaStat.toNat, t.draws)) (exec .capStart (ringed 0 0 [])) =
      some ((0, 1, 0), 0x00E0, 0x00010000, 0) := by decide

/-- V-CAP-13: pausing a channel that is off succeeds. -/
theorem test_capPause : got (fun t => (results t, t.draws)) (exec .capPause base) = some ((0, 1, 0), 0) := by decide

/-- V-CAP-3: one CAP_PROCESS over the block 100, 350, 900, 150: widths 250, 550, 250. -/
theorem test_capProcess :
    got (fun t => (results t, dump t 0x100 6, t.cap.prevCap.toNat, t.bqStat.toNat))
        (Host.Core.run core 5 (doing (captured 0 0) (commandAccess 0x22))) =
      some ((0, 1, 3), [250, 0, 0x26, 2, 250, 0], 150, 0x00010100) := by decide

/-- V-CAP-9, V-CAP-11: the empty queue ends it, no ring refuses it. -/
theorem test_capProcess_ends :
    got results (exec .capProcess (ringed 0 0 [])) = some (0, 0, 0)
    ∧ got results (exec .capProcess base) = some (4, 0, 0) := by decide

/-- V-CAP-13. -/
theorem test_ntfTake :
    got (fun t => (results t, t.cap.ntf)) (exec .ntfTake (captured 0 0)) = some ((0, 1, 0), false)
    ∧ got results (exec .ntfTake base) = some (0, 0, 0) := by decide

/-- V-CAP-13: at once where `NTF = 1`, held where it is 0. -/
theorem test_ntfWait :
    got (fun t => (results t, t.cap.ntf, t.waiting)) (exec .ntfWait (captured 0 0)) = some ((0, 1, 0), false, false)
    ∧ got State.waiting (exec .ntfWait base) = some true := by decide

/-- V-DEC-1. -/
theorem test_decBegin :
    got (fun t => (results t, t.decStat.toNat, t.dec.halfUs.toNat)) (exec (.decBegin 1) base) =
      some ((0, 0, 0), 0x00050000, 128)
    ∧ got results (exec (.decBegin 4) base) = some (2, 0, 0) := by decide

/-- V-DEC-3: the pad bits of an event record are ignored. -/
theorem test_decExecute :
    got (fun t => (results t, t.decStat.toNat, t.dec.fw1.toNat))
        (exec .decExecute (args { base with dec := em16, mem := cells 0x1000 [0x40, 0, 0xFE, 0xFF, 0x40, 0, 1, 0xAB] }
          0x1000 2 0)) =
      some ((0, 0, 0), 0x00060001, 1) := by decide

/-- V-DEC-4: the count is checked before the address, both after the state. -/
theorem test_decExecute_fails :
    got results (exec .decExecute (args { base with dec := em16 } 0xFFFF 33 0)) = some (2, 0, 0)
    ∧ got results (exec .decExecute (args { base with dec := em16 } 0xFFF0 5 0)) = some (3, 0, 0)
    ∧ got results (exec .decExecute (args base 0xFFF0 99 0)) = some (4, 0, 0) := by decide

/-- V-EM-7: the stop bit of the worked frame completes it. -/
theorem test_decEvent_finds_the_frame :
    got (fun t => (results t, t.tagUidLo.toNat, t.tagUidHi.toNat, t.dec.fw0.toNat))
        (exec (.decEvent 64 false) lastBit) =
      some ((0, 1, 0), 0xDDCCBBAA, 0x001000EE, 0xFFD297BE) := by decide +kernel

/-- V-EM-4: a full-bit interval alone: two equal halves, one dropped. -/
theorem test_decEvent_splits :
    got (fun t => (results t, t.dec.bitCnt, t.dec.eb)) (exec (.decEvent 128 true) { base with dec := em16 }) =
      some ((0, 0, 0), 0, [⟨64, true⟩]) := by decide

/-- V-DEC-6: the record may end exactly at `MEM_SIZE`. -/
theorem test_decGetData :
    got (fun t => (results t, dump t 0xFFF8 8))
        (exec .decGetData (args { base with
          tag := { uid0 := 0xAA, uid1 := 0xBB, uid2 := 0xCC, uid3 := 0xDD, uid4 := 0xEE, bitrate := 16 } }
          0xFFF8 0 0)) =
      some ((0, 0, 0), [0xAA, 0xBB, 0xCC, 0xDD, 0xEE, 0, 0x10, 0])
    ∧ got results (exec .decGetData (args base 0xFFF9 0 0)) = some (3, 0, 0) := by decide

/-- V-DEC-5: the frame buffer and the timing stay. -/
theorem test_decPartialReset :
    got (fun t => (results t, t.decStat.toNat, t.dec.fw1.toNat, t.dec.halfUs.toNat))
        (exec .decPartialReset { base with dec := { em16 with fw1 := 3, bitCnt := 2, eb := [⟨64, false⟩] } }) =
      some ((0, 0, 0), 0x00060000, 3, 64) := by decide

/-! ### The other steps -/

/-- V-CAP-1: at `ARR` the counter wraps; above a lowered `ARR` too. -/
theorem test_tick :
    (tick { base with cap := { base.cap with cnt := 9, arr := 9 } }).cap.cnt = 0
    ∧ (tick { base with cap := { base.cap with cnt := 7, arr := 3 } }).cap.cnt = 0
    ∧ (tick { base with cap := { base.cap with cnt := 7, arr := 9 } }).cap.cnt = 8 := by decide

/-- R180's example: `BLOCK_LEN = 4`, `DMA_IDX = 3`, `CNT = 150`. -/
theorem test_edge :
    (fun t : State => (t.cap.capbuf.getD 3 none, t.cap.dmaIdx, t.cap.ntf, t.bqStat.toNat, t.cap.sig))
        (edge { base with cap := { base.cap with dmaEn := true, dmaIdx := 3, cnt := 150 } }) =
      (some 150, 4, true, 0x00000101, true) := by decide

/-- V-CAP-7: the clamp. -/
theorem test_pulseWidth :
    pulseWidth 150 900 999 = 250 ∧ pulseWidth 31071 65535 99999 = 65535 ∧ pulseWidth 900 350 999 = 550 := by decide

/-- V-EM-2: the window's edges. -/
theorem test_emClassify :
    emClassify Config.default 64 ⟨45, false⟩ ⟨83, true⟩ = .bit true
    ∧ emClassify Config.default 64 ⟨64, true⟩ ⟨64, false⟩ = .bit false
    ∧ emClassify Config.default 64 ⟨44, false⟩ ⟨64, true⟩ = .invalid := by decide

/-- V-H10-1: pair sums 55, 72, 73, 93. -/
theorem test_h10Symbol :
    h10Symbol Config.default ⟨27, true⟩ ⟨28, false⟩ = .bit false
    ∧ h10Symbol Config.default ⟨36, true⟩ ⟨36, false⟩ = .bit false
    ∧ h10Symbol Config.default ⟨36, true⟩ ⟨37, false⟩ = .bit true
    ∧ h10Symbol Config.default ⟨46, true⟩ ⟨47, false⟩ = .invalid := by decide

/-! ### A state and operands that meet the hypotheses of each statement, for each of its clauses -/

theorem test_hyp_DecodeAndEncodeAgree :
    (Instr.decEvent 0xFFFF true).wellFormed = true ∧ decode 0xFFFF0132 = .ok (.decEvent 0xFFFF true)
    ∧ decode 0xFFFF0030 = .ok (.decBegin 0xFFFF) := by decide

theorem test_hyp_DecodeSelectsTheTableRow :
    decode 0x00030030 = .ok (.decBegin 3) ∧ decode 0x00000035 = .illegal (.unknownOpcode 0x35)
    ∧ (⟨"DEC_EVENT", 0x00000032, 0x0000FEFF⟩ : OpcodeRow) ∈ opcodeTable
    ∧ (⟨"DEC_EVENT", 0x00000032, 0x0000FEFF⟩ : OpcodeRow).selects 0xFFFF0132 = true := by decide

theorem test_hyp_StepRunsTheDecodedCommand :
    ((doing base (commandAccess 0x00010030)).schedule = [] ∧ (doing base (commandAccess 0x00010030)).proc = .idle
      ∧ (doing base (commandAccess 0x00010030)).waiting = false
      ∧ (doing base (commandAccess 0x00010030)).program = [commandAccess 0x00010030]
      ∧ decode 0x00010030 = .ok (.decBegin 1) ∧ (Instr.decBegin 1).wellFormed = true)
    ∧ ({ doing base (commandAccess 0x22) with schedule := [.host, .timer] } : State).schedule = .host :: [.timer] := by
  decide

theorem test_hyp_IllegalWordFailsWithErrOpcode :
    (doing base (commandAccess 0x00000100)).hostFree
    ∧ (doing base (commandAccess 0x00000100)).program = [commandAccess 0x00000100]
    ∧ (∀ r ∈ opcodeTable, r.selects 0x00000100 = false)
    ∧ ∀ r ∈ opcodeTable, r.selects 0x000000FF = false := by decide

theorem test_hyp_MnemonicExpansionRunsTheCommand :
    (({ base with program := expand .rbInit 0x100 4 2 ++ [] } : State).hostFree
      ∧ ({ base with program := expand .rbInit 0x100 4 2 ++ [] } : State).program = expand .rbInit 0x100 4 2 ++ [])
    ∧ ({ base with program := expand .nop 0 0 0 ++ [.regRead 4 4] } : State).program =
        expand .nop 0 0 0 ++ [.regRead 4 4] := by decide

theorem test_hyp_NoAccessWhileACommandIsInFlight :
    (({ doing base (.regRead 4 4) with waiting := true } : State).inFlight = true
      ∧ step { doing base (.regRead 4 4) with waiting := true } =
          .next (after (step { doing base (.regRead 4 4) with waiting := true })))
    ∧ (({ captured 0 0 with proc := .inblock false 0 1 0 } : State).inFlight = true
      ∧ step { captured 0 0 with proc := .inblock false 0 1 0 } =
          .next (after (step { captured 0 0 with proc := .inblock false 0 1 0 }))) :=
  ⟨⟨by decide, eq_next_of_completes (by decide)⟩, by decide, eq_next_of_completes (by decide)⟩

theorem test_hyp_RegisterWritesReadBackOrAreIgnored :
    (0x24 : Word) ∈ [0x08#32, 0x0C#32, 0x10#32, 0x1C#32, 0x24#32]
    ∧ (0x1C : Word) ∈ [0x08#32, 0x0C#32, 0x10#32, 0x1C#32, 0x24#32]
    ∧ ((0x7C : Word).toNat % 4 = 0 ∧ (0x7C : Word).toNat ≤ 0x7C
      ∧ (0x7C : Word) ∉ [0x00#32, 0x08#32, 0x0C#32, 0x10#32, 0x1C#32, 0x24#32])
    ∧ ((0x04 : Word).toNat % 4 = 0 ∧ (0x04 : Word).toNat ≤ 0x7C
      ∧ (0x04 : Word) ∉ [0x00#32, 0x08#32, 0x0C#32, 0x10#32, 0x1C#32, 0x24#32]) := by decide

/-- With no schedule and with a host turn first; and for each clause an access just outside it. -/
theorem test_hyp_RefusedAccessChangesNothing :
    ((doing base (.regRead 0x80 4)).schedule = [] ∧ (doing base (.regRead 0x80 4)).proc = .idle
      ∧ (doing base (.regRead 0x80 4)).waiting = false
      ∧ (doing base (.regRead 0x80 4)).program = .regRead 0x80 4 :: [] ∧ 0x7C < (0x80 : Word).toNat)
    ∧ ({ doing base (.regWrite 0 2 0) with schedule := [.host, .signal] } : State).schedule = .host :: [.signal]
    ∧ (2 : Nat) ≠ 4 ∧ (0x7E : Word).toNat % 4 ≠ 0
    ∧ (3 : Nat) ∉ [1, 2, 4] ∧ (0xFFFF : Word).toNat % 2 ≠ 0
    ∧ base.cfg.memSize < (0x10000 : Word).toNat + 1 := by decide

theorem test_hyp_ReadsHaveNoSideEffect :
    ((0x7C : Word).toNat % 4 = 0 ∧ (0x7C : Word).toNat ≤ 0x7C)
    ∧ (1 ∈ [1, 2, 4] ∧ (0xFFFF : Word).toNat % 1 = 0 ∧ (0xFFFF : Word).toNat + 1 ≤ base.cfg.memSize)
    ∧ (4 ∈ [1, 2, 4] ∧ (0xFFFC : Word).toNat % 4 = 0 ∧ (0xFFFC : Word).toNat + 4 ≤ base.cfg.memSize)
    ∧ ¬ (2 ∈ [1, 2, 4] ∧ (0xFFFF : Word).toNat % 2 = 0 ∧ (0xFFFF : Word).toNat + 2 ≤ base.cfg.memSize) := by decide

theorem test_hyp_MemoryWriteIsLittleEndianAndReadsBack :
    (4 ∈ [1, 2, 4] ∧ (0xFFFC : Word).toNat % 4 = 0 ∧ (0xFFFC : Word).toNat + 4 ≤ base.cfg.memSize)
    ∧ (2 ∈ [1, 2, 4] ∧ (0 : Word).toNat % 2 = 0 ∧ (0 : Word).toNat + 2 ≤ base.cfg.memSize)
    ∧ ¬ (4 ∈ [1, 2, 4] ∧ (0x10000 : Word).toNat % 4 = 0 ∧ (0x10000 : Word).toNat + 4 ≤ base.cfg.memSize) := by decide

/-- A state within the invariant, of a ring, a queued block and a decoder at work. -/
theorem test_hyp_PackedRegistersShowTheirFields :
    base.Inv ∧ (captured 6 0).Inv ∧ ({ lastBit with cap := (captured 0 0).cap } : State).Inv :=
  ⟨by decide, by decide, by decide +kernel⟩

theorem test_hyp_ResetRegistersRead : base.cfg.wellFormed = true := by decide

theorem test_hyp_ResetMeetsTheInvariant : ({ Config.default with sig0 := true } : Config).wellFormed = true := by decide

theorem test_hyp_EveryStepKeepsTheInvariant :
    (captured 6 0).Inv
    ∧ (step (doing (captured 6 0) (commandAccess 0x22)) = .next (after (step (doing (captured 6 0) (commandAccess 0x22))))
      ∧ (doing (captured 6 0) (commandAccess 0x22)).Inv) :=
  ⟨by decide, eq_next_of_completes (by decide), by decide⟩

theorem test_hyp_NoStepStopsWithinTheInvariant :
    ({ captured 6 0 with proc := .inblock false 3 1 0 } : State).Inv := by decide

theorem test_hyp_NoRunEverStops : Config.default.wellFormed = true := by decide

theorem test_hyp_FailedCommandChangesNothingElse :
    base.inFlight = false ∧ exec .rbReset base = .next (after (exec .rbReset base))
    ∧ (after (exec .rbReset base)).inFlight = false ∧ (after (exec .rbReset base)).regs.err ≠ .ok
    ∧ (after (exec .rbReset base)).regs.err ≠ .dmaTimeout :=
  ⟨by decide, eq_next_of_completes (by decide), by decide, by decide, by decide⟩

theorem test_hyp_CommandsTouchOnlyTheirOwnState :
    exec .rbAdvanceRead (args (ringed 4 6 storage) 1 0 0) =
        .next (after (exec .rbAdvanceRead (args (ringed 4 6 storage) 1 0 0)))
    ∧ .rbAdvanceRead ∉ [Instr.rbWrite, .rbInsert, .rbRead, .decGetData] :=
  ⟨eq_next_of_completes (by decide), by decide⟩

/-- An edge about to complete block 1. -/
def atBlockEnd : State :=
  { base with cap := { (captured 0 0).cap with dmaIdx := 7, ntf := false }, schedule := [.signal] }

theorem test_hyp_OnlyABlockEventRaisesTheNotification :
    step atBlockEnd = .next (after (step atBlockEnd)) ∧ atBlockEnd.cap.ntf = false
    ∧ (after (step atBlockEnd)).cap.ntf = true := ⟨eq_next_of_completes (by decide), by decide, by decide⟩

theorem test_hyp_TagChangesOnlyWhenAFrameIsFound :
    step (doing lastBit (commandAccess 0x00400032)) = .next (after (step (doing lastBit (commandAccess 0x00400032))))
    ∧ (after (step (doing lastBit (commandAccess 0x00400032)))).tag ≠
        (doing lastBit (commandAccess 0x00400032)).tag :=
  ⟨eq_next_of_completes (by decide +kernel), by decide +kernel⟩

/-- Without a ring; a source one byte too far; a source that ends with MEM; a full ring, which takes nothing. -/
theorem test_hyp_RbWriteCopiesByteByByte :
    base.ring.valid = false
    ∧ ((ringed 0 0 []).ring.valid = true ∧ 2 = min 2 (ringed 0 0 []).ring.free ∧ 0xFFFD + 2 * 2 > base.cfg.memSize)
    ∧ ((ringed 0 0 []).ring.Inv base.cfg.memSize ∧ 0xFFFC + 2 * 2 ≤ base.cfg.memSize)
    ∧ (0 = min 5 (ringed 6 0 storage).ring.free ∧ (ringed 6 0 storage).ring.Inv base.cfg.memSize
      ∧ 0x10000 + 0 * 2 ≤ base.cfg.memSize) := by decide

/-- Without a ring; a destination one byte too far; one that ends with MEM; an empty ring. -/
theorem test_hyp_RbReadCopiesByteByByte :
    base.ring.valid = false
    ∧ ((ringed 4 0 storage).ring.valid = true ∧ 2 = min 9 (ringed 4 0 storage).ring.occ
      ∧ 0xFFFD + 2 * 2 > base.cfg.memSize)
    ∧ ((ringed 4 0 storage).ring.Inv base.cfg.memSize ∧ 0xFFFC + 2 * 2 ≤ base.cfg.memSize)
    ∧ (0 = min 9 (ringed 4 4 storage).ring.occ ∧ (ringed 4 4 storage).ring.Inv base.cfg.memSize) := by decide

/-- Without a ring; a source one byte too far; one that ends with MEM, on a ring that is full and on one that is not. -/
theorem test_hyp_RbInsertStoresAndEvictsTheOldest :
    base.ring.valid = false
    ∧ ((ringed 6 0 []).ring.valid = true ∧ (0xFFFF : Word).toNat + (ringed 6 0 []).ring.esz.toNat > base.cfg.memSize)
    ∧ ((ringed 6 0 []).ring.free = 0 ∧ (ringed 6 0 []).ring.Inv base.cfg.memSize
      ∧ (0xFFFE : Word).toNat + (ringed 6 0 []).ring.esz.toNat ≤ base.cfg.memSize)
    ∧ ((ringed 4 0 []).ring.free = 1 ∧ (ringed 4 0 []).ring.Inv base.cfg.memSize) := by decide

/-- A full ring, with a source apart from the slot written and with one that shares a byte with it. -/
theorem test_hyp_RbInsertIsDropOldestEnqueue :
    (args (ringed 0 2 storage) 0x200 0 0).cfg.wellFormed = true
    ∧ (args (ringed 0 2 storage) 0x200 0 0).ring.Inv base.cfg.memSize
    ∧ (args (ringed 0 2 storage) 0x200 0 0).ring.valid = true ∧ (args (ringed 0 2 storage) 0x200 0 0).ring.free = 0
    ∧ (0x200 : Word).toNat + (ringed 0 2 storage).ring.esz.toNat ≤ base.cfg.memSize
    ∧ (∀ j < 2, ∀ k < 2, (0x200 : Word).toNat + k ≠ (ringed 0 2 storage).ring.addr 0 j)
    ∧ (0xFF : Word).toNat + 1 = (ringed 0 2 storage).ring.addr 0 0 := by decide

/-- All that is held may be discarded, one more may not. -/
theorem test_hyp_RbAdvanceReadDiscardsTheOldest :
    base.cfg.wellFormed = true ∧ base.ring.Inv base.cfg.memSize
    ∧ (ringed 4 6 storage).ring.Inv base.cfg.memSize ∧ (ringed 4 6 storage).ring.valid = true
    ∧ (3 : Word).toNat ≤ (ringed 4 6 storage).ring.occ ∧ (4 : Word).toNat > (ringed 4 6 storage).ring.occ := by decide

theorem test_hyp_RbQueriesReturnTheContiguousRun :
    base.cfg.wellFormed = true ∧ (base.ring.Inv base.cfg.memSize ∧ base.ring.valid = false)
    ∧ ((ringed 4 6 storage).ring.Inv base.cfg.memSize ∧ (ringed 4 6 storage).ring.valid = true)
    ∧ ((ringed 0 6 storage).ring.Inv base.cfg.memSize ∧ (ringed 0 6 storage).ring.valid = true) := by decide

/-- The state after the write of the session below. -/
def written : State := after (exec .rbWrite (args (ringed 6 6 storage) 0x206 3 0))

/-- The state after the read of the session below. -/
def read : State := after (exec .rbRead (args written 0x300 9 0))

/-- A session: three elements written across the end of storage, then all of them read. -/
theorem test_hyp_RingDeliversInFifoOrder :
    (ringed 6 6 storage).cfg.wellFormed = true ∧ (ringed 6 6 storage).ring.Inv base.cfg.memSize
    ∧ (ringed 6 6 storage).ring.valid = true
    ∧ RingSession (ringed 6 6 storage) (cells 0 [0xA6, 0xA7, 0xA8, 0xA9, 0xAA, 0xAB]).unzip.2
        (cells 0 [0xA6, 0xA7, 0xA8, 0xA9, 0xAA, 0xAB]).unzip.2 read := by
  refine ⟨by decide, by decide, by decide, ?_⟩
  refine RingSession.op (t := written) (o := .write 0x206 3) (offered := []) (by decide)
    (eq_next_of_completes (by decide)) (by decide) ?_ ?_
  · intro a n h; cases h; decide
  · refine RingSession.op (t := read) (o := .read 0x300 9) (delivered := []) (by decide)
      (eq_next_of_completes (by decide)) (by decide) ?_ (RingSession.done read)
    intro a n h; cases h

theorem test_hyp_TickCountsModuloTheReload :
    ({ base with schedule := [.timer] } : State).schedule = .timer :: []
    ∧ ({ base with cap := { base.cap with cnt := 9, arr := 9 } } : State).cap.cnt.toNat ≤ 9 := by decide

theorem test_hyp_EdgeCapturesAndDeliversBlocks :
    atBlockEnd.cfg.wellFormed = true ∧ atBlockEnd.schedule = .signal :: [] ∧ atBlockEnd.cap.dmaEn = true
    ∧ atBlockEnd.cap.dmaIdx + 1 = 2 * atBlockEnd.cfg.blockLen := by decide

/-- An empty, a part-full and a full queue. -/
theorem test_hyp_BlockQueueIsFirstInFirstOut :
    base.bq.Inv base.cfg.bqDepth ∧ ((captured 0 0).bq.Inv base.cfg.bqDepth ∧ 0 < (captured 0 0).bq.count)
    ∧ ({ slots := [true, false, true, false], head := 1, tail := 1, count := 4 } : BlockQueue).Inv base.cfg.bqDepth := by
  decide

theorem test_hyp_CapProcessStartPopsOrEnds :
    (base.proc = .idle ∧ base.ring.valid = false)
    ∧ ((ringed 0 0 []).proc = .idle ∧ (ringed 0 0 []).ring.valid = true ∧ (ringed 0 0 []).ring.esz = 2#32
      ∧ (ringed 0 0 []).bq.count = 0)
    ∧ ((captured 0 0).proc = .idle ∧ (captured 0 0).ring.valid = true ∧ (captured 0 0).ring.esz = 2#32
      ∧ (captured 0 0).bq.count ≠ 0 ∧ (captured 0 0).bq.slots[(captured 0 0).bq.tail]? = some false) := by decide

/-- In a block, over a full ring, with no schedule and with a host turn first; at its end with nothing queued; at its end
with a block queued. -/
theorem test_hyp_CapProcessElementAppendsTheWidth :
    (({ captured 6 0 with proc := .inblock false 1 1 0, cap := { (captured 6 0).cap with havePrev := true } } : State).Inv
      ∧ (captured 6 0).schedule = []
      ∧ ({ captured 6 0 with schedule := [.host, .timer] } : State).schedule = .host :: [.timer]
      ∧ (captured 6 0).cap.capbuf[false.toNat * (captured 6 0).cfg.blockLen + 1]? =
          some (some 350#32)
      ∧ 1 = (if true = true then 0 + 1 else 0) ∧ 1 + 1 < (captured 6 0).cfg.blockLen)
    ∧ (({ captured 2 0 with proc := .inblock false 3 1 2, bq := base.bq } : State).Inv
      ∧ 3 + 1 = (captured 2 0).cfg.blockLen ∧ base.bq.count = 0)
    ∧ (({ captured 2 0 with proc := .inblock false 3 1 2 } : State).Inv ∧ 0 < (captured 2 0).bq.count) :=
  ⟨⟨by decide, by decide⟩, ⟨by decide, by decide⟩, by decide, by decide⟩

theorem test_hyp_CapProcessEndsWhenNothingArrives :
    ((doing (captured 6 0) (commandAccess 0x22)).Inv ∧ (doing (captured 6 0) (commandAccess 0x22)).hostFree
      ∧ (captured 6 0).ring.valid = true ∧ (captured 6 0).ring.esz = 2#32
      ∧ (doing (captured 6 0) (commandAccess 0x22)).program = [commandAccess 0x00000022#32])
    ∧ (doing (ringed 0 0 []) (commandAccess 0x22)).Inv := ⟨⟨by decide, by decide⟩, by decide⟩

theorem test_hyp_NotificationIsTakenOrAwaited :
    (base.waiting = false ∧ base.cap.ntf = false)
    ∧ ((captured 0 0).waiting = false ∧ (captured 0 0).cap.ntf = true) := by decide

theorem test_hyp_NtfWaitHoldsUntilTheNotification :
    ({ base with schedule := [.host], waiting := true } : State).schedule = .host :: []
    ∧ base.proc = .idle ∧ ({ captured 0 0 with schedule := [.host], waiting := true } : State).waiting = true
    ∧ (captured 0 0).cap.ntf = true := by decide

theorem test_hyp_DecBeginSelectsTheProtocol :
    3 < (4 : Half).toNat ∧ 3 < (0xFFFF : Half).toNat ∧ (0 : Half).toNat = Proto.em4100.code
    ∧ (3 : Half).toNat = Proto.h10301.code := by decide

/-- The events of two records (V-DEC-3). -/
theorem test_hyp_DecExecuteAndDecEventRunOnePass :
    ([⟨64, false⟩, ⟨64, true⟩] : List EdgeEvent) = (List.range (2 : Word).toNat).map (fun k =>
      ⟨memByte (cells 0x1000 [0x40, 0, 0xFE, 0xFF, 0x40, 0, 1, 0xAB]) ((0x1000 : Word).toNat + 4 * k + 1)
        ++ memByte (cells 0x1000 [0x40, 0, 0xFE, 0xFF, 0x40, 0, 1, 0xAB]) ((0x1000 : Word).toNat + 4 * k),
       (memByte (cells 0x1000 [0x40, 0, 0xFE, 0xFF, 0x40, 0, 1, 0xAB])
        ((0x1000 : Word).toNat + 4 * k + 2)).getLsbD 0⟩) := by decide

theorem test_hyp_DecGetDataWritesTheRecord :
    (0xFFF9 : Word).toNat + 8 > base.cfg.memSize ∧ (0xFFF8 : Word).toNat + 8 ≤ base.cfg.memSize := by decide

/-- V-DEC-7: 96 entries and 32 fit into 128 slots, 97 and 32 do not. -/
theorem test_hyp_PassConservesTheEdges :
    (List.replicate 96 (⟨1000, true⟩ : EdgeEvent)).length ≤ Config.default.edgeBufLen
    ∧ (List.replicate 96 (⟨1000, true⟩ : EdgeEvent)
        ++ (List.replicate 32 ⟨1000, false⟩).flatMap (emNormalise Config.default 64)).length = 128
    ∧ Config.default.edgeBufLen < (List.replicate 97 (⟨1000, true⟩ : EdgeEvent)
        ++ (List.replicate 32 ⟨1000, false⟩).flatMap (emNormalise Config.default 64)).length
    ∧ em16.proto ≠ .h10301 := by decide +kernel

theorem test_hyp_InvalidPairDropsOneEntry :
    emClassify Config.default 64 ⟨44, false⟩ ⟨64, true⟩ = .invalid
    ∧ h10Symbol Config.default ⟨46, true⟩ ⟨47, false⟩ = .invalid
    ∧ (⟨64, true⟩ : EdgeEvent).level = (⟨64, true⟩ : EdgeEvent).level := by decide

/-- H = 64: the window's edges 45 and 83. -/
theorem test_hyp_EmWindowsAreDisjoint :
    Config.default.wellFormed = true ∧ 0 < 64 ∧ Config.default.emTolHalfPct ≤ Config.default.emTolPairPct
    ∧ inHalf Config.default 64 45 = true ∧ inHalf Config.default 64 83 = true := by decide

/-- H = 64: 48 and 80 are 25% off, 25 is more than 60% short. -/
theorem test_hyp_EmClassifiesWithinTwentyFivePerCent :
    Config.default.wellFormed = true ∧ Config.default.emTolHalfPct ≤ Config.default.emTolPairPct
    ∧ 0 < (64 : Half).toNat ∧ 4 * absDiff 48 64 ≤ 64 ∧ 4 * absDiff 80 64 ≤ 64
    ∧ (⟨48, false⟩ : EdgeEvent).level ≠ (⟨80, true⟩ : EdgeEvent).level ∧ 10 * 25 ≤ 4 * 64 := by decide

theorem test_hyp_EmParityRejectsAnySingleBitFlip :
    0 < 64 ∧ 63 < 64 ∧ emValid (emPack [0xAA, 0xBB, 0xCC, 0xDD, 0xEE]) = true := by decide +kernel

/-- After DEC_BEGIN of EM4100/16, with the shortest and the longest idle. -/
theorem test_hyp_EmDecodesTheWaveOfATag :
    Config.default.wellFormed = true ∧ em16.proto ≠ .h10301
    ∧ em16.halfUs.toNat = protoHalfUs Config.default em16.proto ∧ em16.bitCnt = 0 ∧ em16.eb = []
    ∧ 3 * em16.halfUs.toNat ≤ 192 ∧ 192 < 65536 ∧ 3 * em16.halfUs.toNat ≤ 65535 ∧ 65535 < 65536 := by decide

theorem test_hyp_H10WindowDeclaresFourOfFiveOrFiveOfSix :
    Config.default.wellFormed = true ∧ ({ h10 with winLen := 6, winSym := 0b111100 } : Decoder).winLen ≤ 6
    ∧ ({ h10 with winLen := 6, winSym := 0b111100 } : Decoder).winDetect Config.default = some true
    ∧ ({ h10 with winLen := 6, winSym := 0b000010 } : Decoder).winDetect Config.default = some false
    ∧ h10.winLen ≤ 6 := by decide

theorem test_hyp_H10ParityRejectsAnySingleBitFlip :
    h10Valid Config.default (h10Pack Config.default 123 45678) = true ∧ 0 < 96 ∧ 95 < 96 ∧ 0 < 26 ∧ 25 < 26 := by
  decide +kernel

theorem batches_of_one (wave : List EdgeEvent) :
    (wave.map fun e => [e]).flatten = wave
    ∧ ∀ b ∈ wave.map fun e => [e], 1 ≤ b.length ∧ b.length ≤ Config.default.frameChunkSize := by
  constructor
  · induction wave with
    | nil => rfl
    | cons e rest ih => simpa using ih
  · intro b hb
    obtain ⟨e, -, rfl⟩ := List.mem_map.mp hb
    exact ⟨Nat.le_refl 1, show 1 ≤ 32 by decide⟩

/-- After DEC_BEGIN of H10301, the wave of a frame in batches of one event. -/
theorem test_hyp_H10DecodesTheWaveOfATag :
    (Config.default.wellFormed = true ∧ Config.default.h10PeriodZeroUs % 2 = 0
      ∧ Config.default.h10PeriodOneUs % 2 = 0 ∧ h10.proto = .h10301 ∧ h10.bitCnt = 0 ∧ h10.eb = []
      ∧ h10.winLen = 0)
    ∧ ((fskWave Config.default ((List.range 96).map fun p => (h10Pack Config.default 123 45678).getMsbD p)).map
        fun e => [e]).flatten =
      fskWave Config.default ((List.range 96).map fun p => (h10Pack Config.default 123 45678).getMsbD p)
    ∧ ∀ b ∈ (fskWave Config.default ((List.range 96).map fun p =>
        (h10Pack Config.default 123 45678).getMsbD p)).map fun e => [e],
      1 ≤ b.length ∧ b.length ≤ Config.default.frameChunkSize :=
  ⟨by decide, (batches_of_one _).1, (batches_of_one _).2⟩

theorem test_hyp_StepPerformsTheNextAccess :
    (base.schedule = [] ∧ base.proc = .idle ∧ base.waiting = false ∧ base.program = [])
    ∧ ({ doing base (.memRead 0 1) with schedule := [.host] } : State).schedule = .host :: []
    ∧ (doing base (.memRead 0 1)).program = .memRead 0 1 :: [] := by decide

end Sys2Proof.Tests
end

section
/-! The reset state meets the invariant of the machine (00_scope.md R8, 70_reset_and_hazards.md R381): one lemma per
part of `State.Inv` that reset has to establish, and their assembly. -/

namespace Sys2Proof.Machine

/-! ### The ranges that reset leans on -/

theorem Config.blockLen_pos {cfg : Config} (h : cfg.wellFormed = true) : 0 < cfg.blockLen := by
  simp only [Config.wellFormed, Bool.and_eq_true, decide_eq_true_eq] at h
  omega

theorem Config.bqDepth_pos {cfg : Config} (h : cfg.wellFormed = true) : 0 < cfg.bqDepth := by
  simp only [Config.wellFormed, Bool.and_eq_true, decide_eq_true_eq] at h
  omega

/-! ### The parts of the state at reset -/

/-- `ARR` resets to all ones, of `CNT_WIDTH` bits (10_state.md R28). -/
theorem State.resetWith_arr_lt (cfg : Config) : (State.resetWith cfg).cap.arr.toNat < 2 ^ cfg.cntWidth :=
  calc (BitVec.ofNat 32 (2 ^ cfg.cntWidth - 1)).toNat
    _ = (2 ^ cfg.cntWidth - 1) % 2 ^ 32 := BitVec.toNat_ofNat ..
    _ ≤ 2 ^ cfg.cntWidth - 1 := Nat.mod_le ..
    _ < 2 ^ cfg.cntWidth := Nat.sub_one_lt (Nat.two_pow_pos _).ne'

/-- There is no ring before RB_INIT, so its geometry is not constrained. -/
theorem Ring.Inv.reset (cfg : Config) : (State.resetWith cfg).ring.Inv cfg.memSize := by
  intro hvalid
  cases hvalid

/-- The queue is empty, with head and tail on slot 0, which exists since the queue has a slot. -/
theorem BlockQueue.Inv.reset {cfg : Config} (hdepth : 0 < cfg.bqDepth) :
    (State.resetWith cfg).bq.Inv cfg.bqDepth :=
  ⟨List.length_replicate, hdepth, hdepth, Nat.zero_le _, (Nat.zero_mod _).symm⟩

/-- No slot has been written yet, and none has to be: the DMA index is 0. -/
theorem Capture.Inv.reset {cfg : Config} (hblock : 0 < cfg.blockLen) : (State.resetWith cfg).cap.Inv cfg := by
  have hzero : (0 : Word).toNat < 2 ^ cfg.cntWidth := Nat.two_pow_pos _
  refine ⟨hzero, State.resetWith_arr_lt cfg, hzero, hzero, List.length_replicate, ?_, ?_⟩
  · show 0 < 2 * cfg.blockLen
    omega
  · exact fun j hj => absurd hj (Nat.not_lt_zero j)

/-- No block is queued. -/
theorem State.queueWritten_resetWith (cfg : Config) : (State.resetWith cfg).queueWritten :=
  fun k hk => absurd hk (Nat.not_lt_zero k)

/-- The decoder is inactive and every count and buffer of it is empty. -/
theorem Decoder.Inv.reset (cfg : Config) : (State.resetWith cfg).dec.Inv cfg :=
  ⟨Nat.zero_le _, Nat.zero_le _, Nat.zero_le _, rfl, fun _ => ⟨rfl, rfl, rfl⟩⟩

/-- The reset state with any parameters in range is within the invariant; no command is in flight. -/
theorem State.Inv.reset {cfg : Config} (h : cfg.wellFormed = true) : (State.resetWith cfg).Inv :=
  ⟨h, Memory.wf_reset cfg, Ring.Inv.reset cfg, BlockQueue.Inv.reset (Config.bqDepth_pos h),
    Capture.Inv.reset (Config.blockLen_pos h), State.queueWritten_resetWith cfg, rfl, Decoder.Inv.reset cfg⟩

/-- The invariant constrains neither the host's program nor the schedule of turns. -/
theorem State.inv_initial_iff (cfg : Config) (program : List HostAccess) (schedule : List Turn) :
    (State.initial cfg program schedule).Inv ↔ (State.resetWith cfg).Inv := Iff.rfl

/-- Settles O15: the reset state is within the invariant, and loading a program and a schedule leaves it there. -/
theorem resetMeetsTheInvariant : Obligations.ResetMeetsTheInvariant := by
  unfold Obligations.ResetMeetsTheInvariant
  intro cfg program schedule hcfg
  exact (State.inv_initial_iff cfg program schedule).mpr (State.Inv.reset hcfg)

end Sys2Proof.Machine
end

section
/-! What the commands that Laws/Step.lean leaves out can do, said once each, when they answer a next state. -/

namespace Sys2Proof.Machine

variable {s t : State}

/-! ### Ring commands (40_ringbuffer.md) -/

/-- RB_INIT fails, or sets up an empty ring over a range that fits MEM (R144). -/
theorem execRbInit_eq_next (h : execRbInit s = .next t) :
    (∃ e, t = s.fail e)
    ∨ (2 ≤ s.argN1 ∧ 1 ≤ s.argN2 ∧ s.argN0 + s.argN1 * s.argN2 ≤ s.cfg.memSize
        ∧ t = State.succeed
            { s with
              ring :=
                { valid := true, base := s.regs.arg0, cap := s.regs.arg1, esz := s.regs.arg2, head := 0
                  tail := 0 } } 0 0) := by
  unfold execRbInit at h
  split at h
  · cases h; exact .inl ⟨_, rfl⟩
  · split at h
    · cases h; exact .inl ⟨_, rfl⟩
    · cases h; exact .inr ⟨by omega, by omega, by omega, rfl⟩

/-- RB_RESET fails, or empties the ring (R145). -/
theorem execRbReset_eq_next (h : execRbReset s = .next t) :
    (∃ e, t = s.fail e)
    ∨ (s.ring.valid = true ∧ t = State.succeed { s with ring := { s.ring with head := 0, tail := 0 } } 0 0) := by
  unfold execRbReset at h
  split at h
  · cases h; exact .inl ⟨_, rfl⟩
  · rename_i hv; cases h; exact .inr ⟨by simpa using hv, rfl⟩

/-- RB_ADVANCE_READ fails, or moves the tail by elements that the ring holds (R149). -/
theorem execRbAdvanceRead_eq_next (h : execRbAdvanceRead s = .next t) :
    (∃ e, t = s.fail e)
    ∨ (s.ring.valid = true ∧ s.argN0 ≤ s.ring.occ
        ∧ t = State.succeed { s with ring := s.ring.popped (s.argN0 * s.ring.esz.toNat) } 0 0) := by
  unfold execRbAdvanceRead at h
  split at h
  · cases h; exact .inl ⟨_, rfl⟩
  · rename_i hv
    split at h
    · cases h; exact .inl ⟨_, rfl⟩
    · cases h; exact .inr ⟨by simpa using hv, by omega, rfl⟩

/-- RB_GET_READ_ADDRESS only ends, with some code and results (R150). -/
theorem execRbGetReadAddress_eq_next (h : execRbGetReadAddress s = .next t) : ∃ e r0 r1, t = s.ended e r0 r1 := by
  unfold execRbGetReadAddress at h
  split at h <;> cases h <;> exact ⟨_, _, _, rfl⟩

/-- RB_GET_READ_LEN only ends, with some code and results (R151). -/
theorem execRbGetReadLen_eq_next (h : execRbGetReadLen s = .next t) : ∃ e r0 r1, t = s.ended e r0 r1 := by
  unfold execRbGetReadLen at h
  split at h <;> cases h <;> exact ⟨_, _, _, rfl⟩

/-- RB_CHECK_EMPTY only ends, with some code and results (R152). -/
theorem execRbCheckEmpty_eq_next (h : execRbCheckEmpty s = .next t) : ∃ e r0 r1, t = s.ended e r0 r1 := by
  unfold execRbCheckEmpty at h
  split at h <;> cases h <;> exact ⟨_, _, _, rfl⟩

/-! ### Capture and notification (41_capture.md) -/

/-- CAP_START arms the capture once the channel is off, whether by a draw or already, or times out (R194). -/
theorem execCapStart_eq_next (h : execCapStart s = .next t) :
    ∃ n, (∃ en, t = (capArm
            { s with draws := n, cap := { s.cap with havePrev := false, dropCnt := 0, dmaEn := en } }).succeed 1 0)
      ∨ t = State.fail
          { s with draws := n, cap := { s.cap with havePrev := false, dropCnt := 1 } } .dmaTimeout := by
  unfold execCapStart at h
  rcases dmaDisable_cases (capStartClear s) with ⟨_, hd⟩ | ⟨_, _, hd⟩ | ⟨_, _, hd⟩ <;> rw [hd] at h <;> cases h
  · exact ⟨_, .inl ⟨_, rfl⟩⟩
  · exact ⟨_, .inl ⟨_, rfl⟩⟩
  · exact ⟨_, .inr rfl⟩

/-- CAP_PAUSE leaves the channel off, or times out and counts the failure as a drop (R195). -/
theorem execCapPause_eq_next (h : execCapPause s = .next t) :
    ∃ n, (∃ en, t = State.succeed { s with draws := n, cap := { s.cap with dmaEn := en } } 1 0)
      ∨ t = State.fail { s with draws := n, cap := s.cap.countDrop } .dmaTimeout := by
  unfold execCapPause at h
  rcases dmaDisable_cases s with ⟨_, hd⟩ | ⟨_, _, hd⟩ | ⟨_, _, hd⟩ <;> rw [hd] at h <;> cases h
  · exact ⟨_, .inl ⟨_, rfl⟩⟩
  · exact ⟨_, .inl ⟨_, rfl⟩⟩
  · exact ⟨_, .inr rfl⟩

/-- START of CAP_PROCESS fails, or goes to the next block over a ring of 2-byte elements (R184). -/
theorem execCapProcess_eq_next (h : execCapProcess s = .next t) :
    (∃ e, t = s.fail e) ∨ (s.ring.valid = true ∧ s.ring.esz = 2#32 ∧ nextBlock s 0 0 = .next t) := by
  unfold execCapProcess at h
  split at h
  · cases h; exact .inl ⟨_, rfl⟩
  · rename_i hg
    simp only [not_or, Bool.not_eq_false, not_not] at hg
    exact .inr ⟨hg.1, hg.2, h⟩

/-- NTF_WAIT takes the notification, or begins to wait for it (R198). -/
theorem execNtfWait_eq_next (h : execNtfWait s = .next t) :
    (s.cap.ntf = true ∧ t = ntfWaitDone s) ∨ (s.cap.ntf = false ∧ t = { s with waiting := true }) := by
  unfold execNtfWait at h
  split at h
  · cases h; exact .inl ⟨‹_›, rfl⟩
  · rename_i hn; cases h; exact .inr ⟨by simpa using hn, rfl⟩

/-! ### Decoder (42_decoder_port.md) -/

/-- DEC_BEGIN fails, or makes active a cleared decoder of the protocol (R227). -/
theorem execDecBegin_eq_next {imm : Half} (h : execDecBegin imm s = .next t) :
    (∃ e, t = s.fail e)
    ∨ ∃ p, t = State.succeed
        { s with
          dec :=
            { Decoder.fullReset { s.dec with proto := p, halfUs := BitVec.ofNat 16 (protoHalfUs s.cfg p) } with
              active := true } } 0 0 := by
  unfold execDecBegin at h
  split at h <;> cases h
  · exact .inl ⟨_, rfl⟩
  · exact .inr ⟨_, rfl⟩

/-- DEC_PARTIAL_RESET fails, or does what its name says (R228). -/
theorem execDecPartialReset_eq_next (h : execDecPartialReset s = .next t) :
    (∃ e, t = s.fail e) ∨ t = State.succeed { s with dec := s.dec.partialReset } 0 0 := by
  unfold execDecPartialReset at h
  split at h <;> cases h
  · exact .inl ⟨_, rfl⟩
  · exact .inr rfl

end Sys2Proof.Machine
end

section
/-! Every step keeps the invariant of the machine: how `State.Inv` passes through an update of one part of the state,
then the operations of each agent, then the step. -/

namespace Sys2Proof.Machine

variable {s t : State}

/-! ### The parts of the invariant, by name -/

theorem State.Inv.cfg_wf (h : s.Inv) : s.cfg.wellFormed = true := h.1

theorem State.Inv.mem_wf (h : s.Inv) : Memory.wf s.cfg.memSize s.mem := h.2.1

theorem State.Inv.ring_inv (h : s.Inv) : s.ring.Inv s.cfg.memSize := h.2.2.1

theorem State.Inv.bq_inv (h : s.Inv) : s.bq.Inv s.cfg.bqDepth := h.2.2.2.1

theorem State.Inv.cap_inv (h : s.Inv) : s.cap.Inv s.cfg := h.2.2.2.2.1

theorem State.Inv.queue_written (h : s.Inv) : s.queueWritten := h.2.2.2.2.2.1

theorem State.Inv.flight_ok (h : s.Inv) : s.flightOk = true := h.2.2.2.2.2.2.1

theorem State.Inv.dec_inv (h : s.Inv) : s.dec.Inv s.cfg := h.2.2.2.2.2.2.2

/-! ### The ranges that the steps lean on (00_scope.md R8) -/

theorem Config.memSize_le {cfg : Config} (h : cfg.wellFormed = true) : cfg.memSize ≤ 2 ^ 32 := by
  simp only [Config.wellFormed, Bool.and_eq_true, decide_eq_true_eq] at h
  omega

/-- Every half-bit period fits the 16 bits of `DEC_HALF_US`. -/
theorem Config.protoHalfUs_lt {cfg : Config} (h : cfg.wellFormed = true) (p : Proto) :
    protoHalfUs cfg p < 2 ^ 16 := by
  simp only [Config.wellFormed, Bool.and_eq_true, decide_eq_true_eq] at h
  cases p <;> simp only [protoHalfUs] <;> omega

/-! ### The command in flight -/

/-- A command in flight is constrained only while it is a CAP_PROCESS in a block. -/
theorem State.flightOk_iff :
    s.flightOk = true ↔ ∀ b i nb nw, s.proc = .inblock b i nb nw →
      s.waiting = false ∧ i < s.cfg.blockLen ∧ blockWritten s.cfg s.cap b ∧ s.ring.valid = true
        ∧ s.ring.esz = 2#32 := by
  cases hp : s.proc with
  | idle => simp [State.flightOk, hp]
  | inblock b i nb nw =>
    simp only [State.flightOk, hp, decide_eq_true_eq, Proc.inblock.injEq]
    exact ⟨fun h _ _ _ _ ⟨hb, hi, _, _⟩ => hb ▸ hi ▸ h, fun h => h b i nb nw ⟨rfl, rfl, rfl, rfl⟩⟩

theorem State.flightOk_of_idle (h : s.proc = .idle) : s.flightOk = true := by
  simp [State.flightOk, h]

/-! ### One part of the state replaced -/

/-- The invariant constrains neither the results of a command nor the bus's answer. -/
theorem State.Inv.ended (h : s.Inv) (e : ErrCode) (r0 r1 : Word) : (s.ended e r0 r1).Inv := h

theorem State.Inv.fail (h : s.Inv) (e : ErrCode) : (s.fail e).Inv := h

theorem State.Inv.succeed (h : s.Inv) (r0 r1 : Word) : (s.succeed r0 r1).Inv := h

theorem State.Inv.settle (h : s.Inv) : s.settle.Inv := h

/-- MEM is constrained to its canonical form. -/
theorem State.Inv.withMem (h : s.Inv) {m : Memory} (hm : Memory.wf s.cfg.memSize m) :
    State.Inv { s with mem := m } := by
  obtain ⟨hcfg, -, hring, hbq, hcap, hqueue, hflight, hdec⟩ := h
  exact ⟨hcfg, hm, hring, hbq, hcap, hqueue, hflight, hdec⟩

/-- Another ring suits a CAP_PROCESS in flight if it is there and has the same element size. -/
theorem State.Inv.withRing (h : s.Inv) {r : Ring} (hr : r.Inv s.cfg.memSize)
    (hsame : s.proc ≠ .idle → r.valid = s.ring.valid ∧ r.esz = s.ring.esz) : State.Inv { s with ring := r } := by
  obtain ⟨hcfg, hmem, -, hbq, hcap, hqueue, hflight, hdec⟩ := h
  refine ⟨hcfg, hmem, hr, hbq, hcap, hqueue, State.flightOk_iff.mpr fun b i nb nw hp => ?_, hdec⟩
  obtain ⟨hw, hi, hb, hv, he⟩ := State.flightOk_iff.mp hflight b i nb nw hp
  obtain ⟨hvalid, hesz⟩ := hsame (hp ▸ Proc.noConfusion)
  exact ⟨hw, hi, hb, hvalid.trans hv, hesz.trans he⟩

theorem State.Inv.withDec (h : s.Inv) {d : Decoder} (hd : d.Inv s.cfg) : State.Inv { s with dec := d } := by
  obtain ⟨hcfg, hmem, hring, hbq, hcap, hqueue, hflight, -⟩ := h
  exact ⟨hcfg, hmem, hring, hbq, hcap, hqueue, hflight, hd⟩

/-- A queue is suitable when its blocks have been written (70_reset_and_hazards.md R401). -/
theorem State.Inv.withBq (h : s.Inv) {q : BlockQueue} (hq : q.Inv s.cfg.bqDepth)
    (hwritten : State.queueWritten { s with bq := q }) : State.Inv { s with bq := q } := by
  obtain ⟨hcfg, hmem, hring, -, hcap, -, hflight, hdec⟩ := h
  exact ⟨hcfg, hmem, hring, hq, hcap, hwritten, hflight, hdec⟩

/-- A capture state is suitable when it still has every written slot: what is queued or in flight is written then. -/
theorem State.Inv.withCap (h : s.Inv) {c : Capture} (hc : c.Inv s.cfg)
    (hslots : ∀ j, slotWritten s.cfg s.cap j = true → slotWritten s.cfg c j = true) :
    State.Inv { s with cap := c } := by
  obtain ⟨hcfg, hmem, hring, hbq, -, hqueue, hflight, hdec⟩ := h
  refine ⟨hcfg, hmem, hring, hbq, hc, fun k hk i hi => hslots _ (hqueue k hk i hi),
    State.flightOk_iff.mpr fun b i nb nw hp => ?_, hdec⟩
  obtain ⟨hw, hi, hb, hring⟩ := State.flightOk_iff.mp hflight b i nb nw hp
  exact ⟨hw, hi, fun j hj => hslots _ (hb j hj), hring⟩

/-- With no command in flight the invariant does not look at `waiting`. -/
theorem State.Inv.withWaiting (h : s.Inv) (hp : s.proc = .idle) (w : Bool) : State.Inv { s with waiting := w } := by
  obtain ⟨hcfg, hmem, hring, hbq, hcap, hqueue, -, hdec⟩ := h
  exact ⟨hcfg, hmem, hring, hbq, hcap, hqueue, State.flightOk_of_idle hp, hdec⟩

/-- A drop counted. -/
theorem State.Inv.countDrop (h : s.Inv) : State.Inv { s with cap := s.cap.countDrop } := h

/-- The registers that the capture's invariant does not constrain. -/
theorem State.Inv.withCapFlags (h : s.Inv) (timEn irqEn sig dmaEn havePrev ntf : Bool) (dropCnt : Word) :
    State.Inv
      { s with
        cap :=
          { s.cap with
            timEn := timEn, irqEn := irqEn, sig := sig, dmaEn := dmaEn, havePrev := havePrev, ntf := ntf
            dropCnt := dropCnt } } := h

/-! ### TIMER (41_capture.md R171) -/

/-- The counter stays within `CNT_WIDTH` bits: it grows only while it is below `ARR`, which does. -/
theorem State.Inv.tick (h : s.Inv) : (tick s).Inv := by
  obtain ⟨hcnt, harr, hccr, hprev, hlen, hidx, hslots⟩ := h.cap_inv
  refine h.withCap ⟨?_, harr, hccr, hprev, hlen, hidx, hslots⟩ fun _ => id
  show (if s.cap.arr.toNat ≤ s.cap.cnt.toNat then (0 : Word) else BitVec.ofNat 32 (s.cap.cnt.toNat + 1)).toNat < _
  split
  · exact Nat.two_pow_pos _
  · have := Nat.mod_le (s.cap.cnt.toNat + 1) (2 ^ 32)
    rw [BitVec.toNat_ofNat]
    omega

theorem State.Inv.timerTurn (h : s.Inv) : (timerTurn s).Inv := by
  unfold Machine.timerTurn
  split
  · exact h.tick
  · exact h

/-! ### SIGNAL (41_capture.md R180 to R182) -/

theorem State.Inv.latchEdge (h : s.Inv) : (latchEdge s).Inv := by
  obtain ⟨hcnt, harr, -, hprev, hlen, hidx, hslots⟩ := h.cap_inv
  exact h.withCap ⟨hcnt, harr, hcnt, hprev, hlen, hidx, hslots⟩ fun _ => id

/-- A transfer writes the slot at the DMA index, and no slot is lost. -/
theorem slotWritten_dmaTransfer_iff (hc : s.cap.Inv s.cfg) (j : Nat) :
    slotWritten s.cfg (dmaTransfer s).cap j = true ↔ j = s.cap.dmaIdx ∨ slotWritten s.cfg s.cap j = true := by
  obtain ⟨-, -, hccr, -, hlen, hidx, -⟩ := hc
  simp only [slotWritten, dmaTransfer_cap, List.getD_eq_getElem?_getD]
  by_cases hj : j = s.cap.dmaIdx
  · subst hj
    simp [List.getElem?_set_self (show s.cap.dmaIdx < s.cap.capbuf.length by omega), hccr]
  · simp [List.getElem?_set_ne (Ne.symm hj), hj]

/-- Once the index has moved past a slot, that slot has been written. -/
theorem slotWritten_dmaTransfer_of_lt (hc : s.cap.Inv s.cfg) {j : Nat} (hj : j < s.cap.dmaIdx + 1) :
    slotWritten s.cfg (dmaTransfer s).cap j = true := by
  rw [slotWritten_dmaTransfer_iff hc]
  obtain ⟨-, -, -, -, -, -, hbelow⟩ := hc
  rcases Nat.lt_succ_iff_lt_or_eq.mp hj with hlt | heq
  · exact .inr (hbelow j hlt)
  · exact .inl heq

/-- A transfer with the DMA index at `n` afterwards: `DMA_IDX + 1`, or 0 where it wraps. -/
theorem State.Inv.dmaTransfer_withIdx (h : s.Inv) {n : Nat} (hn : n < 2 * s.cfg.blockLen)
    (hle : n ≤ s.cap.dmaIdx + 1) :
    State.Inv { dmaTransfer s with cap := { (dmaTransfer s).cap with dmaIdx := n } } := by
  have hc := h.cap_inv
  obtain ⟨hcnt, harr, hccr, hprev, hlen, -, -⟩ := h.cap_inv
  refine h.withCap ⟨hcnt, harr, hccr, hprev, ?_, hn, ?_⟩ fun j hj => (slotWritten_dmaTransfer_iff hc j).mpr (.inr hj)
  · exact (List.length_set ..).trans hlen
  · exact fun j hj => slotWritten_dmaTransfer_of_lt hc (Nat.lt_of_lt_of_le hj hle)

/-- A written block may be queued: its slot of the queue is the new one, and every other is as before. -/
theorem State.Inv.bqPush (h : s.Inv) {b : Bool} (hb : blockWritten s.cfg s.cap b) : (bqPush s b).Inv := by
  obtain ⟨hlen, hhead, htail, hcount, hpos⟩ := h.bq_inv
  rcases bqPush_cases s b with ⟨-, heq⟩ | ⟨hne, heq⟩ <;> rw [heq]
  · exact h.countDrop
  · have hdepth : 0 < s.cfg.bqDepth := by omega
    refine h.withBq ⟨(List.length_set ..).trans hlen, Nat.mod_lt _ hdepth, htail, Nat.lt_of_le_of_ne hcount hne, ?_⟩ ?_
    · show (s.bq.head + 1) % s.cfg.bqDepth = (s.bq.tail + (s.bq.count + 1)) % s.cfg.bqDepth
      rw [hpos, Nat.mod_add_mod, Nat.add_assoc]
    · intro k hk
      show blockWritten s.cfg s.cap ((s.bq.slots.set s.bq.head b).getD ((s.bq.tail + k) % s.cfg.bqDepth) false)
      rw [List.getD_eq_getElem?_getD]
      by_cases hslot : s.bq.head = (s.bq.tail + k) % s.cfg.bqDepth
      · rw [← hslot, List.getElem?_set_self (by omega)]
        exact hb
      · rw [List.getElem?_set_ne hslot, ← List.getD_eq_getElem?_getD]
        have hk' : k ≠ s.bq.count := fun he => hslot (he ▸ hpos)
        have hle : k < s.bq.count + 1 := hk
        exact h.queue_written k (by omega)

theorem State.Inv.blockEvent (h : s.Inv) {b : Bool} (hb : blockWritten s.cfg s.cap b) : (blockEvent s b).Inv :=
  (h.bqPush hb).withCapFlags _ _ _ _ _ true _

theorem State.Inv.edge (h : s.Inv) : (edge s).Inv := by
  have hl := h.latchEdge
  have hc := hl.cap_inv
  obtain ⟨-, -, -, -, -, hidx, -⟩ := h.cap_inv
  have hpos := Config.blockLen_pos h.cfg_wf
  rcases edge_cases s with ⟨-, heq⟩ | ⟨-, -, hne, heq⟩ | ⟨-, hend, heq⟩ | ⟨-, -, hend, heq⟩ <;> rw [heq]
  · exact hl
  · exact hl.dmaTransfer_withIdx (n := s.cap.dmaIdx + 1) (show _ < 2 * s.cfg.blockLen by omega) (Nat.le_refl _)
  · refine (hl.dmaTransfer_withIdx (n := s.cap.dmaIdx + 1) (show _ < 2 * s.cfg.blockLen by omega)
      (Nat.le_refl _)).blockEvent fun i hi => ?_
    refine slotWritten_dmaTransfer_of_lt hc (show captureIndex s.cfg.blockLen false i < s.cap.dmaIdx + 1 from ?_)
    simpa [captureIndex, hend] using hi
  · refine (hl.dmaTransfer_withIdx (n := 0) (show 0 < 2 * s.cfg.blockLen by omega)
      (Nat.zero_le _)).blockEvent fun i hi => ?_
    refine slotWritten_dmaTransfer_of_lt hc (show captureIndex s.cfg.blockLen true i < s.cap.dmaIdx + 1 from ?_)
    have hi : i < s.cfg.blockLen := hi
    simp only [captureIndex, Bool.toNat_true, Nat.one_mul]
    omega

/-! ### CAP_PROCESS (41_capture.md R184) -/

/-- The block taken off the queue is the one in flight then, and it has been written. -/
theorem State.Inv.nextBlock (h : s.Inv) (hw : s.waiting = false) (hv : s.ring.valid = true)
    (hesz : s.ring.esz = 2#32) {nb nw : Nat} (hnext : nextBlock s nb nw = .next t) : t.Inv := by
  obtain ⟨hlen, hhead, htail, hcount, hpos⟩ := h.bq_inv
  have hdepth : 0 < s.cfg.bqDepth := by omega
  rcases nextBlock_eq_next hnext with ⟨-, rfl⟩ | ⟨hne, b, hb, rfl⟩
  · exact ⟨h.cfg_wf, h.mem_wf, h.ring_inv, h.bq_inv, h.cap_inv, h.queue_written, rfl, h.dec_inv⟩
  · have hblock : blockWritten s.cfg s.cap b := by
      have := h.queue_written 0 (Nat.pos_of_ne_zero hne)
      rwa [Nat.add_zero, Nat.mod_eq_of_lt htail, List.getD_eq_getElem?_getD, hb] at this
    refine ⟨h.cfg_wf, h.mem_wf, h.ring_inv, ⟨hlen, hhead, Nat.mod_lt _ hdepth, ?_, ?_⟩, h.cap_inv,
      fun k hk => ?_, ?_, h.dec_inv⟩
    · exact (Nat.sub_le ..).trans hcount
    · show s.bq.head = ((s.bq.tail + 1) % s.cfg.bqDepth + (s.bq.count - 1)) % s.cfg.bqDepth
      rw [hpos, Nat.mod_add_mod, Nat.add_assoc, Nat.add_sub_cancel' (Nat.pos_of_ne_zero hne)]
    · show blockWritten s.cfg s.cap
        (s.bq.slots.getD (((s.bq.tail + 1) % s.cfg.bqDepth + k) % s.cfg.bqDepth) false)
      rw [Nat.mod_add_mod, Nat.add_assoc, Nat.add_comm 1 k]
      exact h.queue_written (k + 1) (Nat.add_lt_of_lt_sub hk)
    · refine State.flightOk_iff.mpr fun b' i nb nw hp => ?_
      cases hp
      exact ⟨hw, Config.blockLen_pos h.cfg_wf, hblock, hv, hesz⟩

/-- After an element the same block goes on, at the next slot, or the next one comes. -/
theorem State.Inv.elemNext (h : s.Inv) {b : Bool} {i nb nw nb' nw' : Nat} (hp : s.proc = .inblock b i nb' nw')
    (hnext : elemNext s b i nb nw = .next t) : t.Inv := by
  obtain ⟨hw, -, hblock, hv, hesz⟩ := State.flightOk_iff.mp h.flight_ok _ _ _ _ hp
  rcases elemNext_eq_next hnext with ⟨hi, rfl⟩ | ⟨-, hnb⟩
  · refine ⟨h.cfg_wf, h.mem_wf, h.ring_inv, h.bq_inv, h.cap_inv, h.queue_written,
      State.flightOk_iff.mpr fun b' i' nb' nw' hp' => ?_, h.dec_inv⟩
    cases hp'
    exact ⟨hw, hi, hblock, hv, hesz⟩
  · exact h.nextBlock hw hv hesz hnb

/-- `PREV_CAP` takes a value of `CNT_WIDTH` bits. -/
theorem State.Inv.rememberCapture (h : s.Inv) {cur : Word} (hcur : cur.toNat < 2 ^ s.cfg.cntWidth) :
    (rememberCapture s cur).Inv := by
  obtain ⟨hcnt, harr, hccr, -, hlen, hidx, hslots⟩ := h.cap_inv
  exact h.withCap ⟨hcnt, harr, hccr, hcur, hlen, hidx, hslots⟩ fun _ => id

/-- The eviction of `RingInsert` moves the tail by an element, and counts a drop (40_ringbuffer.md R147). -/
theorem State.Inv.ringEvict (h : s.Inv) : (ringEvict s).Inv := by
  by_cases hfull : s.ring.free = 0
  · have hring := h.ring_inv.popped (Config.memSize_le h.cfg_wf) (Nat.dvd_refl s.ring.esz.toNat)
    simpa [Machine.ringEvict, hfull] using h.countDrop.withRing hring fun _ => ⟨rfl, rfl⟩
  · simpa [Machine.ringEvict, hfull] using h

/-- The head moved by whole elements, with any bytes in MEM. -/
theorem State.Inv.pushed (h : s.Inv) {m : Memory} (hm : Memory.wf s.cfg.memSize m) {n : Nat}
    (hn : s.ring.esz.toNat ∣ n) : State.Inv { s with mem := m, ring := s.ring.pushed n } :=
  (h.withMem hm).withRing (h.ring_inv.pushed (Config.memSize_le h.cfg_wf) hn) fun _ => ⟨rfl, rfl⟩

/-- The tail moved by whole elements, with any bytes in MEM. -/
theorem State.Inv.popped (h : s.Inv) {m : Memory} (hm : Memory.wf s.cfg.memSize m) {n : Nat}
    (hn : s.ring.esz.toNat ∣ n) : State.Inv { s with mem := m, ring := s.ring.popped n } :=
  (h.withMem hm).withRing (h.ring_inv.popped (Config.memSize_le h.cfg_wf) hn) fun _ => ⟨rfl, rfl⟩

/-- An insert of one element, for which the eviction makes room. -/
theorem State.Inv.ringInsert (h : s.Inv) {bytes : List Byte} (hlen : bytes.length = s.ring.esz.toNat)
    (hins : ringInsert s bytes = some t) : t.Inv := by
  obtain ⟨m, hm, rfl⟩ := Option.map_eq_some_iff.mp hins
  refine h.ringEvict.pushed ((storeBytes_eq_some hm).2.1 h.mem_wf) ?_
  rw [(ringEvict_slot s).1, hlen]

/-- ELEM consumes a value that an edge has written, so of `CNT_WIDTH` bits, and inserts an element of two bytes, the
element size of the ring (R184 to R188). -/
theorem State.Inv.elem (h : s.Inv) {b : Bool} {i nb nw : Nat} (hp : s.proc = .inblock b i nb nw)
    (helem : elem s b i nb nw = .next t) : t.Inv := by
  obtain ⟨-, hi, hblock, -, hesz⟩ := State.flightOk_iff.mp h.flight_ok _ _ _ _ hp
  obtain ⟨cur, hslot, hcase⟩ := elem_eq_next helem
  have hcur : cur.toNat < 2 ^ s.cfg.cntWidth := by
    simpa [slotWritten, List.getD_eq_getElem?_getD, hslot] using hblock i hi
  rcases hcase with ⟨-, u, hins, hnext⟩ | ⟨-, hnext⟩
  · have hu : u.Inv := h.ringInsert (by simp [hesz]) hins
    obtain ⟨m, rfl⟩ := ringInsert_eq_some hins
    exact (hu.rememberCapture hcur).elemNext hp hnext
  · exact (h.rememberCapture hcur).elemNext hp hnext

/-! ### The decoder (42_decoder_port.md) -/

section decoder
variable {cfg : Config} {d : Decoder}

theorem Decoder.Inv.fullReset (h : d.Inv cfg) : d.fullReset.Inv cfg := by
  obtain ⟨-, -, -, hhalf, -⟩ := h
  exact ⟨Nat.zero_le _, Nat.zero_le _, Nat.zero_le _, hhalf, fun _ => ⟨rfl, rfl, rfl⟩⟩

theorem Decoder.Inv.partialReset (h : d.Inv cfg) : d.partialReset.Inv cfg := by
  obtain ⟨-, -, -, hhalf, hem⟩ := h
  refine ⟨Nat.zero_le _, Nat.zero_le _, Nat.zero_le _, hhalf, fun hp => ?_⟩
  obtain ⟨hfw2, -, hsym⟩ := hem hp
  exact ⟨hfw2, rfl, hsym⟩

/-- The decoder that DEC_BEGIN makes has the half-bit period of its protocol (R227). -/
theorem Decoder.Inv.begin (hcfg : cfg.wellFormed = true) (d : Decoder) (p : Proto) :
    Decoder.Inv cfg
      { Decoder.fullReset { d with proto := p, halfUs := BitVec.ofNat 16 (protoHalfUs cfg p) } with
        active := true } := by
  refine ⟨Nat.zero_le _, Nat.zero_le _, Nat.zero_le _, ?_, fun _ => ⟨rfl, rfl, rfl⟩⟩
  show (BitVec.ofNat 16 (protoHalfUs cfg p)).toNat = protoHalfUs cfg p
  rw [BitVec.toNat_ofNat, Nat.mod_eq_of_lt (Config.protoHalfUs_lt hcfg p)]

theorem Proto.frameBits_of_ne {p : Proto} (h : p ≠ .h10301) : p.frameBits = 64 := by
  cases p with
  | h10301 => exact absurd rfl h
  | em4100 | em4100Over32 | em4100Over16 => rfl

/-- A pass takes entries off the buffer, and never shifts past the frame. -/
theorem Decoder.Inv.decExecutePass (h : d.Inv cfg) (ev : List EdgeEvent) : (decExecutePass cfg d ev).1.Inv cfg := by
  have hreset := h.fullReset
  obtain ⟨hbits, hlen, hwin, hhalf, hem⟩ := h
  rcases decExecutePass_cases cfg d ev hlen with ⟨-, heq⟩ | ⟨hle, heq⟩ <;> rw [heq]
  · exact hreset
  · have hdrop (n : Nat) : ((d.eb ++ passEntries cfg d ev).drop n).length ≤ cfg.edgeBufLen := by
      simp only [List.length_drop, List.length_append]
      omega
    split
    · rename_i hp
      obtain ⟨⟨n, -, heb⟩, hb, hw, hactive, hproto, hhalfUs⟩ := h10Pass_spec cfg (d.eb ++ passEntries cfg d ev) d
      rw [hp] at hbits
      refine ⟨?_, heb ▸ hdrop n, hw hwin, ?_, fun hne => absurd (hproto.trans hp) hne⟩
      · rw [hproto, hp]; exact hb hbits
      · rw [hhalfUs, hactive, hproto, hhalf]
    · rename_i hp
      obtain ⟨⟨n, -, heb⟩, hb, hactive, hproto, hhalfUs, hfw2, hwl, hws⟩ :=
        emPass_spec cfg (d.eb ++ passEntries cfg d ev) d
      rw [Proto.frameBits_of_ne hp] at hbits
      refine ⟨?_, heb ▸ hdrop n, hwl ▸ hwin, ?_, fun _ => ?_⟩
      · rw [hproto, Proto.frameBits_of_ne hp]; exact hb hbits
      · rw [hhalfUs, hactive, hproto, hhalf]
      · rw [hfw2, hwl, hws]; exact hem hp

end decoder

theorem State.Inv.runPass (h : s.Inv) (ev : List EdgeEvent) : (runPass s ev).Inv :=
  h.withDec (h.dec_inv.decExecutePass ev)

/-! ### Commands -/

/-- RB_INIT makes a ring that meets its invariants (40_ringbuffer.md R144). -/
theorem Ring.Inv.init {size : Nat} {base cap esz : Word} (hcap : 2 ≤ cap.toNat) (hesz : 1 ≤ esz.toNat)
    (hfit : base.toNat + cap.toNat * esz.toNat ≤ size) :
    Ring.Inv size { valid := true, base := base, cap := cap, esz := esz, head := 0, tail := 0 } := by
  have hpos : 0 < cap.toNat * esz.toNat := Nat.mul_pos (by omega) (by omega)
  exact fun _ => ⟨hcap, hesz, hfit, hpos, hpos, Nat.zero_mod _, Nat.zero_mod _⟩

/-- RB_RESET keeps the geometry, and offset 0 lies inside it (R145). -/
theorem Ring.Inv.emptied {size : Nat} {r : Ring} (h : r.Inv size) : Ring.Inv size { r with head := 0, tail := 0 } := by
  intro hv
  obtain ⟨hcap, hesz, hfit, -⟩ := h hv
  have hpos := h.endIndex_pos hv
  exact ⟨hcap, hesz, hfit, hpos, hpos, Nat.zero_mod _, Nat.zero_mod _⟩

/-- The arming of CAP_START empties the queue and begins at slot 0 (41_capture.md R194). -/
theorem State.Inv.capArm (h : s.Inv) : (capArm s).Inv := by
  obtain ⟨hlen, -⟩ := h.bq_inv
  obtain ⟨hcnt, harr, hccr, hprev, hbuf, -, -⟩ := h.cap_inv
  have hblock := Config.blockLen_pos h.cfg_wf
  have hdepth := Config.bqDepth_pos h.cfg_wf
  have hq := h.withBq (q := { s.bq with head := 0, tail := 0, count := 0 })
    ⟨hlen, hdepth, hdepth, Nat.zero_le _, (Nat.zero_mod _).symm⟩ fun k hk => absurd hk (Nat.not_lt_zero k)
  exact hq.withCap (c := { s.cap with ntf := false, dmaIdx := 0, dmaEn := true })
    ⟨hcnt, harr, hccr, hprev, hbuf, by simp only; omega, fun j hj => absurd hj (Nat.not_lt_zero j)⟩ fun _ => id

/-- A command of an idle machine keeps the invariant. -/
theorem State.Inv.exec (h : s.Inv) (hp : s.proc = .idle) (hw : s.waiting = false) {i : Instr}
    (hexec : exec i s = .next t) : t.Inv := by
  cases i with
  | nop => cases hexec; exact h.succeed 0 0
  | rbInit =>
    rcases execRbInit_eq_next hexec with ⟨e, rfl⟩ | ⟨hcap, hesz, hfit, rfl⟩
    · exact h.fail _
    · exact (h.withRing (.init hcap hesz hfit) fun hbusy => absurd hp hbusy).succeed 0 0
  | rbReset =>
    rcases execRbReset_eq_next hexec with ⟨e, rfl⟩ | ⟨-, rfl⟩
    · exact h.fail _
    · exact (h.withRing h.ring_inv.emptied fun _ => ⟨rfl, rfl⟩).succeed 0 0
  | rbWrite =>
    rcases execRbWrite_eq_next hexec with ⟨-, rfl⟩ | ⟨-, -, rfl⟩ | ⟨-, -, m, hm, rfl⟩
    · exact h.fail _
    · exact h.fail _
    · exact (h.pushed (copyBytes_wf hm h.mem_wf) (Nat.dvd_mul_left ..)).succeed _ 0
  | rbInsert =>
    rcases execRbInsert_eq_next hexec with ⟨-, rfl⟩ | ⟨-, -, rfl⟩ | ⟨-, -, m, hm, rfl⟩
    · exact h.fail _
    · exact h.fail _
    · exact (h.ringEvict.pushed (copyBytes_wf hm h.mem_wf) (dvd_of_eq (by rw [(ringEvict_slot s).1]))).succeed _ 0
  | rbRead =>
    rcases execRbRead_eq_next hexec with ⟨-, rfl⟩ | ⟨-, -, rfl⟩ | ⟨-, -, m, hm, rfl⟩
    · exact h.fail _
    · exact h.fail _
    · exact (h.popped (copyBytes_wf hm h.mem_wf) (Nat.dvd_mul_left ..)).succeed _ 0
  | rbAdvanceRead =>
    rcases execRbAdvanceRead_eq_next hexec with ⟨e, rfl⟩ | ⟨-, -, rfl⟩
    · exact h.fail _
    · exact (h.popped h.mem_wf (Nat.dvd_mul_left ..)).succeed 0 0
  | rbGetReadAddress => obtain ⟨e, r0, r1, rfl⟩ := execRbGetReadAddress_eq_next hexec; exact h.ended e r0 r1
  | rbGetReadLen => obtain ⟨e, r0, r1, rfl⟩ := execRbGetReadLen_eq_next hexec; exact h.ended e r0 r1
  | rbCheckEmpty => obtain ⟨e, r0, r1, rfl⟩ := execRbCheckEmpty_eq_next hexec; exact h.ended e r0 r1
  | capStart =>
    obtain ⟨n, ⟨en, rfl⟩ | rfl⟩ := execCapStart_eq_next hexec
    · exact (State.Inv.capArm (h.withCapFlags _ _ _ en false _ 0)).succeed 1 0
    · exact h.withCapFlags _ _ _ _ false _ 1
  | capPause =>
    obtain ⟨n, ⟨en, rfl⟩ | rfl⟩ := execCapPause_eq_next hexec
    · exact h.withCapFlags _ _ _ en _ _ _
    · exact h.countDrop.fail .dmaTimeout
  | capProcess =>
    rcases execCapProcess_eq_next hexec with ⟨e, rfl⟩ | ⟨hv, hesz, hnext⟩
    · exact h.fail _
    · exact h.nextBlock hw hv hesz hnext
  | ntfTake => cases hexec; exact h.withCapFlags _ _ _ _ _ false _
  | ntfWait =>
    rcases execNtfWait_eq_next hexec with ⟨-, rfl⟩ | ⟨-, rfl⟩
    · exact State.Inv.withWaiting (h.withCapFlags _ _ _ _ _ false _) hp false
    · exact h.withWaiting hp true
  | decBegin imm =>
    rcases execDecBegin_eq_next hexec with ⟨e, rfl⟩ | ⟨p, rfl⟩
    · exact h.fail _
    · exact (h.withDec (.begin h.cfg_wf s.dec p)).succeed 0 0
  | decExecute =>
    rcases execDecExecute_eq_next hexec with ⟨e, rfl⟩ | ⟨-, ev, rfl⟩
    · exact h.fail _
    · exact h.runPass ev
  | decEvent dur lvl =>
    rcases execDecEvent_eq_next hexec with ⟨e, rfl⟩ | ⟨-, ev, rfl⟩
    · exact h.fail _
    · exact h.runPass ev
  | decGetData =>
    rcases execDecGetData_eq_next hexec with rfl | ⟨m, hm, rfl⟩
    · exact h.fail _
    · exact (h.withMem ((storeBytes_eq_some hm).2.1 h.mem_wf)).succeed 0 0
  | decPartialReset =>
    rcases execDecPartialReset_eq_next hexec with ⟨e, rfl⟩ | rfl
    · exact h.fail _
    · exact (h.withDec h.dec_inv.partialReset).succeed 0 0

/-! ### The host's bus accesses (45_host_bus.md R324 to R326) -/

/-- Everything a register write other than to CMD can do: an argument register, CTRL, ARR, or nothing. -/
theorem State.writeReg_cases (s : State) (off : Nat) (v : Word) :
    (∃ a0 a1 a2, s.writeReg off v = { s with regs := { s.regs with arg0 := a0, arg1 := a1, arg2 := a2 } })
    ∨ (∃ timEn irqEn, s.writeReg off v = { s with cap := { s.cap with timEn := timEn, irqEn := irqEn } })
    ∨ s.writeReg off v = { s with cap := { s.cap with arr := BitVec.ofNat 32 (v.toNat % 2 ^ s.cfg.cntWidth) } } := by
  unfold State.writeReg
  split
  · exact .inl ⟨_, _, _, rfl⟩
  · exact .inl ⟨_, _, _, rfl⟩
  · exact .inl ⟨_, _, _, rfl⟩
  · exact .inr (.inl ⟨_, _, rfl⟩)
  · exact .inr (.inr rfl)
  · exact .inl ⟨_, _, _, rfl⟩

/-- A write to ARR is cut to `CNT_WIDTH` bits. -/
theorem State.Inv.writeReg (h : s.Inv) (off : Nat) (v : Word) : (s.writeReg off v).Inv := by
  rcases s.writeReg_cases off v with ⟨a0, a1, a2, heq⟩ | ⟨timEn, irqEn, heq⟩ | heq <;> rw [heq]
  · exact h
  · exact h.withCapFlags timEn irqEn _ _ _ _ _
  · obtain ⟨hcnt, -, hccr, hprev, hlen, hidx, hslots⟩ := h.cap_inv
    refine h.withCap ⟨hcnt, ?_, hccr, hprev, hlen, hidx, hslots⟩ fun _ => id
    calc (BitVec.ofNat 32 (v.toNat % 2 ^ s.cfg.cntWidth)).toNat
      _ = v.toNat % 2 ^ s.cfg.cntWidth % 2 ^ 32 := BitVec.toNat_ofNat ..
      _ ≤ v.toNat % 2 ^ s.cfg.cntWidth := Nat.mod_le ..
      _ < 2 ^ s.cfg.cntWidth := Nat.mod_lt _ (Nat.two_pow_pos _)

/-- A read of MEM only answers. -/
theorem State.Inv.hostMemRead (h : s.Inv) (a : Word) (n : Nat) : (hostMemRead s a n).Inv := by
  unfold Machine.hostMemRead
  split <;> exact h

theorem State.Inv.hostMemWrite (h : s.Inv) (a : Word) (n : Nat) (v : Word) : (hostMemWrite s a n v).Inv := by
  unfold Machine.hostMemWrite
  split
  · exact h
  · rename_i m hm; exact h.withMem ((storeBytes_eq_some hm).2.1 h.mem_wf)

/-! ### HOST, and the step -/

theorem State.Inv.hostTurn (h : s.Inv) (hturn : hostTurn s = .next t) : t.Inv := by
  rcases hostTurn_cases hturn with
    ⟨b, i, nb, nw, u, hp, helem, rfl⟩ | ⟨hp, -, ⟨-, rfl⟩ | ⟨-, rfl⟩⟩ | ⟨-, -, -, rfl⟩ | ⟨hp, hw, a, rest, -, haccess⟩
  · exact (h.elem hp helem).settle
  · exact State.Inv.withWaiting (h.withCapFlags _ _ _ _ _ false _) hp false
  · exact h
  · exact h
  · have hrest : State.Inv { s with program := rest } := h
    rcases haccess with ⟨-, rfl⟩ | ⟨-, ⟨off, n, -, rfl⟩ | ⟨off, n, v, -, -, rfl⟩ | ⟨x, n, -, rfl⟩ | ⟨x, n, v, -, rfl⟩ |
      ⟨n, w, e, -, -, rfl⟩ | ⟨n, w, i, u, -, -, hexec, rfl⟩⟩
    · exact hrest
    · exact hrest
    · exact hrest.writeReg off.toNat v
    · exact hrest.hostMemRead x n
    · exact hrest.hostMemWrite x n v
    · exact (hrest.fail _).settle
    · exact (hrest.exec hp hw hexec).settle

/-- Settles O16, by the agent whose turn it is. -/
theorem everyStepKeepsTheInvariant : Obligations.EveryStepKeepsTheInvariant := by
  unfold Obligations.EveryStepKeepsTheInvariant
  intro s t h hstep
  have hsched (rest : List Turn) : State.Inv { s with schedule := rest } := h
  rcases step_cases hstep with ⟨rest, -, rfl⟩ | ⟨rest, -, rfl⟩ | ⟨-, hturn⟩
  · exact (hsched rest).timerTurn
  · exact (hsched rest).edge
  · exact (hsched s.schedule.tail).hostTurn hturn

end Sys2Proof.Machine
end

section
/-! What commands and steps leave unchanged: each command every part of the state it does not own; the notification
and the tag record, every step but the ones that the spec names. -/

namespace Sys2Proof.Machine

variable {s t : State}

/-! ### Commands (45_host_bus.md R328) -/

/-- Settles O20, by command. -/
theorem commandsTouchOnlyTheirOwnState : Obligations.CommandsTouchOnlyTheirOwnState := by
  unfold Obligations.CommandsTouchOnlyTheirOwnState
  intro s t i h
  cases i with
  | nop => cases h; simp
  | rbInit => rcases execRbInit_eq_next h with ⟨e, rfl⟩ | ⟨-, -, -, rfl⟩ <;> simp
  | rbReset => rcases execRbReset_eq_next h with ⟨e, rfl⟩ | ⟨-, rfl⟩ <;> simp
  | rbWrite => rcases execRbWrite_eq_next h with ⟨-, rfl⟩ | ⟨-, -, rfl⟩ | ⟨-, -, m, -, rfl⟩ <;> simp
  | rbInsert => rcases execRbInsert_eq_next h with ⟨-, rfl⟩ | ⟨-, -, rfl⟩ | ⟨-, -, m, -, rfl⟩ <;> simp
  | rbRead => rcases execRbRead_eq_next h with ⟨-, rfl⟩ | ⟨-, -, rfl⟩ | ⟨-, -, m, -, rfl⟩ <;> simp
  | rbAdvanceRead => rcases execRbAdvanceRead_eq_next h with ⟨e, rfl⟩ | ⟨-, -, rfl⟩ <;> simp
  | rbGetReadAddress => obtain ⟨e, r0, r1, rfl⟩ := execRbGetReadAddress_eq_next h; simp
  | rbGetReadLen => obtain ⟨e, r0, r1, rfl⟩ := execRbGetReadLen_eq_next h; simp
  | rbCheckEmpty => obtain ⟨e, r0, r1, rfl⟩ := execRbCheckEmpty_eq_next h; simp
  | capStart => obtain ⟨n, ⟨en, rfl⟩ | rfl⟩ := execCapStart_eq_next h <;> simp
  | capPause => obtain ⟨n, ⟨en, rfl⟩ | rfl⟩ := execCapPause_eq_next h <;> simp
  | capProcess =>
    rcases execCapProcess_eq_next h with ⟨e, rfl⟩ | ⟨-, -, hnext⟩
    · simp
    · rcases nextBlock_eq_next hnext with ⟨-, rfl⟩ | ⟨-, b, -, rfl⟩ <;> simp
  | ntfTake => cases h; simp
  | ntfWait => rcases execNtfWait_eq_next h with ⟨-, rfl⟩ | ⟨-, rfl⟩ <;> simp
  | decBegin imm => rcases execDecBegin_eq_next h with ⟨e, rfl⟩ | ⟨p, rfl⟩ <;> simp [mnemonicOf]
  | decExecute => rcases execDecExecute_eq_next h with ⟨e, rfl⟩ | ⟨-, ev, rfl⟩ <;> simp [mnemonicOf]
  | decEvent dur lvl => rcases execDecEvent_eq_next h with ⟨e, rfl⟩ | ⟨-, ev, rfl⟩ <;> simp [mnemonicOf]
  | decGetData => rcases execDecGetData_eq_next h with rfl | ⟨m, -, rfl⟩ <;> simp
  | decPartialReset => rcases execDecPartialReset_eq_next h with ⟨e, rfl⟩ | rfl <;> simp [mnemonicOf]

/-- The capture state, for a command that does not own it. -/
theorem exec_cap_of_notMem {i : Instr} (h : exec i s = .next t)
    (hi : i ∉ [.rbInsert, .capStart, .capPause, .ntfTake, .ntfWait]) : t.cap = s.cap := by
  obtain ⟨-, -, -, -, -, -, -, -, -, hcap, -⟩ := commandsTouchOnlyTheirOwnState s t i h
  exact hcap hi

/-- The tag record, for a command that does not own it. -/
theorem exec_tag_of_notMem {i : Instr} (h : exec i s = .next t)
    (hi : mnemonicOf i ∉ ["DEC_EXECUTE", "DEC_EVENT"]) : t.tag = s.tag := by
  obtain ⟨-, -, -, -, -, -, -, -, -, -, -, -, -, -, -, htag⟩ := commandsTouchOnlyTheirOwnState s t i h
  exact htag hi

/-- No command raises the notification (41_capture.md R198). -/
theorem exec_ntf_eq_false {i : Instr} (h : exec i s = .next t) (hs : s.cap.ntf = false) : t.cap.ntf = false := by
  by_cases hi : i ∈ [Instr.rbInsert, .capStart, .capPause, .ntfTake, .ntfWait]
  · simp only [List.mem_cons, List.not_mem_nil, or_false] at hi
    rcases hi with rfl | rfl | rfl | rfl | rfl
    · rcases execRbInsert_eq_next h with ⟨-, rfl⟩ | ⟨-, -, rfl⟩ | ⟨-, -, m, -, rfl⟩
      · exact hs
      · exact hs
      · simp [apply_ite Capture.ntf, hs]
    · obtain ⟨n, ⟨en, rfl⟩ | rfl⟩ := execCapStart_eq_next h
      · rfl
      · exact hs
    · obtain ⟨n, ⟨en, rfl⟩ | rfl⟩ := execCapPause_eq_next h <;> exact hs
    · cases h; rfl
    · rcases execNtfWait_eq_next h with ⟨-, rfl⟩ | ⟨-, rfl⟩
      · rfl
      · exact hs
  · rw [exec_cap_of_notMem h hi]; exact hs

/-- A pass that changes the tag record ends with the results of a frame found (42_decoder_port.md R229, R230). -/
theorem runPass_of_tag_ne {ev : List EdgeEvent} (h : (runPass s ev).tag ≠ s.tag) :
    (runPass s ev).regs.err = .ok ∧ (runPass s ev).regs.res0 = 1#32 := by
  cases hfound : (decExecutePass s.cfg s.dec ev).2 with
  | none => simp [hfound] at h
  | some tag => simp [hfound]

/-- A command that changes the tag record is one of the decoder's two passes, and has found a frame. -/
theorem exec_of_tag_ne {i : Instr} (h : exec i s = .next t) (htag : t.tag ≠ s.tag) :
    mnemonicOf i ∈ ["DEC_EXECUTE", "DEC_EVENT"] ∧ t.regs.err = .ok ∧ t.regs.res0 = 1#32 := by
  have hi : mnemonicOf i ∈ ["DEC_EXECUTE", "DEC_EVENT"] := by_contra fun hi => htag (exec_tag_of_notMem h hi)
  refine ⟨hi, ?_⟩
  cases i with
  | decExecute =>
    rcases execDecExecute_eq_next h with ⟨e, rfl⟩ | ⟨-, ev, rfl⟩
    · exact absurd rfl htag
    · exact runPass_of_tag_ne htag
  | decEvent dur lvl =>
    rcases execDecEvent_eq_next h with ⟨e, rfl⟩ | ⟨-, ev, rfl⟩
    · exact absurd rfl htag
    · exact runPass_of_tag_ne htag
  | _ => simp [mnemonicOf] at hi

/-! ### The other work of the host's turn -/

theorem nextBlock_keeps_cap_tag {nb nw : Nat} (h : nextBlock s nb nw = .next t) : t.cap = s.cap ∧ t.tag = s.tag := by
  rcases nextBlock_eq_next h with ⟨-, rfl⟩ | ⟨-, b, -, rfl⟩ <;> exact ⟨rfl, rfl⟩

theorem elemNext_keeps_cap_tag {b : Bool} {i nb nw : Nat} (h : elemNext s b i nb nw = .next t) :
    t.cap = s.cap ∧ t.tag = s.tag := by
  rcases elemNext_eq_next h with ⟨-, rfl⟩ | ⟨-, hnext⟩
  · exact ⟨rfl, rfl⟩
  · exact nextBlock_keeps_cap_tag hnext

/-- ELEM touches neither the notification nor the tag record (41_capture.md R184). -/
theorem elem_keeps_ntf_tag {b : Bool} {i nb nw : Nat} (h : elem s b i nb nw = .next t) :
    t.cap.ntf = s.cap.ntf ∧ t.tag = s.tag := by
  obtain ⟨cur, -, ⟨-, u, hins, hnext⟩ | ⟨-, hnext⟩⟩ := elem_eq_next h
  · obtain ⟨m, rfl⟩ := ringInsert_eq_some hins
    obtain ⟨hcap, htag⟩ := elemNext_keeps_cap_tag hnext
    rw [hcap, htag]
    simp [apply_ite Capture.ntf]
  · obtain ⟨hcap, htag⟩ := elemNext_keeps_cap_tag hnext
    rw [hcap, htag]
    exact ⟨rfl, rfl⟩

@[simp] theorem State.writeReg_ntf (s : State) (off : Nat) (v : Word) : (s.writeReg off v).cap.ntf = s.cap.ntf := by
  rcases s.writeReg_cases off v with ⟨a0, a1, a2, heq⟩ | ⟨timEn, irqEn, heq⟩ | heq <;> rw [heq]

@[simp] theorem State.writeReg_tag (s : State) (off : Nat) (v : Word) : (s.writeReg off v).tag = s.tag := by
  rcases s.writeReg_cases off v with ⟨a0, a1, a2, heq⟩ | ⟨timEn, irqEn, heq⟩ | heq <;> rw [heq]

@[simp] theorem hostMemRead_cap (s : State) (a : Word) (n : Nat) : (hostMemRead s a n).cap = s.cap := by
  unfold hostMemRead; split <;> rfl

@[simp] theorem hostMemRead_tag (s : State) (a : Word) (n : Nat) : (hostMemRead s a n).tag = s.tag := by
  unfold hostMemRead; split <;> rfl

@[simp] theorem hostMemWrite_cap (s : State) (a : Word) (n : Nat) (v : Word) : (hostMemWrite s a n v).cap = s.cap := by
  unfold hostMemWrite; split <;> rfl

@[simp] theorem hostMemWrite_tag (s : State) (a : Word) (n : Nat) (v : Word) : (hostMemWrite s a n v).tag = s.tag := by
  unfold hostMemWrite; split <;> rfl

/-- A turn of the host that runs no command touches the tag record not at all and never raises the notification; else
it runs, with no command in flight, the command that its next access writes to CMD. -/
theorem hostTurn_runs_or_keeps (h : hostTurn s = .next t) :
    (t.tag = s.tag ∧ (s.cap.ntf = false → t.cap.ntf = false))
    ∨ (s.proc = .idle ∧ s.waiting = false ∧ ∃ w rest i u, s.program = commandAccess w :: rest ∧ decode w = .ok i
        ∧ exec i { s with program := rest } = .next u ∧ t = u.settle) := by
  rcases hostTurn_cases h with
    ⟨b, i, nb, nw, u, -, helem, rfl⟩ | ⟨-, -, ⟨-, rfl⟩ | ⟨-, rfl⟩⟩ | ⟨-, -, -, rfl⟩ | ⟨hp, hw, a, rest, hprog, haccess⟩
  · obtain ⟨hntf, htag⟩ := elem_keeps_ntf_tag helem
    exact .inl ⟨htag, hntf.trans⟩
  · exact .inl ⟨rfl, fun _ => rfl⟩
  · exact .inl ⟨rfl, id⟩
  · exact .inl ⟨rfl, id⟩
  · rcases haccess with ⟨-, rfl⟩ | ⟨hwf, ⟨off, n, -, rfl⟩ | ⟨off, n, v, -, -, rfl⟩ | ⟨x, n, -, rfl⟩ |
      ⟨x, n, v, -, rfl⟩ | ⟨n, w, e, -, -, rfl⟩ | ⟨n, w, i, u, rfl, hdec, hexec, rfl⟩⟩
    · exact .inl ⟨rfl, id⟩
    · exact .inl ⟨rfl, id⟩
    · exact .inl (by simp)
    · exact .inl (by simp)
    · exact .inl (by simp)
    · exact .inl ⟨rfl, id⟩
    · have hn : n = 4 := by simpa [HostAccess.wellFormed] using hwf
      subst hn
      exact .inr ⟨hp, hw, w, rest, i, u, hprog, hdec, hexec, rfl⟩

theorem hostTurn_ntf_eq_false (h : hostTurn s = .next t) (hs : s.cap.ntf = false) : t.cap.ntf = false := by
  rcases hostTurn_runs_or_keeps h with ⟨-, hntf⟩ | ⟨-, -, w, rest, i, u, -, -, hexec, rfl⟩
  · exact hntf hs
  · have hu : u.cap.ntf = false := exec_ntf_eq_false hexec hs
    exact hu

/-! ### Steps -/

@[simp] theorem timerTurn_ntf (s : State) : (timerTurn s).cap.ntf = s.cap.ntf := by
  unfold timerTurn; split <;> rfl

/-- An `Edge` that raises the notification ends a block (41_capture.md R180, R181). -/
theorem edge_ntf_rises (hs : s.cap.ntf = false) (he : (edge s).cap.ntf = true) :
    s.cap.dmaEn = true ∧ (s.cap.dmaIdx + 1 = s.cfg.blockLen ∨ s.cap.dmaIdx + 1 = 2 * s.cfg.blockLen) := by
  rcases edge_cases s with ⟨-, heq⟩ | ⟨-, -, -, heq⟩ | ⟨hen, hend, -⟩ | ⟨hen, -, hend, -⟩
  · simp [heq, hs] at he
  · simp [heq, hs] at he
  · exact ⟨hen, .inl hend⟩
  · exact ⟨hen, .inr hend⟩

/-- Settles O21, by the agent whose turn it is. -/
theorem onlyABlockEventRaisesTheNotification : Obligations.OnlyABlockEventRaisesTheNotification := by
  unfold Obligations.OnlyABlockEventRaisesTheNotification
  intro s t h hs ht
  rcases step_cases h with ⟨rest, -, rfl⟩ | ⟨rest, hsched, rfl⟩ | ⟨-, hturn⟩
  · simp [hs] at ht
  · exact ⟨⟨rest, hsched⟩, edge_ntf_rises (s := { s with schedule := rest }) hs ht⟩
  · simp [hostTurn_ntf_eq_false hturn hs] at ht

/-- Settles O22: neither TIMER nor SIGNAL touches the tag record, and of the host's work only a command does. -/
theorem tagChangesOnlyWhenAFrameIsFound : Obligations.TagChangesOnlyWhenAFrameIsFound := by
  unfold Obligations.TagChangesOnlyWhenAFrameIsFound
  intro s t h htag
  rcases step_cases h with ⟨rest, -, rfl⟩ | ⟨rest, -, rfl⟩ | ⟨hsched, hturn⟩
  · simp at htag
  · simp at htag
  · rcases hostTurn_runs_or_keeps hturn with ⟨hkept, -⟩ | ⟨hp, hw, w, rest, i, u, hprog, hdec, hexec, rfl⟩
    · exact absurd hkept htag
    · obtain ⟨hi, herr, hres⟩ := exec_of_tag_ne hexec htag
      obtain ⟨-, hrest, -⟩ := commandsTouchOnlyTheirOwnState _ u i hexec
      refine ⟨hsched, hp, hw, herr, hres, w, rest, i, hprog, hrest, hdec, hi, ?_⟩
      rw [hexec, mapNext_next]

end Sys2Proof.Machine
end

section
/-! The register block (10_state.md R53 to R55): the bits of a register that is assembled from fields, what each
register shows, and what a write does. -/

namespace Sys2Proof.Machine

/-! ### A register assembled from fields: which field a bit belongs to -/

theorem getLsbD_fieldAt_of_lt {i k w v : Nat} (h : i < k) : (fieldAt k w v).getLsbD i = false := by
  simp [fieldAt, h]

theorem getLsbD_fieldAt_of_ge {i k w v : Nat} (h : k + w ≤ i) : (fieldAt k w v).getLsbD i = false := by
  simp only [fieldAt, BitVec.getLsbD_shiftLeft, BitVec.getLsbD_setWidth, BitVec.getLsbD_ofNat]
  simp [show ¬ i - k < w by omega]

theorem getLsbD_fieldAt_add {i k w v : Nat} (hi : i < w) (hw : k + w ≤ 32) :
    (fieldAt k w v).getLsbD (k + i) = v.testBit i := by
  simp only [fieldAt, BitVec.getLsbD_shiftLeft, BitVec.getLsbD_setWidth, BitVec.getLsbD_ofNat]
  simp [hi, show k + i < 32 by omega, show i < 32 by omega]

/-- One bit is a field of width 1. -/
theorem bitAt_eq_fieldAt (k : Nat) (b : Bool) : bitAt k b = fieldAt k 1 b.toNat := by
  cases b <;> rfl

theorem getLsbD_bitAt_self {k : Nat} {b : Bool} (hk : k < 32) : (bitAt k b).getLsbD k = b := by
  rw [bitAt_eq_fieldAt]
  exact (getLsbD_fieldAt_add (i := 0) Nat.one_pos hk).trans (by cases b <;> rfl)

theorem getLsbD_bitAt_of_ne {i k : Nat} {b : Bool} (h : i ≠ k) : (bitAt k b).getLsbD i = false := by
  rw [bitAt_eq_fieldAt]
  rcases Nat.lt_or_gt_of_ne h with hlt | hgt
  · exact getLsbD_fieldAt_of_lt hlt
  · exact getLsbD_fieldAt_of_ge hgt

@[simp] theorem bitAt_false (k : Nat) : bitAt k false = 0#32 := by
  simp [bitAt]

/-! ### Reading a field of a register -/

/-- A field whose bits are those of a value that fits it. -/
theorem extractLsb'_toNat_eq {r : Word} {k w v : Nat} (hv : v < 2 ^ w)
    (h : ∀ i < w, r.getLsbD (k + i) = v.testBit i) : (r.extractLsb' k w).toNat = v := by
  have hfield : r.extractLsb' k w = BitVec.ofNat w v :=
    BitVec.eq_of_getLsbD_eq fun i hi => by
      rw [BitVec.getLsbD_extractLsb', BitVec.getLsbD_ofNat, h i hi]
  rw [hfield, BitVec.toNat_ofNat, Nat.mod_eq_of_lt hv]

/-- A field that shows a bit vector of its width. -/
theorem extractLsb'_eq {r : Word} {k w : Nat} {x : BitVec w} (h : ∀ i < w, r.getLsbD (k + i) = x.getLsbD i) :
    r.extractLsb' k w = x :=
  BitVec.eq_of_getLsbD_eq fun i hi => by simp [hi, h i hi]

/-- Bits that no field takes. -/
theorem extractLsb'_eq_zero {r : Word} {k w : Nat} (h : ∀ i < w, r.getLsbD (k + i) = false) :
    r.extractLsb' k w = 0#w :=
  extractLsb'_eq fun i hi => by rw [h i hi, BitVec.getLsbD_zero]

/-! ### STATUS (R55) -/

theorem ErrCode.code_lt (e : ErrCode) : e.code < 2 ^ 4 := by
  cases e <;> decide

/-- At reset STATUS shows the pin and nothing else (70_reset_and_hazards.md R381). -/
theorem State.status_resetWith (cfg : Config) :
    (State.resetWith cfg).status = (if cfg.sig0 then 1#32 else 0#32) <<< 9 := by
  have hpin : (State.resetWith cfg).status = bitAt 9 cfg.sig0 := by
    simp [State.status, State.rbEmpty, State.irq, State.resetWith, fieldAt, ErrCode.code]
  rw [hpin]
  cases cfg.sig0 <;> rfl

/-- Settles O12: each bit of STATUS belongs to one field. -/
theorem statusShowsItsFields : Obligations.StatusShowsItsFields := by
  unfold Obligations.StatusShowsItsFields
  intro s
  have herr : (s.status.extractLsb' 0 4).toNat = s.regs.err.code := by
    refine extractLsb'_toNat_eq s.regs.err.code_lt fun i hi => ?_
    simp (disch := omega) only [State.status, BitVec.getLsbD_or, getLsbD_bitAt_of_ne, getLsbD_fieldAt_add,
      Bool.or_false]
  have hzero : s.status.extractLsb' 13 19 = 0#19 := by
    refine extractLsb'_eq_zero fun i hi => ?_
    simp (disch := omega) only [State.status, BitVec.getLsbD_or, getLsbD_bitAt_of_ne, getLsbD_fieldAt_of_ge,
      Bool.or_false]
  refine ⟨?_, ?_, ?_, ?_, ?_, ?_, ?_, ?_, ?_, ?_, hzero, rfl, fun _ => rfl, State.status_resetWith⟩
  · rw [herr]
    cases s.regs.err <;> rfl
  all_goals
    simp (disch := omega) only [State.status, BitVec.getLsbD_or, getLsbD_bitAt_self, getLsbD_bitAt_of_ne,
      getLsbD_fieldAt_of_ge, Bool.or_false, Bool.false_or]
    <;> rfl

/-! ### The registers packed from fields (R53, R54) -/

theorem State.ctrlReg_fields (s : State) :
    s.ctrlReg.getLsbD 0 = s.cap.timEn ∧ s.ctrlReg.getLsbD 1 = s.cap.irqEn ∧ s.ctrlReg.extractLsb' 2 30 = 0#30 := by
  refine ⟨?_, ?_, extractLsb'_eq_zero fun i hi => ?_⟩ <;>
    simp (disch := omega) only [State.ctrlReg, BitVec.getLsbD_or, getLsbD_bitAt_self, getLsbD_bitAt_of_ne,
      Bool.or_false, Bool.false_or]

theorem State.dmaStat_fields {s : State} (h : s.cap.dmaIdx < 2 ^ 16) :
    (s.dmaStat.extractLsb' 0 16).toNat = s.cap.dmaIdx ∧ s.dmaStat.getLsbD 16 = s.cap.dmaEn
      ∧ s.dmaStat.getLsbD 17 = s.cap.havePrev ∧ s.dmaStat.extractLsb' 18 14 = 0#14 := by
  refine ⟨extractLsb'_toNat_eq h fun i hi => ?_, ?_, ?_, extractLsb'_eq_zero fun i hi => ?_⟩ <;>
    simp (disch := omega) only [State.dmaStat, BitVec.getLsbD_or, getLsbD_bitAt_self, getLsbD_bitAt_of_ne,
      getLsbD_fieldAt_add, getLsbD_fieldAt_of_ge, Bool.or_false, Bool.false_or]

theorem getLsbD_bqSlotBits_of_lt (l : List Bool) {i k : Nat} (h : i < 24 + k) :
    (bqSlotBits l k).getLsbD i = false := by
  induction l generalizing k with
  | nil => exact BitVec.getLsbD_zero
  | cons b rest ih =>
    rw [bqSlotBits, BitVec.getLsbD_or, getLsbD_bitAt_of_ne (by omega), ih (by omega), Bool.or_false]

/-- Bit `24 + j` is slot `j`, where the list of slots begins with slot `k`. -/
theorem getLsbD_bqSlotBits (l : List Bool) {j k : Nat} (hk : k ≤ j) (hj : j < 8) :
    (bqSlotBits l k).getLsbD (24 + j) = l.getD (j - k) false := by
  induction l generalizing k with
  | nil => exact BitVec.getLsbD_zero
  | cons b rest ih =>
    rw [bqSlotBits, BitVec.getLsbD_or]
    rcases Nat.eq_or_lt_of_le hk with rfl | hlt
    · rw [getLsbD_bitAt_self (by omega), getLsbD_bqSlotBits_of_lt rest (by omega)]
      simp
    · rw [getLsbD_bitAt_of_ne (by omega), ih hlt, Bool.false_or, show j - k = (j - (k + 1)) + 1 by omega,
        List.getD_cons_succ]

theorem State.bqStat_fields {s : State} (hcount : s.bq.count < 2 ^ 8) (hhead : s.bq.head < 2 ^ 8)
    (htail : s.bq.tail < 2 ^ 8) :
    (s.bqStat.extractLsb' 0 8).toNat = s.bq.count ∧ (s.bqStat.extractLsb' 8 8).toNat = s.bq.head
      ∧ (s.bqStat.extractLsb' 16 8).toNat = s.bq.tail
      ∧ ∀ k < 8, s.bqStat.getLsbD (24 + k) = s.bq.slots.getD k false := by
  refine ⟨extractLsb'_toNat_eq hcount fun i hi => ?_, extractLsb'_toNat_eq hhead fun i hi => ?_,
    extractLsb'_toNat_eq htail fun i hi => ?_, fun k hk => ?_⟩ <;>
    simp (disch := omega) only [State.bqStat, BitVec.getLsbD_or, getLsbD_fieldAt_add, getLsbD_fieldAt_of_ge,
      getLsbD_fieldAt_of_lt, getLsbD_bqSlotBits_of_lt, getLsbD_bqSlotBits, Bool.or_false, Bool.false_or, Nat.sub_zero]

theorem Proto.code_lt (p : Proto) : p.code < 2 ^ 2 := by
  cases p <;> decide

theorem State.decStat_fields {s : State} (hbits : s.dec.bitCnt < 2 ^ 8) (hedges : s.dec.eb.length < 2 ^ 8) :
    (s.decStat.extractLsb' 0 8).toNat = s.dec.bitCnt ∧ (s.decStat.extractLsb' 8 8).toNat = s.dec.eb.length
      ∧ (s.decStat.extractLsb' 16 2).toNat = s.dec.proto.code ∧ s.decStat.getLsbD 18 = s.dec.active
      ∧ s.decStat.extractLsb' 19 13 = 0#13 := by
  refine ⟨extractLsb'_toNat_eq hbits fun i hi => ?_, extractLsb'_toNat_eq hedges fun i hi => ?_,
    extractLsb'_toNat_eq s.dec.proto.code_lt fun i hi => ?_, ?_, extractLsb'_eq_zero fun i hi => ?_⟩ <;>
    simp (disch := omega) only [State.decStat, Decoder.edgeCnt, BitVec.getLsbD_or, getLsbD_fieldAt_add,
      getLsbD_fieldAt_of_ge, getLsbD_fieldAt_of_lt, getLsbD_bitAt_self, getLsbD_bitAt_of_ne, Bool.or_false,
      Bool.false_or]

theorem State.decWin_fields {s : State} (hlen : s.dec.winLen < 2 ^ 3) :
    (s.decWin.extractLsb' 0 3).toNat = s.dec.winLen ∧ s.decWin.extractLsb' 3 5 = 0#5
      ∧ s.decWin.extractLsb' 8 6 = s.dec.winSym ∧ s.decWin.extractLsb' 14 18 = 0#18 := by
  have hsym : s.decWin = fieldAt 0 3 s.dec.winLen ||| fieldAt 8 6 s.dec.winSym.toNat := by
    rw [State.decWin, fieldAt.eq_1 8, BitVec.ofNat_toNat, BitVec.setWidth_eq]
  rw [hsym]
  refine ⟨extractLsb'_toNat_eq hlen fun i hi => ?_, extractLsb'_eq_zero fun i hi => ?_,
    extractLsb'_eq fun i hi => ?_, extractLsb'_eq_zero fun i hi => ?_⟩ <;>
    simp (disch := omega) only [BitVec.getLsbD_or, getLsbD_fieldAt_add, getLsbD_fieldAt_of_ge,
      getLsbD_fieldAt_of_lt, Bool.or_false, Bool.false_or, BitVec.testBit_toNat]

theorem State.tagUidLo_fields (s : State) :
    s.tagUidLo.extractLsb' 0 8 = s.tag.uid0 ∧ s.tagUidLo.extractLsb' 8 8 = s.tag.uid1
      ∧ s.tagUidLo.extractLsb' 16 8 = s.tag.uid2 ∧ s.tagUidLo.extractLsb' 24 8 = s.tag.uid3 := by
  refine ⟨extractLsb'_eq fun i hi => ?_, extractLsb'_eq fun i hi => ?_, extractLsb'_eq fun i hi => ?_,
    extractLsb'_eq fun i hi => ?_⟩ <;>
    simp (disch := omega) only [State.tagUidLo, BitVec.getLsbD_append, if_pos, if_neg]
  all_goals congr 1; omega

theorem State.tagUidHi_fields (s : State) :
    s.tagUidHi.extractLsb' 0 8 = s.tag.uid4 ∧ s.tagUidHi.extractLsb' 8 8 = 0#8
      ∧ s.tagUidHi.extractLsb' 16 16 = s.tag.bitrate := by
  refine ⟨extractLsb'_eq fun i hi => ?_, extractLsb'_eq fun i hi => ?_, extractLsb'_eq fun i hi => ?_⟩ <;>
    simp (disch := omega) only [State.tagUidHi, BitVec.getLsbD_append, if_pos, if_neg]
  all_goals congr 1; omega

theorem State.halfUsReg_fields (s : State) :
    (s.readReg 0x68).extractLsb' 0 16 = s.dec.halfUs ∧ (s.readReg 0x68).extractLsb' 16 16 = 0#16 := by
  refine ⟨extractLsb'_eq fun i hi => ?_, extractLsb'_eq_zero fun i hi => ?_⟩ <;>
    simp only [State.readReg, BitVec.getLsbD_setWidth]
  · rw [Nat.zero_add, decide_eq_true (by omega), Bool.true_and]
  · rw [BitVec.getLsbD_of_ge _ _ (by omega), Bool.and_false]

/-- What the invariant gives the fields: each count and index fits its place in a register (10_state.md R53). -/
theorem State.Inv.fields_fit {s : State} (h : s.Inv) :
    s.cap.dmaIdx < 2 ^ 16 ∧ s.bq.count < 2 ^ 8 ∧ s.bq.head < 2 ^ 8 ∧ s.bq.tail < 2 ^ 8 ∧ s.dec.bitCnt < 2 ^ 8
      ∧ s.dec.eb.length < 2 ^ 8 ∧ s.dec.winLen < 2 ^ 3 := by
  obtain ⟨-, hhead, htail, hcount, -⟩ := h.bq_inv
  obtain ⟨-, -, -, -, -, hidx, -⟩ := h.cap_inv
  obtain ⟨hbits, hedges, hwin, -, -⟩ := h.dec_inv
  have hframe : s.dec.proto.frameBits ≤ 96 := by cases s.dec.proto <;> decide
  have hcfg := h.cfg_wf
  simp only [Config.wellFormed, Bool.and_eq_true, decide_eq_true_eq] at hcfg
  refine ⟨?_, ?_, ?_, ?_, ?_, ?_, ?_⟩ <;> omega

/-- Settles O13, register by register. -/
theorem packedRegistersShowTheirFields : Obligations.PackedRegistersShowTheirFields := by
  unfold Obligations.PackedRegistersShowTheirFields
  intro s h
  obtain ⟨hidx, hcount, hhead, htail, hbits, hedges, hwin⟩ := h.fields_fit
  obtain ⟨hhalf, hhalf0⟩ := s.halfUsReg_fields
  obtain ⟨hbit, hedge, hproto, hactive, hdec0⟩ := State.decStat_fields hbits hedges
  have hcode : s.dec.proto.code =
      (match s.dec.proto with
       | .em4100 => 0
       | .em4100Over32 => 1
       | .em4100Over16 => 2
       | .h10301 => 3) := by
    cases s.dec.proto <;> rfl
  refine ⟨s.ctrlReg_fields, State.dmaStat_fields hidx, State.bqStat_fields hcount hhead htail,
    ⟨hbit, hedge, hproto.trans hcode, hactive, hdec0⟩, State.decWin_fields hwin, s.tagUidLo_fields,
    s.tagUidHi_fields, ⟨rfl, rfl, rfl, rfl, rfl⟩, ⟨rfl, rfl, rfl, rfl, rfl⟩, ⟨rfl, rfl, rfl, rfl, rfl⟩,
    ⟨hhalf, hhalf0, rfl, rfl, rfl⟩, fun off hoff => ?_⟩
  simp only [List.mem_cons, List.not_mem_nil, or_false] at hoff
  rcases hoff with rfl | rfl | rfl | rfl | rfl <;> rfl

/-! ### Register writes (45_host_bus.md R324) -/

/-- A write to a register of the block other than CMD. -/
theorem busAccess_regWrite {s : State} {off : Word} (v : Word) (halign : off.toNat % 4 = 0) (hblock : off.toNat ≤ 0x7C)
    (hcmd : off ≠ 0#32) :
    busAccess (.regWrite off 4 v) s = .next { s.writeReg off.toNat v with reply := .written } := by
  simp [busAccess, HostAccess.wellFormed, performAccess, halign, hblock, hcmd]

/-- A write to an offset that is no writable register is ignored. -/
theorem State.writeReg_of_notMem (s : State) {off : Nat} (v : Word) (h : off ∉ [0x08, 0x0C, 0x10, 0x1C, 0x24]) :
    s.writeReg off v = s := by
  unfold State.writeReg
  split <;> simp at h ⊢

/-- A write leaves what every register reads but the one it names, and STATUS. -/
theorem State.readReg_writeReg_of_ne (s : State) {off o : Nat} (v : Word) (hne : o ≠ off) (hstatus : o ≠ 0x04) :
    (s.writeReg off v).readReg o = s.readReg o := by
  by_cases hoff : off ∈ [0x08, 0x0C, 0x10, 0x1C, 0x24]
  · simp only [List.mem_cons, List.not_mem_nil, or_false] at hoff
    rcases hoff with rfl | rfl | rfl | rfl | rfl <;> unfold State.readReg <;> split
    any_goals contradiction
    all_goals rfl
  · rw [s.writeReg_of_notMem v hoff]

/-- Of STATUS a write to CTRL changes the IRQ bit alone (10_state.md R55). -/
theorem State.getLsbD_status_withCtrl (s : State) (timEn irqEn : Bool) (k : Nat) :
    (State.status { s with cap := { s.cap with timEn := timEn, irqEn := irqEn } }).getLsbD k =
      if k = 12 then s.cap.ntf && irqEn else s.status.getLsbD k := by
  split
  · subst k
    simp (disch := omega) only [State.status, BitVec.getLsbD_or, getLsbD_bitAt_self, getLsbD_bitAt_of_ne,
      getLsbD_fieldAt_of_ge, Bool.or_false, Bool.false_or]
    rfl
  · simp (disch := assumption) only [State.status, BitVec.getLsbD_or, getLsbD_bitAt_of_ne]
    rfl

/-- CTRL keeps the two bits it has (R53). -/
theorem bitAt_or_bitAt_eq_and (v : Word) : bitAt 0 (v.getLsbD 0) ||| bitAt 1 (v.getLsbD 1) = v &&& 3#32 := by
  refine BitVec.eq_of_getLsbD_eq fun i _ => ?_
  rw [BitVec.getLsbD_or, BitVec.getLsbD_and]
  match i with
  | 0 => rw [getLsbD_bitAt_self (by omega), getLsbD_bitAt_of_ne (by omega), Bool.or_false]; exact (Bool.and_true _).symm
  | 1 => rw [getLsbD_bitAt_self (by omega), getLsbD_bitAt_of_ne (by omega), Bool.false_or]; exact (Bool.and_true _).symm
  | j + 2 =>
    rw [getLsbD_bitAt_of_ne (by omega), getLsbD_bitAt_of_ne (by omega), show 3#32 = fieldAt 0 2 3 from rfl,
      getLsbD_fieldAt_of_ge (by omega), Bool.and_false, Bool.or_false]

/-- Settles O8, by the register written: each of the five, or any other. -/
theorem registerWritesReadBackOrAreIgnored : Obligations.RegisterWritesReadBackOrAreIgnored := by
  unfold Obligations.RegisterWritesReadBackOrAreIgnored
  intro s off v
  refine ⟨fun hoff => ?_, fun halign hblock hoff => ?_⟩
  · have hothers (w : Nat) : ∀ o, o ≠ w → o ≠ 0x04 → (s.writeReg w v).readReg o = s.readReg o :=
      fun _ => s.readReg_writeReg_of_ne v
    simp only [List.mem_cons, List.not_mem_nil, or_false] at hoff
    rcases hoff with rfl | rfl | rfl | rfl | rfl
    · exact ⟨_, rfl, busAccess_regWrite v (by decide) (by decide) (by decide), rfl, hothers 0x08, fun _ _ => rfl⟩
    · exact ⟨_, rfl, busAccess_regWrite v (by decide) (by decide) (by decide), rfl, hothers 0x0C, fun _ _ => rfl⟩
    · exact ⟨_, rfl, busAccess_regWrite v (by decide) (by decide) (by decide), rfl, hothers 0x10, fun _ _ => rfl⟩
    · exact ⟨_, rfl, busAccess_regWrite v (by decide) (by decide) (by decide), bitAt_or_bitAt_eq_and v, hothers 0x1C,
        fun k _ => (s.getLsbD_status_withCtrl _ _ k).trans (if_congr (by simp) rfl rfl)⟩
    · exact ⟨_, rfl, busAccess_regWrite v (by decide) (by decide) (by decide), rfl, hothers 0x24, fun _ _ => rfl⟩
  · simp only [List.mem_cons, List.not_mem_nil, or_false, not_or] at hoff
    obtain ⟨hcmd, harg0, harg1, harg2, hctrl, harr⟩ := hoff
    have hignored : off.toNat ∉ [0x08, 0x0C, 0x10, 0x1C, 0x24] := by
      simp only [List.mem_cons, List.not_mem_nil, or_false, not_or]
      refine ⟨?_, ?_, ?_, ?_, ?_⟩ <;> bv_omega
    rw [busAccess_regWrite v halign hblock hcmd, s.writeReg_of_notMem v hignored]

end Sys2Proof.Machine
end

section
/-! The host's bus accesses as steps (20_memory.md R74, R76): which accesses are well formed, and what a refused one
leaves. -/

namespace Sys2Proof.Machine

/-! ### Well-formed accesses (45_host_bus.md R323 to R326) -/

theorem HostAccess.wellFormed_regRead_iff (memSize : Nat) (off : Word) (n : Nat) :
    (HostAccess.regRead off n).wellFormed memSize = true ↔ n = 4 ∧ off.toNat % 4 = 0 ∧ off.toNat ≤ 0x7C := by
  simp [HostAccess.wellFormed, and_assoc]

theorem HostAccess.wellFormed_regWrite (memSize : Nat) (off : Word) (n : Nat) (v : Word) :
    (HostAccess.regWrite off n v).wellFormed memSize = (HostAccess.regRead off n).wellFormed memSize := rfl

theorem HostAccess.wellFormed_memRead_iff (memSize : Nat) (x : Word) (n : Nat) :
    (HostAccess.memRead x n).wellFormed memSize = true ↔
      n ∈ [1, 2, 4] ∧ x.toNat % n = 0 ∧ x.toNat + n ≤ memSize := by
  simp [HostAccess.wellFormed, and_assoc, or_assoc]

theorem HostAccess.wellFormed_memWrite (memSize : Nat) (x : Word) (n : Nat) (v : Word) :
    (HostAccess.memWrite x n v).wellFormed memSize = (HostAccess.memRead x n).wellFormed memSize := rfl

/-- The register accesses that are refused (R74, R323, R324). -/
theorem HostAccess.wellFormed_regRead_eq_false_iff (memSize : Nat) (off : Word) (n : Nat) :
    (HostAccess.regRead off n).wellFormed memSize = false ↔ n ≠ 4 ∨ off.toNat % 4 ≠ 0 ∨ 0x7C < off.toNat := by
  rw [← Bool.not_eq_true, wellFormed_regRead_iff, not_and_or, not_and_or, not_le]

/-- The MEM accesses that are refused (R74, R76, R325, R326). -/
theorem HostAccess.wellFormed_memRead_eq_false_iff (memSize : Nat) (x : Word) (n : Nat) :
    (HostAccess.memRead x n).wellFormed memSize = false ↔
      n ∉ [1, 2, 4] ∨ x.toNat % n ≠ 0 ∨ memSize < x.toNat + n := by
  rw [← Bool.not_eq_true, wellFormed_memRead_iff, not_and_or, not_and_or, not_le]

/-! ### The step that makes an access -/

theorem busAccess_of_refused {s : State} {a : HostAccess} (h : a.wellFormed s.cfg.memSize = false) :
    busAccess a s = .next { s with reply := .refused } := by
  rw [busAccess, h]
  rfl

theorem hostTurn_access {s : State} {a : HostAccess} {rest : List HostAccess} (hproc : s.proc = .idle)
    (hwait : s.waiting = false) (hprog : s.program = a :: rest) :
    hostTurn s = busAccess a { s with program := rest } := by
  simp [hostTurn, hproc, hwait, hprog]

/-- A host's turn, on the schedule or after its end. -/
theorem step_host {s : State} (h : s.schedule = [] ∨ ∃ turns, s.schedule = .host :: turns) :
    step s = hostTurn { s with schedule := s.schedule.tail } := by
  rw [step_eq]
  rcases h with hnil | ⟨turns, hcons⟩
  · rw [hnil]; rfl
  · rw [hcons]; rfl

/-- Settles O9, by the kind of access: none of the four is well formed, and a refused access only answers. -/
theorem refusedAccessChangesNothing : Obligations.RefusedAccessChangesNothing := by
  unfold Obligations.RefusedAccessChangesNothing
  intro s a rest hturn hproc hwait hprog hbad
  have hwf : a.wellFormed s.cfg.memSize = false := by
    cases a with
    | regRead off n => exact (HostAccess.wellFormed_regRead_eq_false_iff _ off n).2 hbad
    | regWrite off n v =>
      rw [HostAccess.wellFormed_regWrite]
      exact (HostAccess.wellFormed_regRead_eq_false_iff _ off n).2 hbad
    | memRead x n => exact (HostAccess.wellFormed_memRead_eq_false_iff _ x n).2 hbad
    | memWrite x n v =>
      rw [HostAccess.wellFormed_memWrite]
      exact (HostAccess.wellFormed_memRead_eq_false_iff _ x n).2 hbad
  calc step s
    _ = hostTurn { s with schedule := s.schedule.tail } := step_host hturn
    _ = busAccess a { s with program := rest, schedule := s.schedule.tail } := hostTurn_access hproc hwait hprog
    _ = .next { s with program := rest, schedule := s.schedule.tail, reply := .refused } := busAccess_of_refused hwf

end Sys2Proof.Machine
end

section
/-! The command word (30_encoding.md R100 to R108): the encoder and the decoder are inverse to each other, and a word
decodes to the command of the one row of the opcode table that it selects. -/

namespace Sys2Proof

/-! ### The words of the three formats (R101 to R104) -/

/-- A byte is its upper seven bits and its lowest. -/
theorem byte_eq_append_ofBool (b : Byte) : b = b.extractLsb' 1 7 ++ BitVec.ofBool (b.getLsbD 0) := by
  refine BitVec.eq_of_getLsbD_eq fun i hi => ?_
  rw [BitVec.getLsbD_append, BitVec.getLsbD_extractLsb']
  cases i with
  | zero => simp
  | succ j => simp [show j < 7 by omega, Nat.add_comm 1 j]

/-- Format E splits AUX into the must-be-zero bits 15:9 and the level bit (R104). -/
theorem auxOf_eq_append_ofBool_iff {w : Word} {lvl : Bool} :
    auxOf w = 0#7 ++ BitVec.ofBool lvl ↔ w.extractLsb' 9 7 = 0#7 ∧ w.getLsbD 8 = lvl := by
  have hhigh : (auxOf w).extractLsb' 1 7 = w.extractLsb' 9 7 :=
    BitVec.eq_of_getLsbD_eq fun i hi => by simp [auxOf, hi, show 1 + i < 8 by omega, ← Nat.add_assoc]
  have hlow : (auxOf w).getLsbD 0 = w.getLsbD 8 := by simp [auxOf]
  constructor
  · intro h
    rw [← hhigh, ← hlow, h]
    cases lvl <;> exact ⟨rfl, rfl⟩
  · rintro ⟨hzero, hlvl⟩
    rw [byte_eq_append_ofBool (auxOf w), hhigh, hlow, hzero, hlvl]

theorem encode_decEvent (dur : Half) (lvl : Bool) :
    encode (.decEvent dur lvl) = dur ++ (0#7 ++ BitVec.ofBool lvl) ++ 0x32#8 :=
  congrArg (fun x : BitVec 24 => x ++ 0x32#8) (BitVec.append_assoc ..)

theorem decodeN_eq_ok_iff {w : Word} {i j : Instr} :
    decodeN w i = .ok j ↔ (immOf w = 0#16 ∧ auxOf w = 0#8) ∧ i = j := by
  unfold decodeN; split <;> simp [*]

theorem decodeI_eq_ok_iff {w : Word} {j : Instr} :
    decodeI w = .ok j ↔ auxOf w = 0#8 ∧ .decBegin (immOf w) = j := by
  unfold decodeI; split <;> simp [*]

theorem decodeE_eq_ok_iff {w : Word} {j : Instr} :
    decodeE w = .ok j ↔ ∃ lvl, auxOf w = 0#7 ++ BitVec.ofBool lvl ∧ .decEvent (immOf w) lvl = j := by
  simp only [auxOf_eq_append_ofBool_iff]
  unfold decodeE; split <;> simp [*]

/-- The word of a format N command is its opcode under zero fields, so the fields of `w` determine it. -/
theorem encode_eq_of_decodeN {w : Word} {i j : Instr} (h : decodeN w i = .ok j)
    (hopc : (opcOf w).toNat = (opcOf (encode i)).toNat) (hformat : encode i = 0#16 ++ 0#8 ++ opcOf (encode i)) :
    encode j = w := by
  obtain ⟨⟨himm, haux⟩, rfl⟩ := decodeN_eq_ok_iff.mp h
  rw [hformat, ← BitVec.eq_of_toNat_eq hopc, ← himm, ← haux, word_eq_fields]

theorem encode_eq_of_decodeI {w : Word} {j : Instr} (h : decodeI w = .ok j) (hopc : (opcOf w).toNat = 0x30) :
    encode j = w := by
  have hopc' : opcOf w = 0x30#8 := BitVec.eq_of_toNat_eq hopc
  obtain ⟨haux, rfl⟩ := decodeI_eq_ok_iff.mp h
  rw [encode, ← hopc', ← haux, word_eq_fields]

theorem encode_eq_of_decodeE {w : Word} {j : Instr} (h : decodeE w = .ok j) (hopc : (opcOf w).toNat = 0x32) :
    encode j = w := by
  have hopc' : opcOf w = 0x32#8 := BitVec.eq_of_toNat_eq hopc
  obtain ⟨lvl, haux, rfl⟩ := decodeE_eq_ok_iff.mp h
  rw [encode_decEvent, ← hopc', ← haux, word_eq_fields]

/-! ### The decoder and the encoder -/

/-- A word that is read as a command is that command's word. -/
theorem encode_eq_of_decode {w : Word} {i : Instr} (h : decode w = .ok i) : encode i = w := by
  unfold decode at h
  split at h
  case h_16 hopc => exact encode_eq_of_decodeI h hopc
  case h_18 hopc => exact encode_eq_of_decodeE h hopc
  case h_21 => cases h
  all_goals next hopc => exact encode_eq_of_decodeN h hopc rfl

theorem decode_of_opcOf_decBegin {w : Word} (h : opcOf w = 0x30#8) : decode w = decodeI w := by
  rw [decode, h]; rfl

theorem decode_of_opcOf_decEvent {w : Word} (h : opcOf w = 0x32#8) : decode w = decodeE w := by
  rw [decode, h]; rfl

/-- Every command is read back from its word. -/
theorem decode_encode (i : Instr) : decode (encode i) = .ok i := by
  cases i with
  | decBegin imm =>
    rw [encode, decode_of_opcOf_decBegin (opcOf_fields ..)]
    exact decodeI_eq_ok_iff.mpr ⟨auxOf_fields .., by rw [immOf_fields]⟩
  | decEvent dur lvl =>
    rw [encode_decEvent, decode_of_opcOf_decEvent (opcOf_fields ..)]
    exact decodeE_eq_ok_iff.mpr ⟨lvl, auxOf_fields .., by rw [immOf_fields]⟩
  | _ => rfl

/-- Settles O1: the decoder and the encoder are inverse to each other, format by format. -/
theorem decodeAndEncodeAgree : Obligations.DecodeAndEncodeAgree := by
  unfold Obligations.DecodeAndEncodeAgree
  exact ⟨fun i _ => decode_encode i, fun _ _ => encode_eq_of_decode⟩

/-- Settles O3: a legal worked word is its command's word by evaluation. -/
theorem workedWordsDecode : Obligations.WorkedWordsDecode := by
  unfold Obligations.WorkedWordsDecode
  exact ⟨decode_encode (.decBegin 2#16), decode_encode (.decEvent 64#16 true), decode_encode (.decEvent 1000#16 false),
    decode_encode .rbRead, decode_encode .capProcess, decode_encode .nop, by decide, by decide, by decide, by decide⟩

/-! ### The opcode table (R102, R106) -/

/-- Every command's word selects the row of its mnemonic. -/
theorem Laws.TableRow.of_instr : ∀ i : Instr, Laws.TableRow.Statement i
  | .nop => nop
  | .rbInit => rbInit
  | .rbReset => rbReset
  | .rbWrite => rbWrite
  | .rbInsert => rbInsert
  | .rbRead => rbRead
  | .rbAdvanceRead => rbAdvanceRead
  | .rbGetReadAddress => rbGetReadAddress
  | .rbGetReadLen => rbGetReadLen
  | .rbCheckEmpty => rbCheckEmpty
  | .capStart => capStart
  | .capPause => capPause
  | .capProcess => capProcess
  | .ntfTake => ntfTake
  | .ntfWait => ntfWait
  | .decBegin imm => decBegin imm
  | .decExecute => decExecute
  | .decEvent dur lvl => decEvent dur lvl
  | .decGetData => decGetData
  | .decPartialReset => decPartialReset

/-- A word that decodes selects the row of its command's mnemonic. -/
theorem exists_row_of_decode {w : Word} {i : Instr} (h : decode w = .ok i) :
    ∃ r ∈ opcodeTable, r.mnemonic = mnemonicOf i ∧ r.selects w = true :=
  encode_eq_of_decode h ▸ Laws.TableRow.of_instr i

/-- A field that a row's mask covers is the pattern's in every word that selects the row. -/
theorem OpcodeRow.field_of_selects {r : OpcodeRow} {w : Word} {k n : Nat} (h : r.selects w = true)
    (hmask : r.mask.extractLsb' k n = BitVec.allOnes n) : w.extractLsb' k n = r.pattern.extractLsb' k n := by
  have hsel : w &&& r.mask = r.pattern := by simpa [OpcodeRow.selects] using h
  rw [← hsel, BitVec.extractLsb'_and, hmask, BitVec.and_allOnes]

/-- Reading a table word of all 32 bits is decoding it. -/
theorem decodeTableWord_toNat_eq_some {w : Word} {i : Instr} (h : decodeTableWord 32 w.toNat = some i) :
    decode w = .ok i := by
  have hw : BitVec.ofNat 32 (w.toNat % 2 ^ 32) = w := by
    rw [Nat.mod_eq_of_lt w.isLt, BitVec.ofNat_toNat, BitVec.setWidth_eq]
  unfold decodeTableWord at h
  rw [hw] at h
  split at h <;> simp_all

/-- The rows: those of the words with no operand, and the two whose mask leaves an operand free. -/
theorem opcodeTable_cases : ∀ r ∈ opcodeTable,
    (r.mask = BitVec.allOnes 32 ∧ (decodeTableWord 32 r.pattern.toNat).map mnemonicOf = some r.mnemonic)
    ∨ r = ⟨"DEC_BEGIN", 0x00000030#32, 0x0000FFFF#32⟩ ∨ r = ⟨"DEC_EVENT", 0x00000032#32, 0x0000FEFF#32⟩ := by
  decide

/-- A word that selects a row decodes to a command of the row's mnemonic. -/
theorem exists_decode_of_selects {r : OpcodeRow} {w : Word} (hr : r ∈ opcodeTable) (h : r.selects w = true) :
    ∃ i, decode w = .ok i ∧ mnemonicOf i = r.mnemonic := by
  rcases opcodeTable_cases r hr with ⟨hmask, hrow⟩ | rfl | rfl
  · have hw : w = r.pattern := by
      simpa using r.field_of_selects (k := 0) (n := 32) h (by simp [hmask])
    obtain ⟨i, hi, hname⟩ := Option.map_eq_some_iff.mp hrow
    exact ⟨i, hw ▸ decodeTableWord_toNat_eq_some hi, hname⟩
  · refine ⟨.decBegin (immOf w), ?_, rfl⟩
    rw [decode_of_opcOf_decBegin (OpcodeRow.field_of_selects h rfl), decodeI_eq_ok_iff]
    exact ⟨OpcodeRow.field_of_selects h rfl, rfl⟩
  · refine ⟨.decEvent (immOf w) (w.getLsbD 8), ?_, rfl⟩
    have hzero : w.extractLsb' 9 7 = 0#7 := OpcodeRow.field_of_selects h rfl
    rw [decode_of_opcOf_decEvent (OpcodeRow.field_of_selects h rfl), decodeE_eq_ok_iff]
    exact ⟨w.getLsbD 8, auxOf_eq_append_ofBool_iff.mpr ⟨hzero, rfl⟩, rfl⟩

/-- No two rows have one mnemonic. -/
theorem nodup_mnemonics : (opcodeTable.map OpcodeRow.mnemonic).Nodup := by
  decide

/-- The words that select no row are the illegal ones. -/
theorem selects_eq_false_iff (w : Word) :
    (∀ r ∈ opcodeTable, r.selects w = false) ↔ ∃ e, decode w = .illegal e := by
  constructor
  · intro hnone
    cases hw : decode w with
    | illegal e => exact ⟨e, rfl⟩
    | ok i =>
      obtain ⟨r, hr, -, hsel⟩ := exists_row_of_decode hw
      rw [hnone r hr] at hsel
      cases hsel
  · rintro ⟨e, hw⟩ r hr
    by_contra hsel
    obtain ⟨i, hi, -⟩ := exists_decode_of_selects hr (Bool.not_eq_false _ ▸ hsel)
    rw [hw] at hi
    cases hi

/-- Settles O2: two rows that a word selects have the mnemonic of the one command it decodes to. -/
theorem decodeSelectsTheTableRow : Obligations.DecodeSelectsTheTableRow := by
  unfold Obligations.DecodeSelectsTheTableRow
  refine ⟨fun _ _ => exists_row_of_decode, fun w e hw => (selects_eq_false_iff w).mpr ⟨e, hw⟩, ?_⟩
  intro w r hr r' hr' hsel hsel'
  obtain ⟨i, hi, hname⟩ := exists_decode_of_selects hr hsel
  obtain ⟨i', hi', hname'⟩ := exists_decode_of_selects hr' hsel'
  have hsame : i = i' := Decoded.ok.inj (hi.symm.trans hi')
  refine List.inj_on_of_nodup_map nodup_mnemonics hr hr' ?_
  rw [← hname, ← hname', hsame]

end Sys2Proof
end

section
/-! The host's writes as steps (45_host_bus.md R324, R328): a write to CMD runs its word, a write to an argument
register sets it, and the accesses a mnemonic stands for do the one after the other. -/

namespace Sys2Proof.Machine

/-! ### A write to CMD -/

theorem runCommand_of_illegal {w : Word} {e : DecodeError} (s : State) (h : decode w = .illegal e) :
    runCommand w s = .next (s.fail .opcode) := by
  rw [runCommand, h]

theorem runCommand_encode (i : Instr) (s : State) : runCommand (encode i) s = exec i s := by
  rw [runCommand, decode_encode]

theorem busAccess_commandAccess (w : Word) (s : State) :
    busAccess (commandAccess w) s = mapNext State.settle (runCommand w s) := rfl

theorem step_commandAccess {s : State} {w : Word} {rest : List HostAccess} (hfree : s.hostFree)
    (hprog : s.program = commandAccess w :: rest) :
    step s = mapNext State.settle (runCommand w { s with program := rest }) := by
  obtain ⟨hsched, hproc, hwait⟩ := hfree
  rw [step_nil hsched, hostTurn_access hproc hwait hprog, busAccess_commandAccess]

/-- With no command in flight the write to CMD has completed (R322). -/
theorem State.settle_of_idle {s : State} (hproc : s.proc = .idle) (hwait : s.waiting = false) :
    s.settle = { s with reply := .written } := by
  simp [State.settle, State.inFlight, hproc, hwait]

/-- Settles O5: a word that selects no row is illegal, and an illegal word only fails. -/
theorem illegalWordFailsWithErrOpcode : Obligations.IllegalWordFailsWithErrOpcode := by
  unfold Obligations.IllegalWordFailsWithErrOpcode
  intro s w rest hfree hprog hnone
  obtain ⟨e, hillegal⟩ := (selects_eq_false_iff w).mp hnone
  obtain ⟨hsched, hproc, hwait⟩ := hfree
  calc step s
    _ = mapNext State.settle (runCommand w { s with program := rest }) :=
      step_commandAccess ⟨hsched, hproc, hwait⟩ hprog
    _ = .next (State.fail { s with program := rest } .opcode).settle := by
      rw [runCommand_of_illegal _ hillegal, mapNext_next]
    _ = .next { s.ended .opcode 0 0 with program := rest, reply := .written } :=
      congrArg _ (State.settle_of_idle hproc hwait)

/-! ### The accesses of a mnemonic -/

/-- The offsets of the argument registers meet the rules for a register access, and none is CMD (R324). -/
theorem argOffset_inBlock : ∀ off ∈ [0x08#32, 0x0C#32, 0x10#32],
    off.toNat % 4 = 0 ∧ off.toNat ≤ 0x7C ∧ off ≠ 0#32 := by
  simp

/-- The write of an argument register, as the first step of a run. -/
theorem run_argWrite {s : State} {off v : Word} {rest : List HostAccess} (n : Nat)
    (hoff : off ∈ [0x08#32, 0x0C#32, 0x10#32]) (hfree : s.hostFree) (hprog : s.program = .regWrite off 4 v :: rest) :
    Host.Core.run Sys2Proof.core (n + 1) s =
      Host.Core.run Sys2Proof.core n
        { State.writeReg { s with program := rest } off.toNat v with reply := .written } := by
  obtain ⟨hsched, hproc, hwait⟩ := hfree
  obtain ⟨halign, hblock, hcmd⟩ := argOffset_inBlock off hoff
  refine run_succ n ?_
  rw [step_nil hsched, hostTurn_access hproc hwait hprog, busAccess_regWrite v halign hblock hcmd]

/-- The write of a command's word to CMD, as the last step of a run. -/
theorem run_command {s : State} {i : Instr} {rest : List HostAccess} (hfree : s.hostFree)
    (hprog : s.program = commandAccess (encode i) :: rest) :
    Host.Core.run Sys2Proof.core 1 s = mapNext State.settle (exec i { s with program := rest }) := by
  rw [run_one, step_commandAccess hfree hprog, runCommand_encode]

/-- No command uses more than the three argument registers there are (30_encoding.md R105). -/
theorem argCount_le (i : Instr) : argCount i ≤ 3 := by
  cases i <;> simp [argCount]

/-- Settles O6, by how many argument registers the command uses: that many writes, then the command. -/
theorem mnemonicExpansionRunsTheCommand : Obligations.MnemonicExpansionRunsTheCommand := by
  unfold Obligations.MnemonicExpansionRunsTheCommand
  intro s i a0 a1 a2 rest hfree hprog
  have hargs := argCount_le i
  unfold expand at hprog
  generalize argCount i = n at hprog hargs ⊢
  match n with
  | 0 => exact run_command hfree hprog
  | 1 =>
    rw [run_argWrite 1 (by decide) hfree hprog]
    exact run_command (by exact hfree) rfl
  | 2 =>
    rw [run_argWrite 2 (by decide) hfree hprog, run_argWrite (off := 0x0C#32) 1 (by decide) (by exact hfree) rfl]
    exact run_command (by exact hfree) rfl
  | 3 =>
    rw [run_argWrite 3 (by decide) hfree hprog, run_argWrite (off := 0x0C#32) 2 (by decide) (by exact hfree) rfl,
      run_argWrite (off := 0x10#32) 1 (by decide) (by exact hfree) rfl]
    exact run_command (by exact hfree) rfl

end Sys2Proof.Machine
end

section
/-! What the ring commands answer (40_ringbuffer.md R144 to R152): without a ring, byte by byte where they copy, and
what the queries read off the ring. -/

namespace Sys2Proof.Machine

variable {s : State}

/-! ### The descriptor -/

/-- Settles O24: the statement's branches are the command's. -/
theorem rbInitSetsTheDescriptor : Obligations.RbInitSetsTheDescriptor := by
  unfold Obligations.RbInitSetsTheDescriptor
  refine ⟨decode_encode .rbInit, fun s => ?_⟩
  rw [apply_ite Host.Outcome.next, apply_ite Host.Outcome.next]
  rfl

/-- Every ring command but RB_INIT fails without a ring, before it looks at its arguments. -/
theorem exec_ringCommand_of_no_ring (hv : s.ring.valid = false) {i : Instr}
    (hi : i ∈ [Instr.rbReset, .rbWrite, .rbInsert, .rbRead, .rbAdvanceRead, .rbGetReadAddress, .rbGetReadLen,
      .rbCheckEmpty]) : exec i s = .next (s.ended .state 0 0) := by
  simp only [List.mem_cons, List.not_mem_nil, or_false] at hi
  rcases hi with rfl | rfl | rfl | rfl | rfl | rfl | rfl | rfl <;> exact if_pos hv

/-- Settles O25, by whether there is a ring. -/
theorem rbResetEmptiesTheRing : Obligations.RbResetEmptiesTheRing := by
  unfold Obligations.RbResetEmptiesTheRing
  refine ⟨decode_encode .rbReset, fun s => ?_⟩
  cases hv : s.ring.valid with
  | false => exact exec_ringCommand_of_no_ring hv (by simp)
  | true => exact if_neg (ne_false_of_eq_true hv)

/-- A number below `2 ^ 32` fits a register. -/
theorem toNat_ofNat_word {n : Nat} (h : n < 2 ^ 32) : (BitVec.ofNat 32 n).toNat = n :=
  (BitVec.toNat_ofNat ..).trans (Nat.mod_eq_of_lt h)

/-! ### The copies, byte by byte (R142, R143, 20_memory.md R80) -/

/-- `copyBytes_trace` for a whole loop, from its first step on. -/
theorem copyBytes_trace_zero {size n : Nat} {src dst : Nat → Nat} (m : Memory) (hs : ∀ j < n, src j < size)
    (hd : ∀ j < n, dst j < size) :
    ∃ trace : Nat → Memory, trace 0 = m
      ∧ (∀ j < n, ∀ x, memByte (trace (j + 1)) x =
          if x = dst j then memByte (trace j) (src j) else memByte (trace j) x)
      ∧ copyBytes size src dst n 0 m = some (trace n) := by
  obtain ⟨trace, hzero, hstep, -, hcopy⟩ := copyBytes_trace (size := size) (src := src) (dst := dst) (j := 0) (m := m)
    (by simpa using hs) (by simpa using hd)
  exact ⟨trace, hzero, by simpa using hstep, hcopy⟩

/-- The bytes of a range inside MEM are inside MEM. -/
theorem add_lt_of_range {size a n : Nat} (h : a + n ≤ size) : ∀ j < n, a + j < size := fun _ _ => by omega

theorem exec_rbWrite_of_copyBytes {m : Memory} (hv : s.ring.valid = true)
    (h : s.argN0 + rbWriteCount s * s.ring.esz.toNat ≤ s.cfg.memSize)
    (hcopy : copyBytes s.cfg.memSize (fun j => s.argN0 + j) (s.ring.addr s.ring.head.toNat)
      (rbWriteCount s * s.ring.esz.toNat) 0 s.mem = some m) :
    exec .rbWrite s = .next (State.succeed
      { s with mem := m, ring := s.ring.pushed (rbWriteCount s * s.ring.esz.toNat) }
      (BitVec.ofNat 32 (rbWriteCount s)) 0) := by
  rw [exec, execRbWrite, if_neg (ne_false_of_eq_true hv)]
  simp only [hcopy]
  exact if_neg (Nat.not_lt.mpr h)

/-- Settles O26, by whether there is a ring and whether the source is inside MEM; then the copy loop tells every byte. -/
theorem rbWriteCopiesByteByByte : Obligations.RbWriteCopiesByteByByte := by
  unfold Obligations.RbWriteCopiesByteByByte
  refine ⟨decode_encode .rbWrite, ?_⟩
  rintro s k rfl
  refine ⟨fun hv => exec_ringCommand_of_no_ring hv (by simp),
    fun hv hout => (if_neg (ne_false_of_eq_true hv)).trans (if_pos hout), fun hv hinv hle => ?_⟩
  obtain ⟨trace, hzero, hstep, hcopy⟩ :=
    copyBytes_trace_zero s.mem (add_lt_of_range hle) fun j _ => hinv.addr_lt hv s.ring.head.toNat j
  exact ⟨trace, hzero, hstep, exec_rbWrite_of_copyBytes hv hle hcopy⟩

theorem exec_rbRead_of_copyBytes {m : Memory} (hv : s.ring.valid = true)
    (h : s.argN0 + rbReadCount s * s.ring.esz.toNat ≤ s.cfg.memSize)
    (hcopy : copyBytes s.cfg.memSize (s.ring.addr s.ring.tail.toNat) (fun j => s.argN0 + j)
      (rbReadCount s * s.ring.esz.toNat) 0 s.mem = some m) :
    exec .rbRead s = .next (State.succeed
      { s with mem := m, ring := s.ring.popped (rbReadCount s * s.ring.esz.toNat) }
      (BitVec.ofNat 32 (rbReadCount s)) 0) := by
  rw [exec, execRbRead, if_neg (ne_false_of_eq_true hv)]
  simp only [hcopy]
  exact if_neg (Nat.not_lt.mpr h)

/-- Settles O27, as O26, with the storage as the source. -/
theorem rbReadCopiesByteByByte : Obligations.RbReadCopiesByteByByte := by
  unfold Obligations.RbReadCopiesByteByByte
  refine ⟨decode_encode .rbRead, ?_⟩
  rintro s k rfl
  refine ⟨fun hv => exec_ringCommand_of_no_ring hv (by simp),
    fun hv hout => (if_neg (ne_false_of_eq_true hv)).trans (if_pos hout), fun hv hinv hle => ?_⟩
  obtain ⟨trace, hzero, hstep, hcopy⟩ :=
    copyBytes_trace_zero s.mem (fun j _ => hinv.addr_lt hv s.ring.tail.toNat j) (add_lt_of_range hle)
  exact ⟨trace, hzero, hstep, exec_rbRead_of_copyBytes hv hle hcopy⟩

/-! ### RB_INSERT (R147) -/

theorem exec_rbInsert_of_copyBytes {m : Memory} (hv : s.ring.valid = true)
    (h : s.argN0 + s.ring.esz.toNat ≤ s.cfg.memSize)
    (hcopy : copyBytes s.cfg.memSize (fun j => s.argN0 + j) (s.ring.addr s.ring.head.toNat) s.ring.esz.toNat 0 s.mem =
      some m) :
    exec .rbInsert s = .next (State.succeed
      { ringEvict s with mem := m, ring := (ringEvict s).ring.pushed s.ring.esz.toNat }
      (flagResult (decide (s.ring.free = 0))) 0) := by
  rw [exec, execRbInsert, if_neg (ne_false_of_eq_true hv)]
  simp only [hcopy]
  exact if_neg (Nat.not_lt.mpr h)

theorem flagResult_eq_ite (b : Bool) : flagResult b = if b then 1#32 else 0#32 := by
  cases b <;> rfl

/-- Settles O28: the failures and the copy as in O26; the eviction by whether the ring is full. -/
theorem rbInsertStoresAndEvictsTheOldest : Obligations.RbInsertStoresAndEvictsTheOldest := by
  unfold Obligations.RbInsertStoresAndEvictsTheOldest
  refine ⟨decode_encode .rbInsert, fun s => ?_⟩
  refine ⟨fun hv => exec_ringCommand_of_no_ring hv (by simp),
    fun hv hout => (if_neg (ne_false_of_eq_true hv)).trans (if_pos hout), fun hv hinv hle => ?_⟩
  obtain ⟨trace, hzero, hstep, hcopy⟩ :=
    copyBytes_trace_zero s.mem (add_lt_of_range hle) fun j _ => hinv.addr_lt hv s.ring.head.toNat j
  refine ⟨trace, hzero, hstep, ?_⟩
  rw [exec_rbInsert_of_copyBytes hv hle hcopy, ringEvict, flagResult_eq_ite]
  by_cases hfull : s.ring.free = 0
  · simp only [hfull, decide_true, if_true]; rfl
  · simp only [hfull, decide_false, if_false]; rfl

/-- A copy from addresses that the slots written do not touch puts each byte where the ring has it. -/
theorem copyBytes_to_ring {size a off n : Nat} {r : Ring} {m m' : Memory}
    (hcopy : copyBytes size (fun j => a + j) (r.addr off) n 0 m = some m') (hn : n ≤ r.endIndex)
    (hapart : ∀ j < n, ∀ k < n, a + k ≠ r.addr off j) : ∀ j < n, memByte m' (r.addr off j) = memByte m (a + j) := by
  have hall := copyBytes_apart hcopy
  simp only [Nat.zero_add] at hall
  exact hall (fun k hk j hj => hapart j hj k hk) fun j hj k hk => Ring.addr_inj (by omega) (by omega)

/-- Settles O29: the copy leaves what the ring holds apart from the slot written, and the slot written is the new
element. -/
theorem rbInsertIsDropOldestEnqueue : Obligations.RbInsertIsDropOldestEnqueue := by
  unfold Obligations.RbInsertIsDropOldestEnqueue
  intro s hwf hinv hv hle
  obtain ⟨trace, -, -, hcopy⟩ :=
    copyBytes_trace_zero s.mem (add_lt_of_range hle) fun j _ => hinv.addr_lt hv s.ring.head.toNat j
  have hframe (x : Nat) (hx : ∀ j < s.ring.esz.toNat, x ≠ s.ring.addr s.ring.head.toNat j) :
      memByte (trace s.ring.esz.toNat) x = memByte s.mem x :=
    copyBytes_frame hcopy (by simpa using hx)
  obtain ⟨-, hbytes⟩ := ringBytes_inserted hinv hv (Config.memSize_le hwf) hframe
  refine ⟨_, _, exec_rbInsert_of_copyBytes hv hle hcopy, rfl, hbytes, rfl, fun hapart => ?_⟩
  have hslot : s.ring.esz.toNat ≤ s.ring.endIndex :=
    Nat.le_of_dvd (hinv.endIndex_pos hv) Ring.esz_dvd_endIndex
  exact List.map_congr_left fun j hj => copyBytes_to_ring hcopy hslot hapart j (List.mem_range.mp hj)

/-! ### RB_ADVANCE_READ (R149) -/

/-- Settles O30: the statement's branches are the command's, and moving the tail over elements held drops them. -/
theorem rbAdvanceReadDiscardsTheOldest : Obligations.RbAdvanceReadDiscardsTheOldest := by
  unfold Obligations.RbAdvanceReadDiscardsTheOldest
  refine ⟨decode_encode .rbAdvanceRead, fun s hwf hinv => ⟨_, ?_, rfl, fun hv hle => ?_⟩⟩
  · rw [apply_ite Host.Outcome.next, apply_ite Host.Outcome.next]
    rfl
  · rw [if_neg (ne_false_of_eq_true hv), if_neg (Nat.not_lt.mpr hle)]
    exact ringBytes_popped hinv hv (Config.memSize_le hwf) hle rfl rfl

/-! ### The queries (R150 to R152) -/

section queries
variable {size : Nat} {r : Ring}

/-- The bytes of the contiguous run from the tail: to the head, or to the end of the storage. -/
theorem Ring.Inv.readLen_mul (h : r.Inv size) (hv : r.valid = true) :
    r.readLen * r.esz.toNat =
      if r.tail.toNat ≤ r.head.toNat then r.head.toNat - r.tail.toNat else r.endIndex - r.tail.toNat := by
  unfold Ring.readLen
  split
  · exact Nat.div_mul_cancel (Nat.dvd_sub (h.esz_dvd_head hv) (h.esz_dvd_tail hv))
  · exact Nat.div_mul_cancel (Nat.dvd_sub Ring.esz_dvd_endIndex (h.esz_dvd_tail hv))

/-- What is held beyond the contiguous run is what lies below the head, where the elements held wrap. -/
theorem Ring.Inv.occ_mul_eq_readLen_mul_add (h : r.Inv size) (hv : r.valid = true) :
    r.occ * r.esz.toNat =
      r.readLen * r.esz.toNat + if r.tail.toNat ≤ r.head.toNat then 0 else r.head.toNat := by
  obtain ⟨-, -, -, hhead, htail, -, -⟩ := h hv
  rw [h.occ_mul hv, h.readLen_mul hv, subMod_of_lt hhead htail]
  split <;> omega

theorem Ring.Inv.readLen_le_occ (h : r.Inv size) (hv : r.valid = true) : r.readLen ≤ r.occ := by
  obtain ⟨-, hesz, -⟩ := h hv
  refine Nat.le_of_mul_le_mul_right ?_ hesz
  rw [h.occ_mul_eq_readLen_mul_add hv]
  exact Nat.le_add_right ..

theorem Ring.Inv.readLen_eq_occ_iff (h : r.Inv size) (hv : r.valid = true) :
    r.readLen = r.occ ↔ r.tail.toNat ≤ r.head.toNat ∨ r.head = 0#32 := by
  obtain ⟨-, hesz, -⟩ := h hv
  rw [← Nat.mul_left_inj (by omega : r.esz.toNat ≠ 0), h.occ_mul_eq_readLen_mul_add hv, ← BitVec.toNat_inj]
  split <;> simp_all

/-- The run does not wrap: its bytes are at ascending addresses. -/
theorem Ring.Inv.addr_of_lt_readLen (h : r.Inv size) (hv : r.valid = true) {j : Nat}
    (hj : j < r.readLen * r.esz.toNat) : r.addr r.tail.toNat j = r.base.toNat + r.tail.toNat + j := by
  obtain ⟨-, -, -, hhead, htail, -, -⟩ := h hv
  have hlt : r.tail.toNat + j < r.endIndex := by
    rw [h.readLen_mul hv] at hj
    split at hj <;> omega
  rw [Ring.addr, Nat.mod_eq_of_lt hlt, Nat.add_assoc]

end queries

/-- Settles O31: a query only ends, and its result fits its register. -/
theorem rbQueriesReturnTheContiguousRun : Obligations.RbQueriesReturnTheContiguousRun := by
  unfold Obligations.RbQueriesReturnTheContiguousRun
  refine ⟨⟨decode_encode .rbGetReadAddress, decode_encode .rbGetReadLen, decode_encode .rbCheckEmpty⟩, ?_⟩
  refine fun s hwf hinv => ⟨fun hv => ?_, fun hv => ?_⟩
  · exact ⟨exec_ringCommand_of_no_ring hv (by simp), exec_ringCommand_of_no_ring hv (by simp),
      exec_ringCommand_of_no_ring hv (by simp)⟩
  · obtain ⟨-, -, hfit, -, htail, -, -⟩ := hinv hv
    have hsize := Config.memSize_le hwf
    have hocc := hinv.occ_lt_cap hv
    have hrun := hinv.readLen_le_occ hv
    have haddr : (BitVec.ofNat 32 (s.ring.base.toNat + s.ring.tail.toNat)).toNat =
        s.ring.base.toNat + s.ring.tail.toNat := toNat_ofNat_word (by omega)
    have hlen : (BitVec.ofNat 32 s.ring.readLen).toNat = s.ring.readLen := toNat_ofNat_word (by omega)
    have hring := ne_false_of_eq_true hv
    refine ⟨_, _, if_neg hring, if_neg hring, ?_, haddr, by omega, ?_⟩
    · rw [exec, execRbCheckEmpty, if_neg hring, flagResult_eq_ite]
      simp only [beq_iff_eq]
      rfl
    · rw [hlen, haddr]
      exact ⟨hinv.readLen_mul hv, hrun, hinv.readLen_eq_occ_iff hv, fun j => hinv.addr_of_lt_readLen hv⟩

end Sys2Proof.Machine
end

section
/-! The ring as a FIFO (40_ringbuffer.md R153): each operation of a session conserves the bytes it offers, delivers and
leaves in the ring, in order; so does the session. -/

namespace Sys2Proof.Machine

/-! ### The bytes that pass through the ring -/

/-- A count bounded by an argument register fits a result register. -/
theorem toNat_ofNat_min (w : Word) (n : Nat) : (BitVec.ofNat 32 (min w.toNat n)).toNat = min w.toNat n :=
  toNat_ofNat_word (Nat.lt_of_le_of_lt (Nat.min_le_left ..) w.isLt)

/-- A range apart from the storage holds no address of the ring. -/
theorem Ring.Inv.addr_ne_of_apart {size a n : Nat} {r : Ring} (h : r.Inv size) (hv : r.valid = true)
    (hapart : rangesApart a n r.base.toNat r.endIndex) (off j : Nat) : ∀ k < n, a + k ≠ r.addr off j := by
  intro k hk heq
  obtain ⟨hlow, hhigh⟩ := h.addr_mem hv off j
  omega

/-- What the ring holds depends on the bytes of its storage alone. -/
theorem State.ringBytes_congr_storage {s t : State} (hr : t.ring = s.ring)
    (hm : ∀ off j, memByte t.mem (s.ring.addr off j) = memByte s.mem (s.ring.addr off j)) :
    t.ringBytes = s.ringBytes := by
  simp only [State.ringBytes, hr, hm]

/-- The oldest `k` elements held, byte by byte. -/
theorem State.ringBytes_take {s : State} {k : Nat} (hk : k ≤ s.ring.occ) :
    s.ringBytes.take (k * s.ring.esz.toNat) =
      (List.range (k * s.ring.esz.toNat)).map fun j => memByte s.mem (s.ring.addr s.ring.tail.toNat j) := by
  rw [State.ringBytes, ← List.map_take, List.take_range, Nat.min_eq_left (Nat.mul_le_mul_right _ hk)]

/-- A copy of the oldest `k` elements to a range that the storage does not touch: those bytes, in order. -/
theorem copyBytes_from_ring {s : State} {a k : Nat} {m : Memory} (hk : k ≤ s.ring.occ)
    (hcopy : copyBytes s.cfg.memSize (s.ring.addr s.ring.tail.toNat) (fun j => a + j) (k * s.ring.esz.toNat) 0 s.mem =
      some m)
    (hapart : ∀ j, ∀ i < k * s.ring.esz.toNat, a + i ≠ s.ring.addr s.ring.tail.toNat j) :
    memBytes m a (k * s.ring.esz.toNat) = s.ringBytes.take (k * s.ring.esz.toNat) := by
  have hall := copyBytes_apart hcopy
  simp only [Nat.zero_add] at hall
  rw [State.ringBytes_take hk]
  exact List.map_congr_left fun j hj =>
    hall (fun j _ i hi => (hapart j i hi).symm) (fun _ _ _ _ => Nat.add_left_cancel) j (List.mem_range.mp hj)

/-! ### One operation -/

/-- What a session carries from one operation to the next, from `s` to `t`: the parameters, and a ring within its
invariants. -/
def RingKept (s t : State) : Prop :=
  t.cfg = s.cfg ∧ t.ring.valid = true ∧ t.ring.Inv t.cfg.memSize

/-- A whole RB_WRITE from outside the storage appends its source to what the ring holds (R146). -/
theorem execRbWrite_appends {s t : State} (hwf : s.cfg.wellFormed = true) (h : s.ring.Inv s.cfg.memSize)
    (hv : s.ring.valid = true)
    (hapart : rangesApart s.argN0 (s.argN1 * s.ring.esz.toNat) s.ring.base.toNat s.ring.endIndex)
    (hran : execRbWrite s = .next t) (hok : t.regs.err = .ok) (hwhole : t.regs.res0 = s.regs.arg1) :
    RingKept s t ∧ t.ringBytes = s.ringBytes ++ memBytes s.mem s.argN0 (s.argN1 * s.ring.esz.toNat) := by
  have hs := Config.memSize_le hwf
  rcases execRbWrite_eq_next hran with ⟨-, rfl⟩ | ⟨-, -, rfl⟩ | ⟨-, -, m, hcopy, rfl⟩
  · cases hok
  · cases hok
  · have hcount : rbWriteCount s = s.argN1 := by
      have hres := congrArg BitVec.toNat hwhole
      rwa [State.succeed_regs, rbWriteCount, State.argN1, toNat_ofNat_min] at hres
    have hfree : s.argN1 ≤ s.ring.free := by rw [← hcount]; exact Nat.min_le_right ..
    rw [hcount] at hcopy ⊢
    have hfit : s.argN1 * s.ring.esz.toNat ≤ s.ring.endIndex :=
      Nat.mul_le_mul_right _ (by have := h.occ_add_free hv; omega)
    refine ⟨⟨rfl, hv, h.pushed hs (Nat.dvd_mul_left ..)⟩,
      ringBytes_pushed h hv hs hfree (by simp [memBytes]) rfl (fun j hj => ?_) fun j hj => ?_⟩
    · have hj' : j < s.argN1 * s.ring.esz.toNat := by simpa [memBytes] using hj
      have hnew := copyBytes_to_ring hcopy hfit (fun j _ => h.addr_ne_of_apart hv hapart _ j) j hj'
      simpa [memBytes, hj'] using hnew
    · refine copyBytes_frame hcopy fun i hi => ?_
      rw [Nat.zero_add]
      exact h.addr_head_ne_tail hv hfree hi hj

/-- An RB_READ to outside the storage delivers the oldest elements and leaves the rest (R148). -/
theorem execRbRead_delivers {s t : State} (hwf : s.cfg.wellFormed = true) (h : s.ring.Inv s.cfg.memSize)
    (hv : s.ring.valid = true)
    (hapart : rangesApart s.argN0 (s.argN1 * s.ring.esz.toNat) s.ring.base.toNat s.ring.endIndex)
    (hran : execRbRead s = .next t) (hok : t.regs.err = .ok) :
    RingKept s t ∧ s.ringBytes = memBytes t.mem s.argN0 (t.regs.res0.toNat * t.ring.esz.toNat) ++ t.ringBytes := by
  have hs := Config.memSize_le hwf
  rcases execRbRead_eq_next hran with ⟨-, rfl⟩ | ⟨-, -, rfl⟩ | ⟨-, -, m, hcopy, rfl⟩
  · cases hok
  · cases hok
  · have hocc : rbReadCount s ≤ s.ring.occ := Nat.min_le_right ..
    have hle : rbReadCount s * s.ring.esz.toNat ≤ s.argN1 * s.ring.esz.toNat :=
      Nat.mul_le_mul_right _ (Nat.min_le_left ..)
    have hne (off j : Nat) : ∀ k < rbReadCount s * s.ring.esz.toNat, s.argN0 + k ≠ s.ring.addr off j :=
      fun k hk => h.addr_ne_of_apart hv hapart off j k (Nat.lt_of_lt_of_le hk hle)
    have hstorage (off j : Nat) : memByte m (s.ring.addr off j) = memByte s.mem (s.ring.addr off j) :=
      copyBytes_frame hcopy fun k hk heq => hne off j k hk (by rw [heq, Nat.zero_add])
    have hdelivered := copyBytes_from_ring hocc hcopy (hne _)
    have hrest : State.ringBytes { s with mem := m, ring := s.ring.popped (rbReadCount s * s.ring.esz.toNat) } =
        s.ringBytes.drop (rbReadCount s * s.ring.esz.toNat) :=
      calc State.ringBytes { s with mem := m, ring := s.ring.popped (rbReadCount s * s.ring.esz.toNat) }
        _ = State.ringBytes { s with ring := s.ring.popped (rbReadCount s * s.ring.esz.toNat) } :=
          State.ringBytes_congr_storage rfl hstorage
        _ = s.ringBytes.drop (rbReadCount s * s.ring.esz.toNat) := ringBytes_popped h hv hs hocc rfl rfl
    refine ⟨⟨rfl, hv, h.popped hs (Nat.dvd_mul_left ..)⟩, ?_⟩
    calc s.ringBytes
      _ = s.ringBytes.take (rbReadCount s * s.ring.esz.toNat) ++ s.ringBytes.drop (rbReadCount s * s.ring.esz.toNat) :=
        (List.take_append_drop ..).symm
      _ = _ := by
        rw [← hdelivered, ← hrest, State.succeed_regs, rbReadCount, State.argN1, toNat_ofNat_min]
        rfl

/-- An operation of a session conserves the bytes: held before and offered, they are delivered or held after. -/
theorem RingOp.conserves {s t : State} {o : RingOp} (hwf : s.cfg.wellFormed = true) (h : s.ring.Inv s.cfg.memSize)
    (hv : s.ring.valid = true) (hapart : o.apart s) (hran : exec o.instr (o.setArgs s) = .next t)
    (hok : t.regs.err = .ok) (hwhole : ∀ a n, o = .write a n → t.regs.res0 = n) :
    RingKept s t ∧ s.ringBytes ++ o.offered s = o.delivered t ++ t.ringBytes := by
  cases o with
  | write a n =>
    obtain ⟨hkept, hbytes⟩ :=
      execRbWrite_appends (s := (RingOp.write a n).setArgs s) hwf h hv hapart hran hok (hwhole a n rfl)
    exact ⟨hkept, hbytes.symm⟩
  | read a n =>
    obtain ⟨hkept, hbytes⟩ := execRbRead_delivers (s := (RingOp.read a n).setArgs s) hwf h hv hapart hran hok
    exact ⟨hkept, (List.append_nil _).trans hbytes⟩

/-! ### A session -/

/-- A session conserves the bytes, by induction on its operations. -/
theorem RingSession.conserves {s t : State} {offered delivered : List Byte}
    (hsession : RingSession s offered delivered t) (hwf : s.cfg.wellFormed = true) (h : s.ring.Inv s.cfg.memSize)
    (hv : s.ring.valid = true) :
    t.ring.Inv t.cfg.memSize ∧ s.ringBytes ++ offered = delivered ++ t.ringBytes := by
  induction hsession with
  | done s => exact ⟨h, List.append_nil _⟩
  | @op s t u o offered delivered hapart hran hok hwhole _ ih =>
    obtain ⟨⟨hcfg, hvt, hinv⟩, hop⟩ := RingOp.conserves hwf h hv hapart hran hok hwhole
    obtain ⟨hlast, hrest⟩ := ih (hcfg ▸ hwf) hinv hvt
    refine ⟨hlast, ?_⟩
    calc s.ringBytes ++ (o.offered s ++ offered)
      _ = o.delivered t ++ (t.ringBytes ++ offered) := by rw [← List.append_assoc, hop, List.append_assoc]
      _ = o.delivered t ++ delivered ++ u.ringBytes := by rw [hrest, List.append_assoc]

/-- A ring whose head and tail meet holds nothing. -/
theorem State.ringBytes_of_head_eq_tail {s : State} (h : s.ring.Inv s.cfg.memSize) (hv : s.ring.valid = true)
    (heq : s.ring.head = s.ring.tail) : s.ringBytes = [] := by
  obtain ⟨-, -, -, hhead, htail, -, -⟩ := h hv
  have hocc := h.occ_mul hv
  rw [subMod_of_lt hhead htail, heq, if_pos (Nat.le_refl _), Nat.sub_self] at hocc
  exact List.length_eq_zero_iff.mp (s.ringBytes_length.trans hocc)

/-- Settles O32: the session conserves the bytes, and from an empty ring all that was delivered was offered. -/
theorem ringDeliversInFifoOrder : Obligations.RingDeliversInFifoOrder := by
  unfold Obligations.RingDeliversInFifoOrder
  intro s t offered delivered hwf h hv hsession
  obtain ⟨hinv, hbytes⟩ := hsession.conserves hwf h hv
  refine ⟨hbytes, hinv, fun hempty => ⟨t.ringBytes, ?_⟩⟩
  rw [← hbytes, State.ringBytes_of_head_eq_tail h hv hempty, List.nil_append]

end Sys2Proof.Machine
end

section
/-! The steps of TIMER and SIGNAL written out (41_capture.md R171, R180 to R182). -/

namespace Sys2Proof.Machine

/-! ### TIMER (R171) -/

theorem timerTurn_eq (s : State) :
    timerTurn s =
      { s with
        cap :=
          { s.cap with
            cnt :=
              if s.cap.timEn then if s.cap.cnt.toNat ≥ s.cap.arr.toNat then 0#32 else s.cap.cnt + 1#32
              else s.cap.cnt } } := by
  have hcnt : BitVec.ofNat 32 (s.cap.cnt.toNat + 1) = s.cap.cnt + 1#32 := by
    rw [BitVec.ofNat_add, BitVec.ofNat_toNat, BitVec.setWidth_eq]
  by_cases hen : s.cap.timEn = true
  · rw [timerTurn, if_pos hen, if_pos hen, tick, hcnt]
    rfl
  · rw [timerTurn, if_neg hen, if_neg hen]

/-- The counter at `n`, counted round its period `ARR + 1`. -/
def State.atCount (s : State) (n : Nat) : State :=
  { s with cap := { s.cap with cnt := BitVec.ofNat 32 (n % (s.cap.arr.toNat + 1)) } }

/-- A tick moves the count on by 1, round the period. -/
theorem tick_atCount (s : State) (n : Nat) : tick (s.atCount n) = s.atCount (n + 1) := by
  have hlt : n % (s.cap.arr.toNat + 1) < s.cap.arr.toNat + 1 := Nat.mod_lt n (Nat.succ_pos _)
  have hfit : (BitVec.ofNat 32 (n % (s.cap.arr.toNat + 1))).toNat = n % (s.cap.arr.toNat + 1) :=
    toNat_ofNat_word (Nat.lt_of_lt_of_le hlt s.cap.arr.isLt)
  rw [tick, State.atCount, State.atCount, ← Nat.mod_add_mod n, hfit]
  by_cases hwrap : s.cap.arr.toNat ≤ n % (s.cap.arr.toNat + 1)
  · have hlast : n % (s.cap.arr.toNat + 1) = s.cap.arr.toNat := by omega
    rw [if_pos hwrap, hlast, Nat.mod_self]
    rfl
  · rw [if_neg hwrap, Nat.mod_eq_of_lt (by omega : n % (s.cap.arr.toNat + 1) + 1 < s.cap.arr.toNat + 1)]

theorem tick_iterate_atCount (s : State) (n k : Nat) : tick^[k] (s.atCount n) = s.atCount (n + k) := by
  induction k with
  | zero => rfl
  | succ k ih => rw [Function.iterate_succ_apply', ih, tick_atCount, Nat.add_assoc]

theorem State.atCount_period (s : State) (n : Nat) : s.atCount (n + (s.cap.arr.toNat + 1)) = s.atCount n := by
  simp [State.atCount]

theorem State.atCount_cnt {s : State} (h : s.cap.cnt.toNat ≤ s.cap.arr.toNat) : s.atCount s.cap.cnt.toNat = s := by
  simp [State.atCount, Nat.mod_eq_of_lt (Nat.lt_succ_of_le h)]

/-- Settles O33: a tick adds 1 to the count modulo the period. -/
theorem tickCountsModuloTheReload : Obligations.TickCountsModuloTheReload := by
  unfold Obligations.TickCountsModuloTheReload
  refine fun s => ⟨fun turns hsched => ?_, fun hle => ?_⟩
  · rw [step_cons hsched, takeTurn, timerTurn_eq]
  · calc tick^[s.cap.arr.toNat + 1] s
      _ = tick^[s.cap.arr.toNat + 1] (s.atCount s.cap.cnt.toNat) := by rw [State.atCount_cnt hle]
      _ = s := by rw [tick_iterate_atCount, State.atCount_period, State.atCount_cnt hle]

/-! ### SIGNAL (R180 to R182) -/

/-- The block event written out: only the queue and two registers of the capture can change. -/
theorem blockEvent_eq (s : State) (b : Bool) :
    blockEvent s b =
      { s with
        cap :=
          { s.cap with
            dropCnt := if s.bq.count = s.cfg.bqDepth then s.cap.dropCnt + 1#32 else s.cap.dropCnt
            ntf := true }
        bq :=
          if s.bq.count = s.cfg.bqDepth then s.bq
          else
            { s.bq with
              slots := s.bq.slots.set s.bq.head b
              head := (s.bq.head + 1) % s.cfg.bqDepth
              count := s.bq.count + 1 } } := by
  rcases bqPush_cases s b with ⟨hfull, heq⟩ | ⟨hroom, heq⟩
  · simp [blockEvent, heq, hfull, Capture.countDrop]
  · simp [blockEvent, heq, hroom]

/-- Settles O34, by where the DMA index stands: off, inside a block, at the end of block 0, at the end of block 1. -/
theorem edgeCapturesAndDeliversBlocks : Obligations.EdgeCapturesAndDeliversBlocks := by
  unfold Obligations.EdgeCapturesAndDeliversBlocks
  intro s turns hwf hsched
  have hpos := Config.blockLen_pos hwf
  rw [step_cons hsched, takeTurn]
  rcases edge_cases { s with schedule := turns } with
    ⟨hoff, heq⟩ | ⟨hon, hne0, hne1, heq⟩ | ⟨hon, hend, heq⟩ | ⟨hon, hne0, hend, heq⟩ <;> rw [heq]
  · rw [if_pos hoff]
    rfl
  · rw [if_neg (ne_false_of_eq_true hon), if_neg (not_or.mpr ⟨hne0, hne1⟩)]
    rfl
  · have hne1 : s.cap.dmaIdx + 1 ≠ 2 * s.cfg.blockLen := by
      have : s.cap.dmaIdx + 1 = s.cfg.blockLen := hend
      omega
    rw [if_neg (ne_false_of_eq_true hon), if_pos (.inl hend), blockEvent_eq, if_neg hne1, decide_eq_false hne1]
    rfl
  · rw [if_neg (ne_false_of_eq_true hon), if_pos (.inr hend), blockEvent_eq, if_pos hend, decide_eq_true hend]
    rfl

end Sys2Proof.Machine
end

section
/-! The block-index queue, the pulse width, and the commands of the capture path written out (41_capture.md R182 to
R198). -/

namespace Sys2Proof.Machine

/-! ### The block-index queue (R182, R183) -/

section queue
variable {depth : Nat} {q : BlockQueue}

theorem BlockQueue.Inv.count_lt (h : q.Inv depth) (hne : q.count ≠ depth) : q.count < depth := by
  obtain ⟨-, -, -, hcount, -⟩ := h
  exact Nat.lt_of_le_of_ne hcount hne

/-- A block put in the slot at the head, which holds none, comes behind those held. -/
theorem BlockQueue.Inv.contents_pushed (h : q.Inv depth) (hroom : q.count < depth) (b : Bool) :
    BlockQueue.contents depth
        { slots := q.slots.set q.head b, head := (q.head + 1) % depth, tail := q.tail, count := q.count + 1 } =
      q.contents depth ++ [b] := by
  obtain ⟨hlen, hhead, -, -, hpos⟩ := h
  have hslot (k : Nat) (hk : k < q.count) : q.head ≠ (q.tail + k) % depth := by
    intro heq
    have hmod : q.tail + q.count ≡ q.tail + k [MOD depth] := hpos.symm.trans heq
    have hcount := Nat.ModEq.eq_of_lt_of_lt (Nat.ModEq.add_left_cancel' _ hmod) hroom (by omega)
    omega
  simp only [BlockQueue.contents, List.range_succ, List.map_append, List.map_singleton, List.getD_eq_getElem?_getD]
  congr 1
  · refine List.map_congr_left fun k hk => ?_
    rw [List.getElem?_set_ne (hslot k (List.mem_range.mp hk))]
  · rw [← hpos, List.getElem?_set_self (by omega), Option.getD_some]

theorem BlockQueue.Inv.pushed (h : q.Inv depth) (hroom : q.count < depth) (b : Bool) :
    BlockQueue.Inv depth
      { slots := q.slots.set q.head b, head := (q.head + 1) % depth, tail := q.tail, count := q.count + 1 } := by
  obtain ⟨hlen, -, htail, -, hpos⟩ := h
  refine ⟨(List.length_set ..).trans hlen, Nat.mod_lt _ (by omega), htail, hroom, ?_⟩
  simp only
  rw [hpos, Nat.mod_add_mod, Nat.add_assoc]

/-- The slot at the tail holds the oldest block. -/
theorem BlockQueue.Inv.slots_tail (h : q.Inv depth) : q.slots[q.tail]? = some (q.slots.getD q.tail false) := by
  obtain ⟨hlen, -, htail, -, -⟩ := h
  rw [List.getD_eq_getElem?_getD, List.getElem?_eq_getElem (by omega), Option.getD_some]

theorem BlockQueue.Inv.contents_popped (h : q.Inv depth) (hne : 0 < q.count) :
    q.contents depth =
      q.slots.getD q.tail false
        :: BlockQueue.contents depth { q with tail := (q.tail + 1) % depth, count := q.count - 1 } := by
  obtain ⟨-, -, htail, -, -⟩ := h
  obtain ⟨n, hn⟩ := Nat.exists_eq_add_one_of_ne_zero hne.ne'
  simp only [BlockQueue.contents, hn, List.range_succ_eq_map, List.map_cons, List.map_map, Nat.add_zero,
    Nat.mod_eq_of_lt htail, Nat.add_sub_cancel]
  congr 1
  refine List.map_congr_left fun k _ => ?_
  rw [Function.comp_apply, Nat.mod_add_mod, Nat.add_assoc, Nat.add_comm 1 k]

theorem BlockQueue.Inv.popped (h : q.Inv depth) (hne : 0 < q.count) :
    BlockQueue.Inv depth { q with tail := (q.tail + 1) % depth, count := q.count - 1 } := by
  obtain ⟨hlen, hhead, htail, hcount, hpos⟩ := h
  refine ⟨hlen, hhead, Nat.mod_lt _ (by omega), by simp only; omega, ?_⟩
  simp only
  rw [hpos, Nat.mod_add_mod, Nat.add_assoc, Nat.add_sub_cancel' hne]

end queue

/-- Settles O35: by whether the queue has room for the push; the pop takes the slot at the tail. -/
theorem blockQueueIsFirstInFirstOut : Obligations.BlockQueueIsFirstInFirstOut := by
  unfold Obligations.BlockQueueIsFirstInFirstOut
  intro s b h
  have hpop (hne : 0 < s.bq.count) : ∃ (x : Bool) (t : State), bqPop s = some (x, t) ∧ t.bq.Inv s.cfg.bqDepth
      ∧ s.bq.contents s.cfg.bqDepth = x :: t.bq.contents s.cfg.bqDepth := by
    have htail : s.bq.tail < s.bq.slots.length := (List.getElem?_eq_some_iff.mp h.slots_tail).1
    exact ⟨_, _, bqPop_of_lt htail, h.popped hne, h.contents_popped hne⟩
  rcases bqPush_cases s b with ⟨hfull, heq⟩ | ⟨hne, heq⟩ <;> rw [heq]
  · exact ⟨(if_pos hfull).symm, h, hpop⟩
  · have hroom := h.count_lt hne
    exact ⟨(h.contents_pushed hroom b).trans (if_neg hne).symm, h.pushed hroom b, hpop⟩

/-! ### The pulse width (R186) -/

/-- Settles O36: the difference is reduced before the clamp. -/
theorem pulseWidthIsTheClampedRemainder : Obligations.PulseWidthIsTheClampedRemainder := by
  unfold Obligations.PulseWidthIsTheClampedRemainder
  intro cur prev arr
  have hmod := subMod_int cur.toNat prev.toNat (arr.toNat + 1) arr.toNat.succ_pos
  rw [pulseWidth, Nat.cast_min, hmod]
  push_cast
  rfl

/-! ### START of CAP_PROCESS (R184) -/

theorem nextBlock_of_empty {s : State} (h : s.bq.count = 0) (nb nw : Nat) :
    nextBlock s nb nw =
      .next (State.succeed { s with proc := .idle } (BitVec.ofNat 32 nb) (BitVec.ofNat 32 nw)) :=
  if_pos h

theorem nextBlock_of_slot {s : State} {b : Bool} (hne : s.bq.count ≠ 0) (hb : s.bq.slots[s.bq.tail]? = some b)
    (nb nw : Nat) :
    nextBlock s nb nw =
      .next
        { s with
          bq := { s.bq with tail := (s.bq.tail + 1) % s.cfg.bqDepth, count := s.bq.count - 1 }
          proc := .inblock b 0 (nb + 1) nw } := by
  simp [nextBlock, bqPop, hne, hb]

theorem execCapProcess_of_ring {s : State} (hv : s.ring.valid = true) (hesz : s.ring.esz = 2#32) :
    execCapProcess s = nextBlock s 0 0 :=
  if_neg (by simp [hv, hesz])

/-- Settles O37: over a ring of 2-byte elements START is `NextBlock`, which looks at the queue. -/
theorem capProcessStartPopsOrEnds : Obligations.CapProcessStartPopsOrEnds := by
  unfold Obligations.CapProcessStartPopsOrEnds
  refine ⟨decode_encode .capProcess, fun s hidle => ⟨fun hno => if_pos hno, fun hv hesz hempty => ?_,
    fun b hv hesz hne hb => ?_⟩⟩
  · rw [exec, execCapProcess_of_ring hv hesz, nextBlock_of_empty hempty, ← hidle]
    rfl
  · rw [exec, execCapProcess_of_ring hv hesz, nextBlock_of_slot hne hb]

/-! ### CAP_START and CAP_PAUSE (R192 to R196) -/

/-- Settles O40, by what the disable does: nothing, turn the channel off, or time out. -/
theorem capStartArmsOrTimesOut : Obligations.CapStartArmsOrTimesOut := by
  unfold Obligations.CapStartArmsOrTimesOut
  refine ⟨decode_encode .capStart, fun s => ?_⟩
  rw [exec, execCapStart]
  rcases dmaDisable_cases (capStartClear s) with ⟨hoff, heq⟩ | ⟨hon, hok, heq⟩ | ⟨hon, hok, heq⟩ <;> rw [heq]
  · have hoff' : ¬ s.cap.dmaEn = true := ne_true_of_eq_false hoff
    rw [if_neg fun h => hoff' h.1, if_neg hoff']
    rfl
  · rw [if_neg fun h => ne_false_of_eq_true hok h.2, if_pos (show s.cap.dmaEn = true from hon)]
    rfl
  · have htimeout : s.cap.dmaEn = true ∧ Config.dmaDisableOk s.draws = false := ⟨hon, hok⟩
    rw [if_pos htimeout]
    rfl

/-- Settles O41, by the same three cases. -/
theorem capPauseKeepsWhatIsInFlight : Obligations.CapPauseKeepsWhatIsInFlight := by
  unfold Obligations.CapPauseKeepsWhatIsInFlight
  refine ⟨decode_encode .capPause, fun s => ?_⟩
  rw [exec, execCapPause]
  rcases dmaDisable_cases s with ⟨hoff, heq⟩ | ⟨hon, hok, heq⟩ | ⟨hon, hok, heq⟩ <;> rw [heq]
  · have hoff' : ¬ s.cap.dmaEn = true := ne_true_of_eq_false hoff
    rw [if_neg fun h => hoff' h.1, if_neg hoff', ← hoff]
    rfl
  · rw [if_neg fun h => ne_false_of_eq_true hok h.2, if_pos hon]
    rfl
  · rw [if_pos ⟨hon, hok⟩]
    rfl

/-! ### The notification (R197, R198) -/

/-- Settles O42: NTF_TAKE by its definition, NTF_WAIT by the flag. -/
theorem notificationIsTakenOrAwaited : Obligations.NotificationIsTakenOrAwaited := by
  unfold Obligations.NotificationIsTakenOrAwaited
  refine ⟨⟨decode_encode .ntfTake, decode_encode .ntfWait⟩, fun s hwait => ⟨?_, fun hntf => ?_, fun hntf => ?_⟩⟩
  · rw [exec, execNtfTake, flagResult_eq_ite]
    rfl
  · rw [exec, execNtfWait, if_pos hntf, ntfWaitDone, ← hwait]
    rfl
  · exact if_neg (ne_true_of_eq_false hntf)

theorem hostTurn_waiting {s : State} (hproc : s.proc = .idle) (hwait : s.waiting = true) :
    hostTurn s = .next (if s.cap.ntf then (ntfWaitDone s).settle else s) := by
  rw [hostTurn, hproc, apply_ite Host.Outcome.next]
  exact if_pos hwait

/-- Settles O43: with NTF_WAIT in flight the host's turn looks at the flag alone. -/
theorem ntfWaitHoldsUntilTheNotification : Obligations.NtfWaitHoldsUntilTheNotification := by
  unfold Obligations.NtfWaitHoldsUntilTheNotification
  intro s turns hsched hproc hwait
  have hdone : (ntfWaitDone { s with schedule := turns }).settle =
      { ntfWaitDone { s with schedule := turns } with reply := .written } := State.settle_of_idle hproc rfl
  rw [step_cons hsched, takeTurn, hostTurn_waiting (s := { s with schedule := turns }) hproc hwait, hdone]
  rfl

end Sys2Proof.Machine
end

section
/-! The micro-step ELEM of CAP_PROCESS written out, and the run of a CAP_PROCESS that no other agent disturbs
(41_capture.md R184 to R188, 60_exceptions.md R357, R358). -/

namespace Sys2Proof.Machine

variable {s : State}

/-! ### What ELEM consumes (R185 to R188) -/

/-- What the consumption of the capture value `cur` makes of `s`, before the next slot or block is chosen. -/
structure ElemConsumed (s u : State) (cur : Word) : Prop where
  others : u = { s with mem := u.mem, ring := u.ring, cap := u.cap }
  cap : u.cap =
    { s.cap with
      prevCap := cur
      havePrev := true
      dropCnt := if s.cap.havePrev = true ∧ s.ring.free = 0 then s.cap.dropCnt + 1#32 else s.cap.dropCnt }
  ring : u.ring =
    if s.cap.havePrev then
      { s.ring with
        head := BitVec.ofNat 32 ((s.ring.head.toNat + 2) % s.ring.endIndex)
        tail :=
          if s.ring.free = 0 then BitVec.ofNat 32 ((s.ring.tail.toNat + 2) % s.ring.endIndex) else s.ring.tail }
    else s.ring
  bytes : u.ringBytes =
    if s.cap.havePrev then
      (if s.ring.free = 0 then s.ringBytes.drop 2 else s.ringBytes)
      ++ leBytes 2 (pulseWidth cur s.cap.prevCap s.cap.arr)
    else s.ringBytes
  frame : ∀ x : Nat,
    (s.cap.havePrev = true → x ≠ s.ring.addr s.ring.head.toNat 0 ∧ x ≠ s.ring.addr s.ring.head.toNat 1) →
    memByte u.mem x = memByte s.mem x

/-- With no previous capture the value is only recorded. -/
theorem consumed_first (hfirst : s.cap.havePrev = false) (cur : Word) : ElemConsumed s (rememberCapture s cur) cur where
  others := rfl
  cap := by rw [if_neg fun h => ne_true_of_eq_false hfirst h.1]; rfl
  ring := (if_neg (ne_true_of_eq_false hfirst)).symm
  bytes := (if_neg (ne_true_of_eq_false hfirst)).symm
  frame _ _ := rfl

/-- With one, the width goes into the ring, for which the eviction has made room. -/
theorem ringInsert_consumed (hwf : s.cfg.wellFormed = true) (h : s.ring.Inv s.cfg.memSize) (hv : s.ring.valid = true)
    (hesz : s.ring.esz = 2#32) (hprev : s.cap.havePrev = true) (cur : Word) :
    ∃ u, ringInsert s (leBytes 2 (pulseWidth cur s.cap.prevCap s.cap.arr)) = some u
      ∧ ElemConsumed s (rememberCapture u cur) cur := by
  have htwo : s.ring.esz.toNat = 2 := by rw [hesz]; rfl
  obtain ⟨m, hins, -, -, -, hframe, hbytes⟩ :=
    ringInsert_spec (bytes := leBytes 2 (pulseWidth cur s.cap.prevCap s.cap.arr)) h hv (Config.memSize_le hwf)
      (by rw [leBytes_length, htwo])
  rw [htwo] at hins hframe hbytes
  refine ⟨_, hins, rfl, ?_, ?_, ?_, fun x hx => hframe x fun j hj => ?_⟩
  · by_cases hfull : s.ring.free = 0 <;> simp [hfull, hprev, Capture.countDrop]
  · rw [if_pos hprev]
    by_cases hfull : s.ring.free = 0 <;> simp [hfull, Ring.pushed, Ring.popped, htwo, Ring.endIndex]
  · rw [if_pos hprev, ← hbytes]
    rfl
  · obtain ⟨hx0, hx1⟩ := hx hprev
    match j, hj with
    | 0, _ => exact hx0
    | 1, _ => exact hx1

/-- ELEM consumes the value of its slot and goes on, with one width more where there was a previous capture. -/
theorem elem_consumes (h : s.Inv) {b : Bool} {i nb nw : Nat} {cur : Word} (hp : s.proc = .inblock b i nb nw)
    (hslot : s.cap.capbuf[captureIndex s.cfg.blockLen b i]? = some (some cur)) :
    ∃ u, ElemConsumed s u cur ∧ elem s b i nb nw = elemNext u b i nb (if s.cap.havePrev then nw + 1 else nw) := by
  obtain ⟨-, -, -, hv, hesz⟩ := State.flightOk_iff.mp h.flight_ok _ _ _ _ hp
  cases hprev : s.cap.havePrev with
  | false => exact ⟨_, consumed_first hprev cur, by simp [elem, hslot, hprev]⟩
  | true =>
    obtain ⟨u, hins, hu⟩ := ringInsert_consumed h.cfg_wf h.ring_inv hv hesz hprev cur
    exact ⟨_, hu, by simp [elem, hslot, hprev, hins]⟩

/-! ### The end of ELEM (R184) -/

/-- Everything the end of ELEM does: the next slot, the next block, or the end of the command. -/
theorem elemNext_spec (h : s.bq.Inv s.cfg.bqDepth) (b : Bool) (i nb nw : Nat) :
    ∃ t, elemNext s b i nb nw = .next t ∧ t = { s with bq := t.bq, proc := t.proc, regs := t.regs }
      ∧ (i + 1 < s.cfg.blockLen → t.proc = .inblock b (i + 1) nb nw ∧ t.bq = s.bq ∧ t.regs = s.regs)
      ∧ (i + 1 = s.cfg.blockLen → s.bq.count = 0 →
          t.proc = .idle ∧ t.bq = s.bq
          ∧ t.regs = { s.regs with err := .ok, res0 := BitVec.ofNat 32 nb, res1 := BitVec.ofNat 32 nw })
      ∧ (i + 1 = s.cfg.blockLen → 0 < s.bq.count →
          ∃ b' : Bool, s.bq.contents s.cfg.bqDepth = b' :: t.bq.contents s.cfg.bqDepth
            ∧ t.bq = { s.bq with tail := (s.bq.tail + 1) % s.cfg.bqDepth, count := s.bq.count - 1 }
            ∧ t.proc = .inblock b' 0 (nb + 1) nw ∧ t.regs = s.regs) := by
  by_cases hi : i + 1 < s.cfg.blockLen
  · exact ⟨_, if_pos hi, rfl, fun _ => ⟨rfl, rfl, rfl⟩, fun he => absurd he hi.ne, fun he => absurd he hi.ne⟩
  · have hend : elemNext s b i nb nw = nextBlock s nb nw := if_neg hi
    by_cases hempty : s.bq.count = 0
    · refine ⟨_, hend.trans (nextBlock_of_empty hempty nb nw), rfl, fun hlt => absurd hlt hi,
        fun _ _ => ⟨rfl, rfl, rfl⟩, fun _ hpos => absurd hempty hpos.ne'⟩
    · refine ⟨_, hend.trans (nextBlock_of_slot hempty h.slots_tail nb nw), rfl, fun hlt => absurd hlt hi,
        fun _ he => absurd he hempty, fun _ hpos => ⟨_, h.contents_popped hpos, rfl, rfl, rfl⟩⟩

/-- The bus's answer after a piece of CAP_PROCESS: the host is held until the command has ended (45_host_bus.md
R322). -/
theorem settle_reply_of_inblock {t : State} {b : Bool} {i nb nw : Nat} (hp : t.proc = .inblock b i nb nw) :
    t.settle.reply = .held := by
  simp [State.inFlight, hp]

theorem hostTurn_inblock {b : Bool} {i nb nw : Nat} (hp : s.proc = .inblock b i nb nw) :
    hostTurn s = mapNext State.settle (elem s b i nb nw) := by
  rw [hostTurn, hp]

/-- Settles O38: ELEM consumes the value, then chooses what comes next. -/
theorem capProcessElementAppendsTheWidth : Obligations.CapProcessElementAppendsTheWidth := by
  unfold Obligations.CapProcessElementAppendsTheWidth
  intro s b i nb nw nw' cur h hturn hp hslot hnw'
  obtain ⟨hwait, -⟩ := State.flightOk_iff.mp h.flight_ok _ _ _ _ hp
  obtain ⟨u, hu, helem⟩ := elem_consumes (s := { s with schedule := s.schedule.tail }) h hp hslot
  obtain ⟨m, r, c, rfl⟩ : ∃ m r c, u = { s with schedule := s.schedule.tail, mem := m, ring := r, cap := c } :=
    ⟨_, _, _, hu.others⟩
  obtain ⟨t, hnext, hothers, hslotNext, hends, hblockNext⟩ :=
    elemNext_spec (s := { s with schedule := s.schedule.tail, mem := m, ring := r, cap := c }) h.bq_inv b i nb nw'
  obtain ⟨q, p, g, rfl⟩ : ∃ q p g,
      t = { s with schedule := s.schedule.tail, mem := m, ring := r, cap := c, bq := q, proc := p, regs := g } :=
    ⟨_, _, _, hothers⟩
  have hstep : step s = .next (State.settle
      { s with schedule := s.schedule.tail, mem := m, ring := r, cap := c, bq := q, proc := p, regs := g }) := by
    rw [step_host hturn, hostTurn_inblock (s := { s with schedule := s.schedule.tail }) hp, helem, ← hnw', hnext]
    rfl
  refine ⟨_, hstep, rfl, hu.cap, hu.ring, hu.bytes, hu.frame, fun hi => ?_, fun hi hempty => ?_, fun hi hpos => ?_⟩
  · obtain ⟨hproc, hbq, hregs⟩ := hslotNext hi
    exact ⟨hproc, hbq, hregs, settle_reply_of_inblock hproc⟩
  · obtain ⟨hproc, hbq, hregs⟩ := hends hi hempty
    exact ⟨hproc, hbq, congrArg State.reply (State.settle_of_idle hproc hwait), hregs⟩
  · obtain ⟨b', hcontents, hbq, hproc, hregs⟩ := hblockNext hi hpos
    exact ⟨b', hcontents, hbq, hproc, hregs, settle_reply_of_inblock hproc⟩

/-! ### The whole command (60_exceptions.md R357, R358) -/

/-- The slot of a command in flight holds a value (70_reset_and_hazards.md R401). -/
theorem State.Inv.slot_in_flight (h : s.Inv) {b : Bool} {i nb nw : Nat} (hp : s.proc = .inblock b i nb nw) :
    ∃ cur, s.cap.capbuf[captureIndex s.cfg.blockLen b i]? = some (some cur) := by
  obtain ⟨-, hi, hblock, -⟩ := State.flightOk_iff.mp h.flight_ok _ _ _ _ hp
  have hwritten := hblock i hi
  rw [slotWritten, List.getD_eq_getElem?_getD] at hwritten
  cases hslot : s.cap.capbuf[captureIndex s.cfg.blockLen b i]? with
  | none => simp [hslot] at hwritten
  | some o =>
    cases o with
    | none => simp [hslot] at hwritten
    | some cur => exact ⟨cur, rfl⟩

/-- A CAP_PROCESS has ended in `t`, with `nb` blocks and `nw` widths, and the queue empty. -/
structure CapProcessEnded (t : State) (nb nw : Nat) : Prop where
  idle : t.proc = .idle
  empty : t.bq.count = 0
  ok : t.regs.err = .ok
  blocks : t.regs.res0 = BitVec.ofNat 32 nb
  widths : t.regs.res1 = BitVec.ofNat 32 nw

/-- One element of a CAP_PROCESS in flight, with no other agent's turn and `n` elements to come after it: those left
in its block and those of the blocks queued. Either it was the last and the command has ended, or the command goes on
with the next. -/
theorem step_inblock {b : Bool} {i nb nw nw' n : Nat} (h : s.Inv) (hsched : s.schedule = [])
    (hp : s.proc = .inblock b i nb nw) (hn : n + 1 + i = (1 + s.bq.count) * s.cfg.blockLen)
    (hnw' : nw' = if s.cap.havePrev then nw + 1 else nw) :
    ∃ t, step s = .next t ∧ t.schedule = [] ∧ t.program = s.program ∧ t.cap.havePrev = true
      ∧ ((n = 0 ∧ CapProcessEnded t (nb + s.bq.count) nw')
        ∨ ∃ b' i' nb', t.proc = .inblock b' i' nb' nw' ∧ n + i' = (1 + t.bq.count) * t.cfg.blockLen
            ∧ nb' + t.bq.count = nb + s.bq.count) := by
  obtain ⟨-, hi, -⟩ := State.flightOk_iff.mp h.flight_ok _ _ _ _ hp
  obtain ⟨cur, hslot⟩ := h.slot_in_flight hp
  obtain ⟨t, hstep, hothers, hcap, -, -, -, hslotNext, hends, hblockNext⟩ :=
    capProcessElementAppendsTheWidth s b i nb nw nw' cur h (.inl hsched) hp hslot hnw'
  have hcfg : t.cfg = s.cfg := by rw [hothers]
  refine ⟨t, hstep, by rw [hothers, hsched]; rfl, by rw [hothers], by rw [hcap], ?_⟩
  rw [hcfg]
  rw [Nat.add_mul, Nat.one_mul] at hn
  by_cases hlast : i + 1 < s.cfg.blockLen
  · obtain ⟨hproc, hbq, -⟩ := hslotNext hlast
    refine .inr ⟨b, i + 1, nb, hproc, ?_, by rw [hbq]⟩
    rw [hbq, Nat.add_mul, Nat.one_mul]
    omega
  · have hend : i + 1 = s.cfg.blockLen := by omega
    by_cases hempty : s.bq.count = 0
    · obtain ⟨hproc, hbq, -, hregs⟩ := hends hend hempty
      rw [hempty, Nat.zero_mul] at hn
      refine .inl ⟨by omega, hproc, by rw [hbq, hempty], by rw [hregs], ?_, by rw [hregs]⟩
      rw [hregs, hempty, Nat.add_zero]
    · obtain ⟨b', -, hbq, hproc, -⟩ := hblockNext hend (Nat.pos_of_ne_zero hempty)
      have hcount : 1 + t.bq.count = s.bq.count := by
        rw [hbq]
        exact Nat.add_sub_cancel' (Nat.pos_of_ne_zero hempty)
      exact .inr ⟨b', 0, nb + 1, hproc, by rw [hcount]; omega, by omega⟩

/-- With `n` elements to come and no other agent's turn, a CAP_PROCESS in flight ends in `n` steps: each consumes a
value, and only the first of a session gives no width. -/
theorem run_capProcess_ends (n : Nat) :
    ∀ {s : State} {b : Bool} {i nb nw : Nat}, s.Inv → s.schedule = [] → s.proc = .inblock b i nb nw →
      n + i = (1 + s.bq.count) * s.cfg.blockLen →
      ∃ t, Host.Core.run Sys2Proof.core n s = .next t
        ∧ CapProcessEnded t (nb + s.bq.count) (if s.cap.havePrev then nw + n else nw + n - 1)
        ∧ t.program = s.program := by
  induction n with
  | zero =>
    intro s b i nb nw h _ hp hn
    obtain ⟨-, hi, -⟩ := State.flightOk_iff.mp h.flight_ok _ _ _ _ hp
    have hleft := Nat.le_mul_of_pos_left s.cfg.blockLen (Nat.add_pos_left Nat.one_pos s.bq.count)
    omega
  | succ n ih =>
    intro s b i nb nw h hsched hp hn
    obtain ⟨t, hstep, hsched', hprog, hprev, hnext⟩ := step_inblock h hsched hp hn rfl
    have hwidths : (if s.cap.havePrev then nw + (n + 1) else nw + (n + 1) - 1) =
        (if s.cap.havePrev then nw + 1 else nw) + n := by
      split <;> omega
    rw [run_succ n hstep, hwidths]
    rcases hnext with ⟨rfl, hended⟩ | ⟨b', i', nb', hp', hn', hblocks⟩
    · exact ⟨t, rfl, hended, hprog⟩
    · obtain ⟨t', hrun, hended, hprog'⟩ := ih (everyStepKeepsTheInvariant s t h hstep) hsched' hp' hn'
      rw [if_pos hprev, hblocks] at hended
      exact ⟨t', hrun, hended, hprog'.trans hprog⟩

/-- START of a CAP_PROCESS over a ring of 2-byte elements: the end of the command, or the first block in flight. -/
theorem step_capProcess {rest : List HostAccess} (h : s.Inv) (hfree : s.hostFree) (hv : s.ring.valid = true)
    (hesz : s.ring.esz = 2#32) (hprog : s.program = commandAccess 0x00000022#32 :: rest) :
    ∃ t, step s = .next t ∧ t.schedule = [] ∧ t.program = rest ∧ t.cap = s.cap ∧ t.cfg = s.cfg
      ∧ ((s.bq.count = 0 ∧ CapProcessEnded t 0 0)
        ∨ ∃ b, t.proc = .inblock b 0 1 0 ∧ 1 + t.bq.count = s.bq.count) := by
  have hstart : step s = mapNext State.settle (nextBlock { s with program := rest } 0 0) :=
    calc step s
      _ = mapNext State.settle (runCommand (encode .capProcess) { s with program := rest }) :=
        step_commandAccess hfree hprog
      _ = mapNext State.settle (execCapProcess { s with program := rest }) := by rw [runCommand_encode, exec]
      _ = mapNext State.settle (nextBlock { s with program := rest } 0 0) := congrArg _ (execCapProcess_of_ring hv hesz)
  obtain ⟨hsched, -, -⟩ := hfree
  by_cases hempty : s.bq.count = 0
  · rw [nextBlock_of_empty (s := { s with program := rest }) hempty] at hstart
    exact ⟨_, hstart, hsched, rfl, rfl, rfl, .inl ⟨hempty, rfl, hempty, rfl, rfl, rfl⟩⟩
  · rw [nextBlock_of_slot (s := { s with program := rest }) hempty h.bq_inv.slots_tail] at hstart
    have hcount : 1 + (s.bq.count - 1) = s.bq.count := Nat.add_sub_cancel' (Nat.pos_of_ne_zero hempty)
    exact ⟨_, hstart, hsched, rfl, rfl, rfl, .inr ⟨_, rfl, hcount⟩⟩

/-- Settles O39: START ends the command at once, or pops the first block and the elements end it. -/
theorem capProcessEndsWhenNothingArrives : Obligations.CapProcessEndsWhenNothingArrives := by
  unfold Obligations.CapProcessEndsWhenNothingArrives
  intro s rest h hfree hv hesz hprog
  obtain ⟨t, hstep, hsched, hprog', hcap, hcfg, ⟨hempty, hended⟩ | ⟨b, hproc, hcount⟩⟩ :=
    step_capProcess h hfree hv hesz hprog
  · refine ⟨t, ?_, hended.idle, hended.empty, hended.ok, ?_, ?_, hprog'⟩
    · rw [hempty, Nat.zero_mul]
      exact (run_one s).trans hstep
    · rw [hended.blocks, hempty]
    · rw [hended.widths, hempty, Nat.zero_mul, ite_self]
  · obtain ⟨t', hrun, hended, hprog''⟩ := run_capProcess_ends (s.bq.count * s.cfg.blockLen)
      (everyStepKeepsTheInvariant s t h hstep) hsched hproc (by rw [hcount, hcfg]; rfl)
    rw [hcount, hcap, Nat.zero_add] at hended
    refine ⟨t', ?_, hended.idle, hended.empty, hended.ok, hended.blocks, hended.widths, hprog''.trans hprog'⟩
    rw [Nat.add_comm, run_succ _ hstep, hrun]

end Sys2Proof.Machine
end

section
/-! What the commands of the decoder port answer (42_decoder_port.md R227 to R231): each failure in the order of the
checks, and the state a success leaves. -/

namespace Sys2Proof.Machine

variable {s : State}

/-! ### DEC_BEGIN (R227) -/

theorem protoOfImm_of_toNat_eq_code {imm : Half} {p : Proto} (h : imm.toNat = p.code) : protoOfImm imm = some p := by
  obtain rfl : imm = BitVec.ofNat 16 p.code := by rw [← h, BitVec.ofNat_toNat, BitVec.setWidth_eq]
  cases p <;> rfl

theorem protoOfImm_of_three_lt {imm : Half} (h : 3 < imm.toNat) : protoOfImm imm = none := by
  refine if_neg fun hzero => ?_
  have hhigh : imm.toNat / 4 % 2 ^ 14 = 0 := by
    simpa [BitVec.extractLsb'_toNat, Nat.shiftRight_eq_div_pow] using congrArg BitVec.toNat hzero
  omega

theorem exec_decBegin_of_proto {imm : Half} {p : Proto} (h : protoOfImm imm = some p) :
    exec (.decBegin imm) s = .next (State.succeed
      { s with
        dec :=
          { Decoder.fullReset { s.dec with proto := p, halfUs := BitVec.ofNat 16 (protoHalfUs s.cfg p) } with
            active := true } } 0 0) := by
  rw [exec, execDecBegin, h]

/-- Settles O44, by the protocol the immediate names, if any. -/
theorem decBeginSelectsTheProtocol : Obligations.DecBeginSelectsTheProtocol := by
  unfold Obligations.DecBeginSelectsTheProtocol
  refine ⟨fun imm => decode_encode (.decBegin imm), fun s imm => ⟨fun habove => ?_, fun p hp => ?_⟩⟩
  · rw [exec, execDecBegin, protoOfImm_of_three_lt habove]
    rfl
  · rw [exec_decBegin_of_proto (protoOfImm_of_toNat_eq_code hp)]
    cases p <;> rfl

/-! ### DEC_PARTIAL_RESET (R228) -/

/-- Settles O45, by whether a protocol has been selected. -/
theorem decPartialResetKeepsTheFrame : Obligations.DecPartialResetKeepsTheFrame := by
  unfold Obligations.DecPartialResetKeepsTheFrame
  refine ⟨decode_encode .decPartialReset, fun s => ?_⟩
  cases hactive : s.dec.active with
  | false => exact if_pos hactive
  | true => exact if_neg (ne_false_of_eq_true hactive)

/-! ### DEC_EXECUTE and DEC_EVENT (R229, R230) -/

/-- The value of two bytes, the second the higher. -/
theorem ofNat_leValue_pair (lo hi : Byte) : BitVec.ofNat 16 (leValue [lo, hi]) = hi ++ lo := by
  have hvalue : leValue [lo, hi] = (hi ++ lo).toNat := by
    rw [BitVec.toNat_append, ← Nat.shiftLeft_add_eq_or_of_lt lo.isLt, Nat.shiftLeft_eq]
    simp only [leValue]
    omega
  rw [hvalue, BitVec.ofNat_toNat, BitVec.setWidth_eq]

/-- DEC_EXECUTE of records inside MEM, after its other checks. -/
theorem execDecExecute_of_le (hactive : s.dec.active = true) (hcount : s.argN1 ≤ s.cfg.frameChunkSize)
    (hrange : s.argN0 + 4 * s.argN1 ≤ s.cfg.memSize) :
    execDecExecute s = .next (runPass s ((List.range s.argN1).map fun k =>
      ⟨memByte s.mem (s.argN0 + 4 * k + 1) ++ memByte s.mem (s.argN0 + 4 * k),
       (memByte s.mem (s.argN0 + 4 * k + 2)).getLsbD 0⟩)) := by
  rw [execDecExecute, if_neg (ne_false_of_eq_true hactive), if_neg (Nat.not_lt.mpr hcount),
    if_neg (Nat.not_lt.mpr hrange), readEvents_of_le hrange]
  simp only [ofNat_leValue_pair]

/-- Settles O46, check by check. -/
theorem decExecuteAndDecEventRunOnePass : Obligations.DecExecuteAndDecEventRunOnePass := by
  unfold Obligations.DecExecuteAndDecEventRunOnePass
  refine ⟨⟨decode_encode .decExecute, fun dur lvl => decode_encode (.decEvent dur lvl)⟩, ?_⟩
  rintro s events dur lvl rfl
  cases hactive : s.dec.active with
  | false => exact ⟨if_pos hactive, if_pos hactive⟩
  | true =>
    have hchecked := ne_false_of_eq_true hactive
    refine ⟨?_, if_neg hchecked⟩
    rw [if_neg Bool.noConfusion]
    by_cases hcount : s.regs.arg1.toNat > s.cfg.frameChunkSize
    · rw [if_pos hcount]
      exact (if_neg hchecked).trans (if_pos hcount)
    by_cases hrange : s.regs.arg0.toNat + 4 * s.regs.arg1.toNat > s.cfg.memSize
    · rw [if_neg hcount, if_pos hrange]
      exact (if_neg hchecked).trans ((if_neg hcount).trans (if_pos hrange))
    · rw [if_neg hcount, if_neg hrange]
      exact execDecExecute_of_le hactive (Nat.not_lt.mp hcount) (Nat.not_lt.mp hrange)

/-! ### DEC_GET_DATA (R231) -/

theorem leBytes_half (v : Half) : leBytes 2 v.toNat = [v.extractLsb' 0 8, v.extractLsb' 8 8] := by
  have hlow : BitVec.ofNat 8 v.toNat = v.extractLsb' 0 8 := rfl
  have hhigh : BitVec.ofNat 8 (v.toNat / 256) = v.extractLsb' 8 8 := by
    apply BitVec.eq_of_toNat_eq
    simp [BitVec.extractLsb'_toNat, Nat.shiftRight_eq_div_pow]
  rw [leBytes, leBytes, leBytes, hlow, hhigh]

/-- A list of bytes stored in a range of MEM is there, and every byte outside the range is as it was. -/
theorem storeBytes_range {size a : Nat} {l : List Byte} (m : Memory) (h : a + l.length ≤ size) :
    ∃ m', storeBytes size (fun j => a + j) l 0 m = some m' ∧ memBytes m' a l.length = l
      ∧ ∀ x, (x < a ∨ a + l.length ≤ x) → memByte m' x = memByte m x := by
  obtain ⟨m', hm'⟩ := storeBytes_of_lt (size := size) (dst := fun j => a + j) (l := l) (j := 0) (m := m)
    fun k hk => by omega
  obtain ⟨-, -, hframe, hval⟩ := storeBytes_eq_some hm'
  simp only [Nat.zero_add] at hframe hval
  refine ⟨m', hm', List.ext_getElem (by simp [memBytes]) fun k _ hk => ?_,
    fun x hx => hframe x fun k hk => by omega⟩
  have hbyte := hval (fun i _ j _ he => Nat.add_left_cancel he) k hk
  simpa [memBytes, List.getD_eq_getElem, hk] using hbyte

theorem exec_decGetData_of_storeBytes {m : Memory} (h : s.argN0 + 8 ≤ s.cfg.memSize)
    (hstore : storeBytes s.cfg.memSize (fun j => s.argN0 + j) (tagBytes s.tag) 0 s.mem = some m) :
    exec .decGetData s = .next (State.succeed { s with mem := m } 0 0) := by
  rw [exec, execDecGetData, if_neg (Nat.not_lt.mpr h), hstore]

/-- Settles O47, by whether the destination is inside MEM. -/
theorem decGetDataWritesTheRecord : Obligations.DecGetDataWritesTheRecord := by
  unfold Obligations.DecGetDataWritesTheRecord
  refine ⟨decode_encode .decGetData, fun s => ⟨fun hout => if_pos hout, fun hle => ?_⟩⟩
  obtain ⟨m, hstore, hbytes, hframe⟩ := storeBytes_range (a := s.argN0) (l := tagBytes s.tag) s.mem hle
  rw [tagBytes, leBytes_half] at hbytes
  exact ⟨m, exec_decGetData_of_storeBytes hle hstore, hbytes, hframe⟩

end Sys2Proof.Machine
end

section
/-! The pass of the decoder as a run over pairs of entries (43_em4100.md R260, R261, R274, 44_h10301.md R297, R298,
R307): one loop for both protocol families, and the three ways in which it ends. -/

namespace Sys2Proof.Machine

/-! ### One valid pair -/

section takePair

variable {cfg : Config} {d e : Decoder} {x : Bool} {found : Option Tag}

/-- A pair taken leaves the protocol and its timing. -/
theorem Decoder.takePair_kept (h : d.takePair cfg x = (e, found)) : e.proto = d.proto ∧ e.halfUs = d.halfUs := by
  rw [Decoder.takePair] at h
  split at h
  · split at h <;> cases h <;> simp
  · cases h; simp

theorem Decoder.pairClass_takePair (h : d.takePair cfg x = (e, found)) : e.pairClass cfg = d.pairClass cfg := by
  obtain ⟨hproto, hhalfUs⟩ := Decoder.takePair_kept h
  funext a b
  rw [Decoder.pairClass, Decoder.pairClass, hproto, hhalfUs]

theorem Decoder.takePairs_cons (h : d.takePair cfg x = (e, none)) (xs : List Bool) :
    d.takePairs cfg (x :: xs) = e.takePairs cfg xs := by
  rw [Decoder.takePairs, h]

end takePair

/-! ### The loop of either protocol family -/

/-- The loop of a pass over the entries in the edge buffer (43_em4100.md R260, 44_h10301.md R297). -/
def Decoder.pass (cfg : Config) (d : Decoder) (es : List EdgeEvent) : Decoder × Option Tag :=
  if d.proto = .h10301 then h10Pass cfg d es else emPass cfg d es

section pass

variable {cfg : Config} {d e : Decoder} {a b : EdgeEvent} {rest : List EdgeEvent} {x : Bool}

/-- Fewer than two entries wait for the next pass. -/
theorem Decoder.pass_of_short {es : List EdgeEvent} (h : es.length < 2) :
    d.pass cfg es = ({ d with eb := es }, none) := by
  match es with
  | [] => rw [Decoder.pass, h10Pass, emPass, ite_self]
  | [a] => rw [Decoder.pass, h10Pass, emPass, ite_self]
  | _ :: _ :: _ => simp at h

theorem Decoder.pass_of_invalid (h : d.pairClass cfg a b = .invalid) :
    d.pass cfg (a :: b :: rest) =
      ({ d with bitCnt := 0, winLen := if d.proto = .h10301 then 0 else d.winLen, eb := b :: rest }, none) := by
  rw [Decoder.pairClass] at h
  by_cases hp : d.proto = .h10301
  · rw [if_pos hp] at h
    rw [Decoder.pass, if_pos hp, if_pos hp, h10Pass, h]
  · rw [if_neg hp] at h
    rw [Decoder.pass, if_neg hp, if_neg hp, emPass, h]

/-- A valid pair is taken; the loop goes on where it completes no frame (43_em4100.md R260, 44_h10301.md R297). -/
theorem Decoder.pass_of_bit (h : d.pairClass cfg a b = .bit x) :
    d.pass cfg (a :: b :: rest) =
      (d.takePair cfg x).2.elim ((d.takePair cfg x).1.pass cfg rest) fun tag =>
        ({ (d.takePair cfg x).1 with eb := rest }, some tag) := by
  have hproto : (d.takePair cfg x).1.proto = d.proto := (Decoder.takePair_kept rfl).1
  rw [Decoder.pass, Decoder.pass, hproto]
  rw [Decoder.pairClass] at h
  by_cases hp : d.proto = .h10301
  · simp only [if_pos hp, Decoder.takePair] at h ⊢
    simp only [h10Pass, h]
    cases (d.winPush x).winDetect cfg with
    | none => rfl
    | some y => dsimp only; split <;> rfl
  · simp only [if_neg hp, Decoder.takePair] at h ⊢
    simp only [emPass, h]
    split <;> rfl

end pass

/-! ### The three ends (42_decoder_port.md R234) -/

/-- How a pass ends that has taken `pairs`, left `rest` and answered `r`: too few entries, an invalid pair, or a frame
that the last pair taken completes. -/
inductive Decoder.PassEnds (cfg : Config) (d : Decoder) :
    List TakenPair → List EdgeEvent → Decoder × Option Tag → Prop where
  | short {pairs : List TakenPair} {rest : List EdgeEvent} {e : Decoder} (hrest : rest.length < 2)
      (htaken : d.takePairs cfg (pairs.map TakenPair.bit) = some e) :
      PassEnds cfg d pairs rest ({ e with eb := rest }, none)
  | invalid {pairs : List TakenPair} {a b : EdgeEvent} {more : List EdgeEvent} {e : Decoder}
      (hclass : d.pairClass cfg a b = .invalid) (htaken : d.takePairs cfg (pairs.map TakenPair.bit) = some e) :
      PassEnds cfg d pairs (a :: b :: more)
        ({ e with bitCnt := 0, winLen := if d.proto = .h10301 then 0 else e.winLen, eb := b :: more }, none)
  | found {before : List TakenPair} {p : TakenPair} {rest : List EdgeEvent} {e f : Decoder} {tag : Tag}
      (htaken : d.takePairs cfg (before.map TakenPair.bit) = some e) (hframe : e.takePair cfg p.bit = (f, some tag)) :
      PassEnds cfg d (before ++ [p]) rest ({ f with eb := rest }, some tag)

/-- A pair taken first, that completes no frame, does not change how the pass ends. -/
theorem Decoder.PassEnds.cons {cfg : Config} {d e : Decoder} {p : TakenPair} {pairs : List TakenPair}
    {rest : List EdgeEvent} {r : Decoder × Option Tag} (htake : d.takePair cfg p.bit = (e, none))
    (h : e.PassEnds cfg pairs rest r) : d.PassEnds cfg (p :: pairs) rest r := by
  cases h with
  | short hrest htaken => exact .short hrest ((Decoder.takePairs_cons htake _).trans htaken)
  | invalid hclass htaken =>
    rw [Decoder.pairClass_takePair htake] at hclass
    rw [(Decoder.takePair_kept htake).1]
    exact .invalid hclass ((Decoder.takePairs_cons htake _).trans htaken)
  | found htaken hframe => exact .found (before := p :: _) ((Decoder.takePairs_cons htake _).trans htaken) hframe

/-- The loop splits its entries into the whole pairs it takes and the rest, two entries at a time. -/
theorem Decoder.exists_passEnds (cfg : Config) (d : Decoder) (es : List EdgeEvent) :
    ∃ (pairs : List TakenPair) (rest : List EdgeEvent),
      es = pairs.flatMap (fun p => [p.first, p.second]) ++ rest
      ∧ (∀ p ∈ pairs, d.pairClass cfg p.first p.second = .bit p.bit) ∧ d.PassEnds cfg pairs rest (d.pass cfg es) := by
  induction es using List.twoStepInduction generalizing d with
  | nil => exact ⟨[], [], rfl, by simp, Decoder.pass_of_short (es := []) Nat.two_pos ▸ .short Nat.two_pos rfl⟩
  | singleton a =>
    exact ⟨[], [a], rfl, by simp, Decoder.pass_of_short (es := [a]) Nat.one_lt_two ▸ .short Nat.one_lt_two rfl⟩
  | cons_cons a b rest ih _ =>
    cases hclass : d.pairClass cfg a b with
    | invalid => exact ⟨[], a :: b :: rest, rfl, by simp, Decoder.pass_of_invalid hclass ▸ .invalid hclass rfl⟩
    | bit x =>
      rw [Decoder.pass_of_bit hclass]
      rcases htake : d.takePair cfg x with ⟨e, _ | tag⟩
      · obtain ⟨pairs, left, rfl, hvalid, hends⟩ := ih e
        rw [Decoder.pairClass_takePair htake] at hvalid
        exact ⟨⟨a, b, x⟩ :: pairs, left, rfl, List.forall_mem_cons.mpr ⟨hclass, hvalid⟩, hends.cons htake⟩
      · exact ⟨[⟨a, b, x⟩], rest, rfl, by simpa using hclass, .found (before := []) rfl htake⟩

/-! ### The whole pass -/

theorem passEntries_eq_ite (cfg : Config) (d : Decoder) (ev : List EdgeEvent) :
    passEntries cfg d ev = if d.proto = .h10301 then ev else ev.flatMap (emNormalise cfg d.halfUs) := by
  rw [passEntries]
  cases d.proto <;> rfl

/-- Settles O49: the entries overflow the edge buffer, or the loop splits them. -/
theorem passConservesTheEdges : Obligations.PassConservesTheEdges := by
  unfold Obligations.PassConservesTheEdges
  intro cfg d ev entries hbuf hentries
  rw [← passEntries_eq_ite] at hentries
  subst hentries
  rw [List.length_append]
  rcases decExecutePass_cases cfg d ev hbuf with ⟨hover, hreset⟩ | ⟨hfit, hpass⟩
  · exact ⟨fun hfit => absurd hover (Nat.not_lt.mpr hfit), fun _ => hreset⟩
  refine ⟨fun _ => ?_, fun hover => absurd hover (Nat.not_lt.mpr hfit)⟩
  obtain ⟨pairs, rest, hsplit, hvalid, hends⟩ := d.exists_passEnds cfg (d.eb ++ passEntries cfg d ev)
  rw [Decoder.pass, ← hpass] at hends
  generalize decExecutePass cfg d ev = r at hends ⊢
  cases hends with
  | short hrest htaken => exact ⟨pairs, rest, _, hsplit, hvalid, .inl ⟨hrest, htaken, rfl⟩⟩
  | invalid hclass htaken =>
    exact ⟨pairs, _, _, hsplit, hvalid, .inr (.inl ⟨_, _, _, rfl, hclass, htaken, rfl⟩)⟩
  | found htaken hframe =>
    exact ⟨_, rest, _, hsplit, hvalid, .inr (.inr ⟨_, _, _, _, rfl, htaken, hframe, rfl⟩)⟩

end Sys2Proof.Machine
end

section
/-! The EM4100 classifier (43_em4100.md R252 to R258): the windows as linear inequalities, the class of a pair, and the
invalid pair at the head of a pass of either protocol family (R261, 44_h10301.md R291, R298). -/

namespace Sys2Proof.Machine

/-! ### The windows (R252) -/

theorem absDiff_mul_le_iff {a b m : Nat} :
    absDiff a b * 100 ≤ m ↔ 100 * b ≤ 100 * a + m ∧ 100 * a ≤ 100 * b + m := by
  unfold absDiff
  split <;> omega

section windows

variable {cfg : Config} {h : Nat}

theorem inHalf_iff {d : Nat} :
    inHalf cfg h d = true ↔
      100 * h ≤ 100 * d + cfg.emTolHalfPct * h ∧ 100 * d ≤ 100 * h + cfg.emTolHalfPct * h := by
  rw [inHalf, decide_eq_true_iff, absDiff_mul_le_iff]

theorem inFull_iff {d : Nat} :
    inFull cfg h d = true ↔
      200 * h ≤ 100 * d + 2 * (cfg.emTolHalfPct * h) ∧ 100 * d ≤ 200 * h + 2 * (cfg.emTolHalfPct * h) := by
  rw [inFull, decide_eq_true_iff, absDiff_mul_le_iff, Nat.mul_left_comm cfg.emTolHalfPct]
  omega

theorem inPair_iff {s : Nat} :
    inPair cfg h s = true ↔
      200 * h ≤ 100 * s + 2 * (cfg.emTolPairPct * h) ∧ 100 * s ≤ 200 * h + 2 * (cfg.emTolPairPct * h) := by
  rw [inPair, decide_eq_true_iff, absDiff_mul_le_iff, Nat.mul_left_comm cfg.emTolPairPct]
  omega

/-- The half-bit tolerance is between 25% and 33% (00_scope.md R8). -/
theorem Config.emTolHalfPct_mul_bounds (hcfg : cfg.wellFormed = true) (h : Nat) :
    25 * h ≤ cfg.emTolHalfPct * h ∧ cfg.emTolHalfPct * h ≤ 33 * h := by
  simp only [Config.wellFormed, Bool.and_eq_true, decide_eq_true_eq] at hcfg
  exact ⟨Nat.mul_le_mul_right h (by omega), Nat.mul_le_mul_right h (by omega)⟩

/-- R253: a half-bit is at most `1.33·H`, a full-bit at least `1.34·H`. -/
theorem not_inFull_of_inHalf (hcfg : cfg.wellFormed = true) (hpos : 0 < h) {d : Nat} (hd : inHalf cfg h d = true) :
    ¬ inFull cfg h d = true := by
  have htol := Config.emTolHalfPct_mul_bounds hcfg h
  rw [inHalf_iff] at hd
  rw [inFull_iff]
  omega

/-- R258: the deviations of the two halves add up to at most twice the half-bit tolerance. -/
theorem inPair_add (htol : cfg.emTolHalfPct ≤ cfg.emTolPairPct) {a b : Nat} (ha : inHalf cfg h a = true)
    (hb : inHalf cfg h b = true) : inPair cfg h (a + b) = true := by
  have hle : cfg.emTolHalfPct * h ≤ cfg.emTolPairPct * h := Nat.mul_le_mul_right h htol
  rw [inHalf_iff] at ha hb
  rw [inPair_iff]
  omega

end windows

/-- Settles O51: the windows do not meet, and the combined check adds nothing. -/
theorem emWindowsAreDisjoint : Obligations.EmWindowsAreDisjoint := by
  unfold Obligations.EmWindowsAreDisjoint
  intro cfg h a b hcfg hpos
  exact ⟨fun ⟨hhalf, hfull⟩ => not_inFull_of_inHalf hcfg hpos hhalf hfull, fun htol => inPair_add htol⟩

/-! ### The class of a pair (R257) -/

section classify

variable {cfg : Config} {h : Half} {a b : EdgeEvent}

theorem emClassify_of_not_inHalf
    (hout : ¬ inHalf cfg h.toNat a.dur.toNat = true ∨ ¬ inHalf cfg h.toNat b.dur.toNat = true) :
    emClassify cfg h a b = .invalid := by
  rw [emClassify, if_pos hout]

theorem emClassify_of_level_eq (hlevel : a.level = b.level) : emClassify cfg h a b = .invalid := by
  rw [emClassify, hlevel]
  cases b.level <;> simp

theorem emClassify_of_level_ne (ha : inHalf cfg h.toNat a.dur.toNat = true) (hb : inHalf cfg h.toNat b.dur.toNat = true)
    (hab : inPair cfg h.toNat (a.dur.toNat + b.dur.toNat) = true) (hlevel : a.level ≠ b.level) :
    emClassify cfg h a b = .bit b.level := by
  have ha' : a.level = !b.level := Bool.eq_not_of_ne hlevel
  rw [emClassify, ha']
  cases b.level <;> simp [ha, hb, hab]

/-- R254: 25% off is within every tolerance in range. -/
theorem inHalf_of_within_quarter (hcfg : cfg.wellFormed = true) {n d : Nat} (hd : 4 * absDiff d n ≤ n) :
    inHalf cfg n d = true := by
  have htol := Config.emTolHalfPct_mul_bounds hcfg n
  rw [inHalf, decide_eq_true_iff]
  omega

/-- R254: 60% short is outside every tolerance in range. -/
theorem not_inHalf_of_short (hcfg : cfg.wellFormed = true) {n d : Nat} (hpos : 0 < n) (hd : 10 * d ≤ 4 * n) :
    ¬ inHalf cfg n d = true := by
  have htol := Config.emTolHalfPct_mul_bounds hcfg n
  rw [inHalf_iff]
  omega

end classify

/-- Settles O52: 25% off is within the window of a half-bit, 60% short is not. -/
theorem emClassifiesWithinTwentyFivePerCent : Obligations.EmClassifiesWithinTwentyFivePerCent := by
  unfold Obligations.EmClassifiesWithinTwentyFivePerCent
  intro cfg h a b hcfg htol hpos
  refine ⟨fun ha hb hlevel => ?_, fun hshort => ?_⟩
  · have ha' := inHalf_of_within_quarter hcfg ha
    have hb' := inHalf_of_within_quarter hcfg hb
    exact emClassify_of_level_ne ha' hb' (inPair_add htol ha' hb') hlevel
  · exact emClassify_of_not_inHalf (hshort.imp (not_inHalf_of_short hcfg hpos) (not_inHalf_of_short hcfg hpos))

/-! ### The invalid pair (R261, 44_h10301.md R291, R298) -/

theorem h10Symbol_of_level_eq {cfg : Config} {a b : EdgeEvent} (hlevel : a.level = b.level) :
    h10Symbol cfg a b = .invalid := by
  rw [h10Symbol, if_pos hlevel]

/-- Settles O50: both loops stop at an invalid pair, and equal levels make one. -/
theorem invalidPairDropsOneEntry : Obligations.InvalidPairDropsOneEntry := by
  unfold Obligations.InvalidPairDropsOneEntry
  intro cfg d a b rest
  refine ⟨fun hem => ?_, fun hh10 => ?_, fun hlevel => ⟨emClassify_of_level_eq hlevel, h10Symbol_of_level_eq hlevel⟩⟩
  · rw [emPass, hem]
  · rw [h10Pass, hh10]

end Sys2Proof.Machine
end

section
/-! The frame of EM4100 (43_em4100.md R270 to R275, R279): what inverting one frame bit does to the parities, and what
each frame bit of `EmPack` is. -/

namespace Sys2Proof.Machine

/-! ### The bits of a frame value -/

theorem getMsbD_bitsBE {n p : Nat} (f : Nat → Bool) (hp : p < n) : (bitsBE n f).getMsbD p = f p := by
  induction n generalizing f p with
  | zero => omega
  | succ n ih =>
    rw [bitsBE, BitVec.cons, BitVec.getMsbD_cast, BitVec.getMsbD_append]
    cases p with
    | zero => simp
    | succ p => simpa using ih (fun j => f (j + 1)) (Nat.lt_of_succ_lt_succ hp)

theorem emValid_iff {v : BitVec 64} :
    emValid v = true ↔
      (∀ p < 9, v.getMsbD p = true) ∧ (∀ r < 10, xorAt v (emRow r) = false)
      ∧ (∀ c < 4, xorAt v (emColumn c) = false) ∧ v.getMsbD 63 = false := by
  simp [emValid, and_assoc]

/-! ### One bit inverted (R275) -/

/-- The frame value with the bit at position `p` inverted. -/
def flipBit {n : Nat} (v : BitVec n) (p : Nat) : BitVec n := v ^^^ (1#n <<< (n - 1 - p))

theorem getMsbD_flipBit {n p q : Nat} (v : BitVec n) (hp : p < n) (hq : q < n) :
    (flipBit v p).getMsbD q = (v.getMsbD q ^^ decide (p = q)) := by
  rw [flipBit, BitVec.getMsbD_xor, BitVec.getMsbD_shiftLeft, BitVec.getMsbD_one, decide_eq_true (show 0 < n by omega),
    Bool.and_true, decide_eq_decide.mpr (show q + (n - 1 - p) = n - 1 ↔ p = q by omega)]

theorem foldl_xor_init {α : Type} (f : α → Bool) (init : Bool) (l : List α) :
    l.foldl (fun acc x => acc ^^ f x) init = (init ^^ l.foldl (fun acc x => acc ^^ f x) false) := by
  induction l generalizing init with
  | nil => simp
  | cons x xs ih => rw [List.foldl_cons, List.foldl_cons, ih, ih (false ^^ f x), Bool.false_xor, Bool.xor_assoc]

theorem xorAt_cons {n : Nat} (v : BitVec n) (p : Nat) (ps : List Nat) :
    xorAt v (p :: ps) = (v.getMsbD p ^^ xorAt v ps) := by
  rw [xorAt, List.foldl_cons, foldl_xor_init, Bool.false_xor, xorAt]

theorem xorAt_append_singleton {n : Nat} (v : BitVec n) (ps : List Nat) (p : Nat) :
    xorAt v (ps ++ [p]) = (xorAt v ps ^^ v.getMsbD p) :=
  List.foldl_concat _ _ _ _

/-- A parity changes with the bit inverted once for each time it counts it. -/
theorem xorAt_flipBit {n p : Nat} (v : BitVec n) (hp : p < n) {ps : List Nat} (hps : ∀ q ∈ ps, q < n) :
    xorAt (flipBit v p) ps = (xorAt v ps ^^ (ps.count p).bodd) := by
  induction ps with
  | nil => simp [xorAt]
  | cons q qs ih =>
    obtain ⟨hq, hqs⟩ := List.forall_mem_cons.mp hps
    rw [xorAt_cons, xorAt_cons, getMsbD_flipBit v hp hq, ih hqs, List.count_cons]
    by_cases hpq : p = q
    · simp [hpq]
    · simp [hpq, Ne.symm hpq]

/-- A parity that counts the bit inverted once no longer is even. -/
theorem xorAt_flipBit_of_mem {n p : Nat} {v : BitVec n} {ps : List Nat} (hp : p ∈ ps) (hnodup : ps.Nodup)
    (hps : ∀ q ∈ ps, q < n) (heven : xorAt v ps = false) : xorAt (flipBit v p) ps = true := by
  rw [xorAt_flipBit v (hps p hp) hps, heven, List.count_eq_one_of_mem hnodup hp]
  rfl

theorem emRow_positions : ∀ r < 10, (emRow r).Nodup ∧ ∀ q ∈ emRow r, q < 64 := by decide

theorem emColumn_positions : ∀ c < 4, (emColumn c).Nodup ∧ ∀ q ∈ emColumn c, q < 64 := by decide

theorem mem_emRow {p : Nat} (h : 9 ≤ p) : p ∈ emRow ((p - 9) / 5) :=
  List.mem_map.mpr ⟨(p - 9) % 5, List.mem_range.mpr (by omega), by omega⟩

theorem mem_emColumn {p : Nat} (h : 59 ≤ p) : p ∈ emColumn (p - 59) :=
  List.mem_append_right _ (List.mem_singleton.mpr (by omega))

/-- Settles O53, by what the inverted bit belongs to: the preamble, a row, the column parities, or the stop bit. -/
theorem emParityRejectsAnySingleBitFlip : Obligations.EmParityRejectsAnySingleBitFlip := by
  unfold Obligations.EmParityRejectsAnySingleBitFlip
  intro v p hp hvalid
  obtain ⟨hpreamble, hrows, hcolumns, hstop⟩ := emValid_iff.mp hvalid
  change emValid (flipBit v p) = false
  refine Bool.eq_false_iff.mpr fun hflip => ?_
  obtain ⟨hpreamble', hrows', hcolumns', hstop'⟩ := emValid_iff.mp hflip
  rcases Nat.lt_or_ge p 9 with h9 | h9
  · simpa [getMsbD_flipBit v hp hp, hpreamble p h9] using hpreamble' p h9
  rcases Nat.lt_or_ge p 59 with h59 | h59
  · have hr : (p - 9) / 5 < 10 := by omega
    obtain ⟨hnodup, hrange⟩ := emRow_positions _ hr
    exact absurd (xorAt_flipBit_of_mem (mem_emRow h9) hnodup hrange (hrows _ hr)) (by simp [hrows' _ hr])
  rcases Nat.lt_or_ge p 63 with h63 | h63
  · have hc : p - 59 < 4 := by omega
    obtain ⟨hnodup, hrange⟩ := emColumn_positions _ hc
    exact absurd (xorAt_flipBit_of_mem (mem_emColumn h59) hnodup hrange (hcolumns _ hc)) (by simp [hcolumns' _ hc])
  · obtain rfl : p = 63 := by omega
    simp [getMsbD_flipBit v hp hp, hstop] at hstop'

/-! ### The frame of a UID (R270, R279) -/

theorem length_flatMap_range {α : Type} {k : Nat} {f : Nat → List α} (hf : ∀ r, (f r).length = k) (n : Nat) :
    ((List.range n).flatMap f).length = k * n := by
  simp [List.length_flatMap, hf, Nat.mul_comm]

/-- Where every piece has the same length, each is found at its multiple. -/
theorem getD_flatMap_range {α : Type} {k n r c : Nat} {f : Nat → List α} (hf : ∀ r, (f r).length = k) (hr : r < n)
    (hc : c < k) (dflt : α) : ((List.range n).flatMap f).getD (k * r + c) dflt = (f r).getD c dflt := by
  induction n with
  | zero => omega
  | succ n ih =>
    rw [List.range_succ, List.flatMap_append, List.flatMap_singleton]
    have hlen := length_flatMap_range hf n
    rcases Nat.lt_succ_iff_lt_or_eq.mp hr with hlt | rfl
    · have hle : k * (r + 1) ≤ k * n := Nat.mul_le_mul_left k hlt
      rw [List.getD_append _ _ _ _ (by rw [Nat.mul_succ] at hle; omega), ih hlt]
    · rw [List.getD_append_right _ _ _ _ (by omega), hlen, Nat.add_sub_cancel_left]

/-- Row `r` of the frame of a UID: the nibble and its parity. -/
def uidRow (uid : List Byte) (r : Nat) : List Bool :=
  [uidBit uid r 0, uidBit uid r 1, uidBit uid r 2, uidBit uid r 3,
   uidBit uid r 0 ^^ uidBit uid r 1 ^^ uidBit uid r 2 ^^ uidBit uid r 3]

/-- The parity of column `c` of the ten rows of a UID. -/
def uidColumnParity (uid : List Byte) (c : Nat) : Bool :=
  (List.range 10).foldl (fun acc r => acc ^^ uidBit uid r c) false

theorem emPackBits_eq (uid : List Byte) :
    emPackBits uid =
      List.replicate 9 true
        ++ ((List.range 10).flatMap (uidRow uid) ++ ((List.range 4).map (uidColumnParity uid) ++ [false])) := by
  rw [← List.append_assoc, ← List.append_assoc]
  rfl

theorem emPackBits_length (uid : List Byte) : (emPackBits uid).length = 64 := rfl

section emPack

variable (uid : List Byte)

theorem getMsbD_emPack {p : Nat} (hp : p < 64) : (emPack uid).getMsbD p = (emPackBits uid).getD p false :=
  getMsbD_bitsBE _ hp

theorem getMsbD_emPack_preamble {p : Nat} (hp : p < 9) : (emPack uid).getMsbD p = true := by
  rw [getMsbD_emPack uid (by omega), emPackBits_eq, List.getD_append _ _ _ _ (by simpa using hp), List.getD_replicate _ hp]

theorem getMsbD_emPack_row {r c : Nat} (hr : r < 10) (hc : c < 5) :
    (emPack uid).getMsbD (9 + 5 * r + c) = (uidRow uid r).getD c false := by
  have hlen := length_flatMap_range (f := uidRow uid) (k := 5) (fun _ => rfl) 10
  rw [getMsbD_emPack uid (by omega), emPackBits_eq, List.getD_append_right _ _ _ _ (by simp; omega),
    List.getD_append _ _ _ _ (by simp only [List.length_replicate]; omega), List.length_replicate, Nat.add_assoc,
    Nat.add_sub_cancel_left, getD_flatMap_range (f := uidRow uid) (fun _ => rfl) hr hc]

theorem getMsbD_emPack_data {r c : Nat} (hr : r < 10) (hc : c < 4) :
    (emPack uid).getMsbD (9 + 5 * r + c) = uidBit uid r c := by
  rw [getMsbD_emPack_row uid hr (by omega)]
  match c, hc with
  | 0, _ | 1, _ | 2, _ | 3, _ => rfl

theorem getMsbD_emPack_columnParity {c : Nat} (hc : c < 4) : (emPack uid).getMsbD (59 + c) = uidColumnParity uid c := by
  rw [getMsbD_emPack uid (by omega)]
  match c, hc with
  | 0, _ | 1, _ | 2, _ | 3, _ => rfl

theorem getMsbD_emPack_stop : (emPack uid).getMsbD 63 = false :=
  getMsbD_emPack uid (by omega)

theorem xorAt_emPack_row {r : Nat} (hr : r < 10) : xorAt (emPack uid) (emRow r) = false := by
  have hbit : ∀ c ∈ List.range 5, (emPack uid).getMsbD (9 + 5 * r + c) = (uidRow uid r).getD c false :=
    fun c hc => getMsbD_emPack_row uid hr (List.mem_range.mp hc)
  rw [xorAt, emRow, List.foldl_map, List.foldl_ext _ _ _ fun acc c hc => by rw [hbit c hc]]
  simp [List.range_succ, uidRow]

theorem xorAt_emPack_column {c : Nat} (hc : c < 4) : xorAt (emPack uid) (emColumn c) = false := by
  have hdata : xorAt (emPack uid) ((List.range 10).map fun r => 9 + 5 * r + c) = uidColumnParity uid c := by
    rw [xorAt, List.foldl_map]
    exact List.foldl_ext _ _ _ fun acc r hr => by rw [getMsbD_emPack_data uid (List.mem_range.mp hr) hc]
  rw [emColumn, xorAt_append_singleton, hdata, getMsbD_emPack_columnParity uid hc, Bool.xor_self]

theorem emValid_emPack : emValid (emPack uid) = true :=
  emValid_iff.mpr ⟨fun _ hp => getMsbD_emPack_preamble uid hp, fun _ hr => xorAt_emPack_row uid hr,
    fun _ hc => xorAt_emPack_column uid hc, getMsbD_emPack_stop uid⟩

/-- R272: payload bit `8k + j` is bit `j` from the top of byte `k`. -/
theorem emUidByte_emPack {k : Nat} (hk : k < 5) : emUidByte (emPack uid) k = uid.getD k 0 := by
  refine BitVec.eq_of_getMsbD_eq fun j hj => ?_
  rw [emUidByte, getMsbD_bitsBE _ hj, Nat.mul_comm, getMsbD_emPack_data uid (by omega) (by omega), uidBit]
  congr 2 <;> omega

end emPack

theorem emTag_emPack (u0 u1 u2 u3 u4 : Byte) (h : Half) :
    emTag (emPack [u0, u1, u2, u3, u4]) h =
      { uid0 := u0, uid1 := u1, uid2 := u2, uid3 := u3, uid4 := u4, bitrate := BitVec.ofNat 16 (h.toNat / 4) } := by
  simp [emTag, emUidByte_emPack]

/-- Settles O54: the frame is valid, and its payload is the UID. -/
theorem emPackRoundTrips : Obligations.EmPackRoundTrips := by
  unfold Obligations.EmPackRoundTrips
  intro u0 u1 u2 u3 u4 h
  exact ⟨emValid_emPack _, emTag_emPack u0 u1 u2 u3 u4 h⟩

end Sys2Proof.Machine
end

section
/-! The round trip of EM4100 (43_em4100.md R280, R281): the events of a wave read from the left, the decoder that takes
them one a pass, and the frame that the bits of a wave make up. -/

namespace Sys2Proof.Machine

/-! ### The events of a wave, from the left (R280) -/

section wave

variable {l l' : Bool} {d d' : Nat} {rest : List (Bool × Nat)}

theorem exists_mergeRuns_cons (l : Bool) (d : Nat) (rest : List (Bool × Nat)) :
    ∃ n more, mergeRuns ((l, d) :: rest) = (l, n) :: more := by
  rw [mergeRuns]
  split
  · exact ⟨d, [], rfl⟩
  · split <;> exact ⟨_, _, rfl⟩

/-- Two pieces of one level are one piece of the sum. -/
theorem mergeRuns_of_eq : mergeRuns ((l, d) :: (l, d') :: rest) = mergeRuns ((l, d + d') :: rest) := by
  simp only [mergeRuns]
  cases mergeRuns rest with
  | nil => simp
  | cons run more =>
    obtain ⟨k, n⟩ := run
    by_cases hk : l = k
    · simp [hk, Nat.add_assoc]
    · simp [hk]

/-- A piece before one of the other level is a run of its own. -/
theorem mergeRuns_of_ne (h : l ≠ l') :
    mergeRuns ((l, d) :: (l', d') :: rest) = (l, d) :: mergeRuns ((l', d') :: rest) := by
  obtain ⟨n, more, hrun⟩ := exists_mergeRuns_cons l' d' rest
  rw [mergeRuns, hrun]
  exact if_neg h

theorem waveToEvents_of_eq : waveToEvents ((l, d) :: (l, d') :: rest) = waveToEvents ((l, d + d') :: rest) := by
  rw [waveToEvents, mergeRuns_of_eq, waveToEvents]

theorem waveToEvents_of_ne (h : l ≠ l') :
    waveToEvents ((l, d) :: (l', d') :: rest) = ⟨BitVec.ofNat 16 d, l'⟩ :: waveToEvents ((l', d') :: rest) := by
  obtain ⟨n, more, hrun⟩ := exists_mergeRuns_cons l' d' rest
  rw [waveToEvents, mergeRuns_of_ne h, waveToEvents, hrun, runEvents]

end wave

/-- What is left of a frame's wave from the second half of the bit `b` on, with the LOW half-bit after the frame. -/
def waveFrom (b : Bool) (bs : List Bool) (h : Nat) : List (Bool × Nat) := (!b, h) :: (emWave bs h ++ [(false, h)])

section waveFrom

variable (b : Bool) (bs : List Bool) (h : Nat)

theorem emWave_cons : emWave (b :: bs) h = (b, h) :: (!b, h) :: emWave bs h := rfl

theorem waveToEvents_waveFrom_stop : waveToEvents (waveFrom false [] h) = [⟨BitVec.ofNat 16 h, false⟩] := rfl

/-- Between two equal bits the level changes: two half-bits. -/
theorem waveToEvents_waveFrom_eq :
    waveToEvents (waveFrom b (b :: bs) h) =
      ⟨BitVec.ofNat 16 h, b⟩ :: ⟨BitVec.ofNat 16 h, !b⟩ :: waveToEvents (waveFrom b bs h) := by
  simp only [waveFrom, emWave_cons, List.cons_append]
  rw [waveToEvents_of_ne (Bool.not_ne_self b), waveToEvents_of_ne (Bool.self_ne_not b)]

/-- Between two different bits the level stays: one full-bit. -/
theorem waveToEvents_waveFrom_ne :
    waveToEvents (waveFrom b ((!b) :: bs) h) = ⟨BitVec.ofNat 16 (2 * h), b⟩ :: waveToEvents (waveFrom (!b) bs h) := by
  simp only [waveFrom, emWave_cons, List.cons_append, Bool.not_not]
  rw [waveToEvents_of_eq, waveToEvents_of_ne (Bool.not_ne_self b), Nat.two_mul]

end waveFrom

/-! ### One event a pass (R255, R260, R261) -/

theorem inHalf_self (cfg : Config) (h : Nat) : inHalf cfg h h = true := by
  rw [inHalf_iff]
  omega

theorem inPair_self (cfg : Config) (h : Nat) : inPair cfg h (h + h) = true := by
  rw [inPair_iff]
  omega

theorem ofNat_toNat_half (h : Half) : BitVec.ofNat 16 h.toNat = h := by simp

theorem toNat_ofNat_half {n : Nat} (hn : n < 65536) : (BitVec.ofNat 16 n).toNat = n := by
  rw [BitVec.toNat_ofNat]
  omega

/-- A decoder of EM4100 with the parameters in range: its edge buffer holds three entries, and two half-bits fit a
duration. -/
structure Decoder.EmReady (cfg : Config) (d : Decoder) : Prop where
  cfg_wf : cfg.wellFormed = true
  proto_ne : d.proto ≠ .h10301
  halfUs_pos : 0 < d.halfUs.toNat
  halfUs_le : d.halfUs.toNat ≤ 16383

theorem Decoder.EmReady.of_begun {cfg : Config} {d : Decoder} (hcfg : cfg.wellFormed = true) (hproto : d.proto ≠ .h10301)
    (hhalf : d.halfUs.toNat = protoHalfUs cfg d.proto) : d.EmReady cfg := by
  have hrange : 0 < protoHalfUs cfg d.proto ∧ protoHalfUs cfg d.proto ≤ 16383 := by
    simp only [Config.wellFormed, Bool.and_eq_true, decide_eq_true_eq] at hcfg
    cases hp : d.proto with
    | h10301 => exact absurd hp hproto
    | _ => simp only [protoHalfUs]; omega
  exact ⟨hcfg, hproto, hhalf ▸ hrange.1, hhalf ▸ hrange.2⟩

/-- The decoder after a bit, with the entries that are left. -/
def Decoder.afterBit (d : Decoder) (b : Bool) (eb : List EdgeEvent) : Decoder := { d.shiftIn64 b with eb := eb }

section passes

variable {cfg : Config} {d : Decoder} (hd : d.EmReady cfg) {e : EdgeEvent}
include hd

theorem Decoder.EmReady.of_eq {d' : Decoder} (hproto : d'.proto = d.proto) (hhalf : d'.halfUs = d.halfUs) :
    d'.EmReady cfg :=
  ⟨hd.cfg_wf, hproto ▸ hd.proto_ne, hhalf ▸ hd.halfUs_pos, hhalf ▸ hd.halfUs_le⟩

theorem Decoder.EmReady.emNormalise_half (l : Bool) : emNormalise cfg d.halfUs ⟨d.halfUs, l⟩ = [⟨d.halfUs, l⟩] := by
  rw [emNormalise, if_neg (not_inFull_of_inHalf hd.cfg_wf hd.halfUs_pos (inHalf_self ..))]

/-- In either form of `EM_SPLIT` a nominal full-bit is two nominal half-bits. -/
theorem Decoder.EmReady.emNormalise_full (l : Bool) :
    emNormalise cfg d.halfUs ⟨BitVec.ofNat 16 (2 * d.halfUs.toNat), l⟩ = [⟨d.halfUs, l⟩, ⟨d.halfUs, l⟩] := by
  have hle := hd.halfUs_le
  have hdur : (BitVec.ofNat 16 (2 * d.halfUs.toNat)).toNat = 2 * d.halfUs.toNat :=
    toNat_ofNat_half (by omega)
  have hfull : inFull cfg d.halfUs.toNat (2 * d.halfUs.toNat) = true := by
    rw [inFull_iff]
    omega
  rw [emNormalise, hdur, if_pos hfull]
  cases cfg.emSplit with
  | nominal => rfl
  | halved => simp [show 2 * d.halfUs.toNat - d.halfUs.toNat = d.halfUs.toNat by omega]

/-- The entries of one event fit beside an entry that waits. -/
theorem Decoder.EmReady.decExecutePass_single (heb : d.eb.length ≤ 1) :
    decExecutePass cfg d [e] = d.pass cfg (d.eb ++ emNormalise cfg d.halfUs e) := by
  have hbuf : 3 ≤ cfg.edgeBufLen := by
    have hcfg := hd.cfg_wf
    simp only [Config.wellFormed, Bool.and_eq_true, decide_eq_true_eq] at hcfg
    omega
  have hlen : (emNormalise cfg d.halfUs e).length ≤ 2 := by
    rw [emNormalise]
    split
    · split <;> simp
    · simp
  have hentries : passEntries cfg d [e] = emNormalise cfg d.halfUs e := by
    rw [passEntries_eq_ite, if_neg hd.proto_ne, List.flatMap_singleton]
  rcases decExecutePass_cases cfg d [e] (by omega) with ⟨hover, -⟩ | ⟨-, hpass⟩
  · rw [hentries] at hover
    omega
  · rw [hpass, hentries, Decoder.pass]

/-- The first half of a bit waits for the second. -/
theorem Decoder.EmReady.pass_firstHalf (heb : d.eb = []) (hnorm : emNormalise cfg d.halfUs e = [e]) :
    decExecutePass cfg d [e] = ({ d with eb := [e] }, none) := by
  rw [hd.decExecutePass_single (by simp [heb]), heb, hnorm]
  exact Decoder.pass_of_short (by simp)

theorem Decoder.EmReady.pairClass_halves (b : Bool) : d.pairClass cfg ⟨d.halfUs, !b⟩ ⟨d.halfUs, b⟩ = .bit b := by
  rw [Decoder.pairClass, if_neg hd.proto_ne]
  exact emClassify_of_level_ne (inHalf_self ..) (inHalf_self ..) (inPair_self ..) (Bool.not_ne_self b)

theorem Decoder.EmReady.takePair_eq (b : Bool) :
    d.takePair cfg b =
      (d.shiftIn64 b,
        if min (d.bitCnt + 1) 64 = 64 ∧ emValid (shiftInBit d.frame64 b) = true then
          some (emTag (shiftInBit d.frame64 b) d.halfUs) else none) := by
  rw [Decoder.takePair, if_neg hd.proto_ne]
  simp only [Decoder.frame64_shiftIn64, Decoder.shiftIn64_bitCnt, Decoder.shiftIn64_halfUs]

/-- The second half of a bit completes it; at most one entry is left. -/
theorem Decoder.EmReady.pass_secondHalf {b : Bool} {rest : List EdgeEvent} (heb : d.eb = [⟨d.halfUs, !b⟩])
    (hnorm : emNormalise cfg d.halfUs e = ⟨d.halfUs, b⟩ :: rest) (hrest : rest.length < 2) :
    decExecutePass cfg d [e] = (d.afterBit b rest, (d.takePair cfg b).2) := by
  rw [hd.decExecutePass_single (by simp [heb]), heb, hnorm, List.singleton_append,
    Decoder.pass_of_bit (hd.pairClass_halves b), Decoder.pass_of_short hrest, hd.takePair_eq b]
  split <;> rfl

/-- An entry that is no half-bit is dropped when the next one comes, which waits in its place. -/
theorem Decoder.EmReady.pass_invalid (heb : d.eb = [e]) (hout : ¬ inHalf cfg d.halfUs.toNat e.dur.toNat = true)
    (l : Bool) :
    decExecutePass cfg d [⟨d.halfUs, l⟩] = ({ d with bitCnt := 0, eb := [⟨d.halfUs, l⟩] }, none) := by
  have hclass : d.pairClass cfg e ⟨d.halfUs, l⟩ = .invalid := by
    rw [Decoder.pairClass, if_neg hd.proto_ne]
    exact emClassify_of_not_inHalf (.inl hout)
  rw [hd.decExecutePass_single (by simp [heb]), heb, hd.emNormalise_half l, List.singleton_append,
    Decoder.pass_of_invalid hclass, if_neg hd.proto_ne]

end passes

/-! ### The frame that the bits of a wave make up -/

theorem getMsbD_shiftInBit {n p : Nat} (v : BitVec n) (b : Bool) (hp : p < n) :
    (shiftInBit v b).getMsbD p = if p + 1 < n then v.getMsbD (p + 1) else b := by
  rw [shiftInBit, BitVec.getMsbD_or, BitVec.getMsbD_shiftLeft, BitVec.getMsbD_setWidth, BitVec.getMsbD_ofBool]
  split
  · simp [show ¬ n - 1 ≤ p by omega]
  · simp [show n - 1 ≤ p by omega, show p + 1 - n = 0 by omega, BitVec.getMsbD_of_ge _ _ (show n ≤ p + 1 by omega)]

theorem getMsbD_foldl_shiftInBit {n p : Nat} (v : BitVec n) (bits : List Bool) (hp : p < n) :
    (bits.foldl shiftInBit v).getMsbD p =
      if p + bits.length < n then v.getMsbD (p + bits.length) else bits.getD (p + bits.length - n) false := by
  induction bits generalizing v with
  | nil => simp [hp]
  | cons b bs ih =>
    rw [List.foldl_cons, ih, List.length_cons]
    rcases Nat.lt_trichotomy (p + bs.length + 1) n with h | h | h
    · rw [if_pos (by omega), if_pos (by omega), getMsbD_shiftInBit _ _ (by omega), if_pos h, Nat.add_assoc]
    · rw [if_pos (by omega), if_neg (by omega), getMsbD_shiftInBit _ _ (by omega), if_neg (by omega),
        show p + (bs.length + 1) - n = 0 by omega]
      rfl
    · rw [if_neg (by omega), if_neg (by omega),
        show p + (bs.length + 1) - n = (p + bs.length - n) + 1 by omega, List.getD_cons_succ]

/-- The 64 bits of a frame push out whatever the frame buffer held. -/
theorem foldl_shiftInBit_emPackBits (v : BitVec 64) (uid : List Byte) :
    (emPackBits uid).foldl shiftInBit v = emPack uid :=
  BitVec.eq_of_getMsbD_eq fun p hp => by
    rw [getMsbD_foldl_shiftInBit v _ hp, emPackBits_length, if_neg (by omega), Nat.add_sub_cancel,
      getMsbD_emPack uid hp]

/-! ### The frame found (R281) -/

/-- What is found when the events are fed one a pass. -/
def foundIn (cfg : Config) (d : Decoder) (events : List EdgeEvent) : Option Tag :=
  (feedBatches cfg d (events.map fun e => [e])).2

theorem foundIn_cons_of_none {cfg : Config} {d d' : Decoder} {e : EdgeEvent} {events : List EdgeEvent}
    (h : decExecutePass cfg d [e] = (d', none)) : foundIn cfg d (e :: events) = foundIn cfg d' events := by
  rw [foundIn, List.map_cons, feedBatches, h]
  change (feedBatches cfg d' _).2.orElse (fun _ => none) = (feedBatches cfg d' _).2
  cases (feedBatches cfg d' _).2 <;> rfl

theorem foundIn_single {cfg : Config} {d : Decoder} {e : EdgeEvent} :
    foundIn cfg d [e] = (decExecutePass cfg d [e]).2 := rfl

section found

variable {cfg : Config} {d : Decoder} (hd : d.EmReady cfg)
include hd

/-- A bit of a frame that is not its last is taken, and the first half of the next one waits. -/
theorem Decoder.EmReady.foundIn_waveFrom_cons {b : Bool} (c : Bool) (bs : List Bool)
    (heb : d.eb = [⟨d.halfUs, !b⟩]) (hcnt : d.bitCnt + 1 < 64) :
    foundIn cfg d (waveToEvents (waveFrom b (c :: bs) d.halfUs.toNat)) =
      foundIn cfg (d.afterBit b [⟨d.halfUs, !c⟩]) (waveToEvents (waveFrom c bs d.halfUs.toNat)) := by
  have hnone : (d.takePair cfg b).2 = none := by
    rw [hd.takePair_eq b]
    exact if_neg (by omega)
  have hhalf : BitVec.ofNat 16 d.halfUs.toNat = d.halfUs := ofNat_toNat_half _
  by_cases hc : c = b
  · subst hc
    have hd' : (d.afterBit c []).EmReady cfg := hd.of_eq rfl rfl
    have hsecond := hd.pass_secondHalf heb (hd.emNormalise_half c) (by simp)
    have hfirst := hd'.pass_firstHalf rfl (hd'.emNormalise_half (!c))
    rw [hnone] at hsecond
    rw [waveToEvents_waveFrom_eq, hhalf, foundIn_cons_of_none hsecond]
    exact foundIn_cons_of_none hfirst
  · obtain rfl : c = !b := Bool.eq_not_of_ne hc
    have hfull := hd.pass_secondHalf heb (hd.emNormalise_full b) (by simp)
    rw [hnone] at hfull
    rw [waveToEvents_waveFrom_ne, foundIn_cons_of_none hfull, Bool.not_not]

/-- From the second half of a bit on, the rest of a valid frame is found. -/
theorem Decoder.EmReady.foundIn_waveFrom {b : Bool} {bs : List Bool} (heb : d.eb = [⟨d.halfUs, !b⟩])
    (hcnt : d.bitCnt + (b :: bs).length = 64) (hstop : (b :: bs).getLast? = some false)
    (hvalid : emValid ((b :: bs).foldl shiftInBit d.frame64) = true) :
    foundIn cfg d (waveToEvents (waveFrom b bs d.halfUs.toNat)) =
      some (emTag ((b :: bs).foldl shiftInBit d.frame64) d.halfUs) := by
  induction bs generalizing b d with
  | nil =>
    obtain rfl : b = false := Option.some.inj hstop
    have hlast := hd.pass_secondHalf heb (hd.emNormalise_half false) (by simp)
    rw [waveToEvents_waveFrom_stop, ofNat_toNat_half, foundIn_single, hlast, hd.takePair_eq false]
    exact if_pos ⟨by rw [List.length_singleton] at hcnt; omega, hvalid⟩
  | cons c bs ih =>
    rw [List.length_cons, List.length_cons] at hcnt
    have hframe : (d.afterBit b [⟨d.halfUs, !c⟩]).frame64 = shiftInBit d.frame64 b := d.frame64_shiftIn64 b
    have hd' : (d.afterBit b [⟨d.halfUs, !c⟩]).EmReady cfg := hd.of_eq rfl rfl
    have hcnt' : (d.afterBit b [⟨d.halfUs, !c⟩]).bitCnt + (c :: bs).length = 64 := by
      change min (d.bitCnt + 1) 64 + (bs.length + 1) = 64
      omega
    rw [List.foldl_cons, ← hframe] at hvalid ⊢
    rw [hd.foundIn_waveFrom_cons c bs heb (by omega)]
    exact ih hd' rfl hcnt' (List.getLast?_cons_cons.symm.trans hstop) hvalid

/-- The idle interval heads an invalid pair and is dropped; the first half-bit of the frame waits (R261, R281). -/
theorem Decoder.EmReady.foundIn_idle {idle : Nat} (heb : d.eb = []) (hidle : 3 * d.halfUs.toNat ≤ idle)
    (hmax : idle < 65536) (events : List EdgeEvent) :
    foundIn cfg d (⟨BitVec.ofNat 16 idle, true⟩ :: ⟨d.halfUs, false⟩ :: events) =
      foundIn cfg { d with bitCnt := 0, eb := [⟨d.halfUs, false⟩] } events := by
  have hpos := hd.halfUs_pos
  have htol := Config.emTolHalfPct_mul_bounds hd.cfg_wf d.halfUs.toNat
  have hdur : (BitVec.ofNat 16 idle).toNat = idle := toNat_ofNat_half hmax
  have hfull : ¬ inFull cfg d.halfUs.toNat idle = true := by
    rw [inFull_iff]
    omega
  have hnorm : emNormalise cfg d.halfUs ⟨BitVec.ofNat 16 idle, true⟩ = [⟨BitVec.ofNat 16 idle, true⟩] := by
    rw [emNormalise, hdur, if_neg hfull]
  have hout : ¬ inHalf cfg d.halfUs.toNat (BitVec.ofNat 16 idle).toNat = true := by
    rw [hdur, inHalf_iff]
    omega
  have hwaiting : ({ d with eb := [⟨BitVec.ofNat 16 idle, true⟩] } : Decoder).EmReady cfg := hd.of_eq rfl rfl
  rw [foundIn_cons_of_none (hd.pass_firstHalf heb hnorm), foundIn_cons_of_none (hwaiting.pass_invalid rfl hout false)]

end found

/-- Settles O55: the idle interval is dropped, then the bits of the frame are taken one by one, and the last of them
completes `EmPack` of the UID. -/
theorem emDecodesTheWaveOfATag : Obligations.EmDecodesTheWaveOfATag := by
  unfold Obligations.EmDecodesTheWaveOfATag
  intro cfg d u0 u1 u2 u3 u4 idle hcfg hproto hhalf _ heb hidle hmax
  have hd : d.EmReady cfg := .of_begun hcfg hproto hhalf
  set uid := [u0, u1, u2, u3, u4]
  obtain ⟨bs, hbits⟩ : ∃ bs, emPackBits uid = true :: bs := ⟨_, rfl⟩
  have hevents :
      waveToEvents ([(false, idle)] ++ emWave (emPackBits uid) d.halfUs.toNat ++ [(false, d.halfUs.toNat)]) =
        ⟨BitVec.ofNat 16 idle, true⟩ :: ⟨d.halfUs, false⟩ :: waveToEvents (waveFrom true bs d.halfUs.toNat) := by
    rw [hbits, emWave_cons, List.singleton_append, List.cons_append, List.cons_append, List.cons_append,
      waveToEvents_of_ne (by simp), waveToEvents_of_ne (by simp), ofNat_toNat_half]
    rfl
  have hd' : ({ d with bitCnt := 0, eb := [⟨d.halfUs, false⟩] } : Decoder).EmReady cfg := hd.of_eq rfl rfl
  have hframe := foldl_shiftInBit_emPackBits d.frame64 uid
  have hlen := emPackBits_length uid
  have hstop : (emPackBits uid).getLast? = some false := List.getLast?_concat
  rw [hbits] at hframe hlen hstop
  rw [hevents, ← emTag_emPack, ← hframe]
  refine (hd.foundIn_idle heb hidle hmax _).trans (hd'.foundIn_waveFrom rfl (by simpa using hlen) hstop ?_)
  exact hframe ▸ emValid_emPack uid

end Sys2Proof.Machine
end

section
/-! The window of H10301 and the frame buffers (42_decoder_port.md R224, 44_h10301.md R293, R296): what a window declares,
by how many of its symbols are "one" and "zero", and where a shift puts each bit. -/

namespace Sys2Proof.Machine

/-! ### The shift (42_decoder_port.md R224, R296) -/

theorem getMsbD_shiftInBit_last {n p : Nat} (v : BitVec (n + 1)) (b : Bool) (hp : p < n + 1) :
    (shiftInBit v b).getMsbD p = if p = n then b else v.getMsbD (p + 1) := by
  rw [getMsbD_shiftInBit v b hp]
  by_cases hlast : p = n
  · rw [if_neg (by omega), if_pos hlast]
  · rw [if_pos (by omega), if_neg hlast]

/-- Settles O48: the frame after a shift is `shiftInBit` of the frame before it. -/
theorem shiftInMovesTheFrameOneBit : Obligations.ShiftInMovesTheFrameOneBit := by
  unfold Obligations.ShiftInMovesTheFrameOneBit
  intro d b
  refine ⟨fun p hp => ?_, fun p hp => ?_, Decoder.shiftIn64_bitCnt d b, Decoder.shiftIn96_bitCnt d b,
    Decoder.shiftIn64_fw2 d b⟩
  · rw [Decoder.frame64_shiftIn64, getMsbD_shiftInBit_last _ b hp]
  · rw [Decoder.frame96_shiftIn96, getMsbD_shiftInBit_last _ b hp]

/-! ### The symbols of a window (R293) -/

section symCount

variable (w : BitVec 6) (lo n : Nat)

theorem symCount_succ (s : Bool) :
    symCount w lo (n + 1) s = symCount w (lo + 1) n s + if w.getLsbD lo = s then 1 else 0 := by
  have hshift : ((fun k => w.getLsbD (lo + k) == s) ∘ Nat.succ) = fun k => w.getLsbD (lo + 1 + k) == s :=
    funext fun k => by rw [Function.comp_apply, Nat.succ_eq_one_add, ← Nat.add_assoc]
  rw [symCount, List.range_succ_eq_map, List.countP_cons, List.countP_map, hshift, symCount]
  simp

/-- Every symbol is `s` or the other one. -/
theorem symCount_add_not (s : Bool) : symCount w lo n s + symCount w lo n (!s) = n := by
  induction n generalizing lo with
  | zero => rfl
  | succ n ih =>
    have hrest := ih (lo + 1)
    rw [symCount_succ, symCount_succ]
    rcases Bool.eq_or_eq_not (w.getLsbD lo) s with h | h <;> simp [h] <;> omega

/-- In a run of one symbol all are that symbol. -/
theorem symCount_of_forall {s : Bool} (h : ∀ k < lo + n, w.getLsbD k = s) : symCount w lo n s = n := by
  induction n generalizing lo with
  | zero => rfl
  | succ n ih => rw [symCount_succ, ih (lo + 1) fun k hk => h k (by omega), if_pos (h lo (by omega))]

end symCount

/-! ### What a window declares (R293) -/

/-- The four window numbers are fixed (00_scope.md R8). -/
theorem Config.h10Windows {cfg : Config} (h : cfg.wellFormed = true) :
    cfg.h10OneWin = 5 ∧ cfg.h10OneMin = 4 ∧ cfg.h10ZeroWin = 6 ∧ cfg.h10ZeroMin = 5 := by
  simp only [Config.wellFormed, Bool.and_eq_true, beq_iff_eq] at h
  omega

section winDetect

variable {cfg : Config} (hcfg : cfg.wellFormed = true) (d : Decoder)
include hcfg

theorem Decoder.winDetect_eq :
    d.winDetect cfg =
      if 5 ≤ d.winLen ∧ 4 ≤ symCount d.winSym (d.winLen - 5) 5 true then some true
      else if d.winLen = 6 ∧ 5 ≤ symCount d.winSym 0 6 false then some false else none := by
  obtain ⟨hone, honeMin, hzero, hzeroMin⟩ := Config.h10Windows hcfg
  rw [Decoder.winDetect, hone, honeMin, hzero, hzeroMin]

theorem Decoder.winDetect_eq_true_iff :
    d.winDetect cfg = some true ↔ 5 ≤ d.winLen ∧ 4 ≤ symCount d.winSym (d.winLen - 5) 5 true := by
  rw [Decoder.winDetect_eq hcfg]
  split
  next hone => exact iff_of_true rfl hone
  next hone => exact iff_of_false (by split <;> simp) hone

/-- Four "one" among the last five symbols leave at most two "zero" among the six, so the order of the tests does not
matter. -/
theorem Decoder.winDetect_eq_false_iff :
    d.winDetect cfg = some false ↔ d.winLen = 6 ∧ 5 ≤ symCount d.winSym 0 6 false := by
  rw [Decoder.winDetect_eq hcfg]
  split
  next hone =>
    refine iff_of_false (by simp) fun ⟨hlen, hzeros⟩ => ?_
    have hones : 4 ≤ symCount d.winSym 1 5 true := (hlen ▸ hone).2
    have hlast : _ + symCount d.winSym 1 5 false = 5 := symCount_add_not d.winSym 1 5 true
    have hall : symCount d.winSym 0 6 false = symCount d.winSym 1 5 false + _ := symCount_succ ..
    split at hall <;> omega
  next =>
    split
    next hzero => exact iff_of_true rfl hzero
    next hzero => exact iff_of_false (by simp) hzero

end winDetect

/-- Settles O56: each test alone says when its bit is declared. -/
theorem h10WindowDeclaresFourOfFiveOrFiveOfSix : Obligations.H10WindowDeclaresFourOfFiveOrFiveOfSix := by
  unfold Obligations.H10WindowDeclaresFourOfFiveOrFiveOfSix
  intro cfg d hcfg _
  exact ⟨d.winDetect_eq_true_iff hcfg, d.winDetect_eq_false_iff hcfg⟩

end Sys2Proof.Machine
end

section
/-! The frame of H10301 (44_h10301.md R300 to R303, R308 to R311): validity in frame bit positions, what inverting one
frame bit does to it, and what each frame bit of `H10Pack` is. -/

namespace Sys2Proof.Machine

/-! ### Bits and fields -/

theorem append_eq_append_iff {m n : Nat} {a c : BitVec m} {b d : BitVec n} : a ++ b = c ++ d ↔ a = c ∧ b = d := by
  refine ⟨fun h => ⟨?_, ?_⟩, fun ⟨hac, hbd⟩ => hac ▸ hbd ▸ rfl⟩
  · simpa only [BitVec.extractLsb'_append_eq_left] using congrArg (BitVec.extractLsb' n m) h
  · simpa only [BitVec.extractLsb'_append_eq_right] using congrArg (BitVec.extractLsb' 0 n) h

section onesIn

variable {k : Nat} (w : BitVec k) (lo n : Nat)

theorem onesIn_succ_last : onesIn w lo (n + 1) = onesIn w lo n + (w.getLsbD (lo + n)).toNat := by
  rw [onesIn, List.range_succ, List.countP_append, onesIn]
  cases h : w.getLsbD (lo + n) <;> simp [h]

theorem onesIn_succ_first : onesIn w lo (n + 1) = (w.getLsbD lo).toNat + onesIn w (lo + 1) n := by
  induction n with
  | zero => rw [onesIn_succ_last]; exact Nat.add_comm ..
  | succ n ih => rw [onesIn_succ_last, ih, onesIn_succ_last, Nat.add_assoc, Nat.add_right_comm lo 1, Nat.add_assoc lo]

theorem onesIn_congr {w' : BitVec k} (h : ∀ i, lo ≤ i → i < lo + n → w.getLsbD i = w'.getLsbD i) :
    onesIn w lo n = onesIn w' lo n := by
  refine List.countP_congr fun j hj => ?_
  rw [h (lo + j) (by omega) (by have := List.mem_range.mp hj; omega)]

theorem getLsbD_flipBit {p i : Nat} (hp : p < k) (hi : i < k) :
    (flipBit w p).getLsbD i = (w.getLsbD i ^^ decide (i = k - 1 - p)) := by
  rw [BitVec.getLsbD_eq_getMsbD, BitVec.getLsbD_eq_getMsbD, getMsbD_flipBit w hp (by omega), decide_eq_true hi,
    Bool.true_and, Bool.true_and, decide_eq_decide.mpr (show p = k - 1 - i ↔ i = k - 1 - p by omega)]

/-- A count of ones that takes in the inverted bit changes by one. -/
theorem onesIn_flipBit_mod_two {p : Nat} (hp : p < k) (hn : lo + n ≤ k) :
    onesIn (flipBit w p) lo n % 2 =
      (onesIn w lo n + if lo ≤ k - 1 - p ∧ k - 1 - p < lo + n then 1 else 0) % 2 := by
  induction n with
  | zero => rw [if_neg (by omega)]; rfl
  | succ n ih =>
    have hrest := ih (by omega)
    rw [onesIn_succ_last, onesIn_succ_last, getLsbD_flipBit w hp (by omega)]
    by_cases hlast : lo + n = k - 1 - p
    · rw [if_neg (by omega)] at hrest
      rw [if_pos (by omega), decide_eq_true hlast]
      cases w.getLsbD (lo + n) <;> simp <;> omega
    · rw [decide_eq_false hlast, Bool.xor_false]
      split at hrest <;> split <;> omega

end onesIn

/-! ### Validity (R300 to R302, R305) -/

/-- The three fixed fields, the first 44 bits of a frame (R300). -/
def h10Header (cfg : Config) : BitVec 44 := cfg.h10Sync ++ cfg.h10Preamble14 ++ cfg.h10Format22

theorem extractLsb'_eq_h10Header_iff {cfg : Config} {v : BitVec 96} :
    v.extractLsb' 52 44 = h10Header cfg ↔
      v.extractLsb' 88 8 = cfg.h10Sync ∧ v.extractLsb' 74 14 = cfg.h10Preamble14
      ∧ v.extractLsb' 52 22 = cfg.h10Format22 := by
  have hsplit : v.extractLsb' 52 44 = v.extractLsb' 88 8 ++ v.extractLsb' 74 14 ++ v.extractLsb' 52 22 := by
    rw [BitVec.extractLsb'_append_extractLsb'_eq_extractLsb' (show 88 = 74 + 14 from rfl),
      BitVec.extractLsb'_append_extractLsb'_eq_extractLsb' (show 74 = 52 + 22 from rfl)]
  rw [hsplit, h10Header, append_eq_append_iff, append_eq_append_iff, and_assoc]

theorem h10Valid_iff {cfg : Config} {v : BitVec 96} :
    h10Valid cfg v = true ↔
      v.extractLsb' 52 44 = h10Header cfg ∧ (∀ j < 26, v.getMsbD (44 + 2 * j) ≠ v.getMsbD (45 + 2 * j))
      ∧ onesIn (h10Wiegand v) 13 13 % 2 = 0 ∧ onesIn (h10Wiegand v) 0 13 % 2 = 1 := by
  simp [h10Valid, h10PairsOk, h10ParityOk, extractLsb'_eq_h10Header_iff, and_assoc]

theorem getMsbD_h10Wiegand (v : BitVec 96) {j : Nat} (hj : j < 26) :
    (h10Wiegand v).getMsbD j = v.getMsbD (44 + 2 * j) :=
  getMsbD_bitsBE _ hj

/-! ### Bits inverted (R309) -/

section flipBit

variable {cfg : Config} {v : BitVec 96} {p j : Nat}

/-- The header of a valid frame with one of its bits inverted is not the header. -/
theorem not_h10Valid_flipBit_header (hp : p < 44) (hvalid : h10Valid cfg v = true) :
    h10Valid cfg (flipBit v p) = false := by
  refine Bool.eq_false_iff.mpr fun hflip => ?_
  obtain ⟨hheader, -⟩ := h10Valid_iff.mp hvalid
  obtain ⟨hheader', -⟩ := h10Valid_iff.mp hflip
  have hbit := congrArg (fun f => f.getMsbD p) (hheader'.trans hheader.symm)
  simp only [BitVec.getMsbD_extractLsb', show 96 - (52 + 44 - p) = p by omega,
    getMsbD_flipBit v (show p < 96 by omega) (show p < 96 by omega)] at hbit
  simp [hp] at hbit

/-- One bit of a pair inverted makes the pair `00` or `11` (R301). -/
theorem not_h10Valid_flipBit_payload (hp : 44 ≤ p) (hp' : p < 96) (hvalid : h10Valid cfg v = true) :
    h10Valid cfg (flipBit v p) = false := by
  refine Bool.eq_false_iff.mpr fun hflip => ?_
  obtain ⟨j, hj⟩ : ∃ j, j = (p - 44) / 2 := ⟨_, rfl⟩
  obtain ⟨-, hpairs, -⟩ := h10Valid_iff.mp hvalid
  obtain ⟨-, hpairs', -⟩ := h10Valid_iff.mp hflip
  have hne := Bool.eq_not_of_ne (hpairs j (by omega))
  have hpair' := hpairs' j (by omega)
  rw [getMsbD_flipBit v hp' (by omega), getMsbD_flipBit v hp' (by omega)] at hpair'
  rcases (show p = 44 + 2 * j ∨ p = 45 + 2 * j by omega) with hfirst | hsecond
  · rw [decide_eq_true hfirst, decide_eq_false (by omega), Bool.xor_true, Bool.xor_false] at hpair'
    exact hpair' (by rw [hne, Bool.not_not])
  · rw [decide_eq_false (by omega), decide_eq_true hsecond, Bool.xor_true, Bool.xor_false] at hpair'
    exact hpair' hne

/-- Both bits of a pair inverted invert its Wiegand bit alone (R301). -/
theorem h10Wiegand_flipBit_pair (hj : j < 26) :
    h10Wiegand (flipBit (flipBit v (44 + 2 * j)) (45 + 2 * j)) = flipBit (h10Wiegand v) j :=
  BitVec.eq_of_getMsbD_eq fun i hi => by
    rw [getMsbD_h10Wiegand _ hi, getMsbD_flipBit _ (by omega) (by omega), getMsbD_flipBit _ (by omega) (by omega),
      getMsbD_flipBit _ hj hi, getMsbD_h10Wiegand _ hi, decide_eq_false (show ¬ 45 + 2 * j = 44 + 2 * i by omega),
      Bool.xor_false, decide_eq_decide.mpr (show 44 + 2 * j = 44 + 2 * i ↔ j = i by omega)]

/-- A Wiegand bit is in one of the two parity groups, which then counts one more or one less (R302). -/
theorem not_h10Valid_flipBit_pair (hj : j < 26) (hvalid : h10Valid cfg v = true) :
    h10Valid cfg (flipBit (flipBit v (44 + 2 * j)) (45 + 2 * j)) = false := by
  refine Bool.eq_false_iff.mpr fun hflip => ?_
  obtain ⟨-, -, heven, hodd⟩ := h10Valid_iff.mp hvalid
  obtain ⟨-, -, heven', hodd'⟩ := h10Valid_iff.mp hflip
  rw [h10Wiegand_flipBit_pair hj, onesIn_flipBit_mod_two _ _ _ hj (by omega)] at heven' hodd'
  split at heven' <;> split at hodd' <;> omega

end flipBit

theorem three_shiftLeft (k : Nat) : 3#96 <<< k = 1#96 <<< (k + 1) ^^^ 1#96 <<< k := by
  have hthree : 3#96 = 1#96 <<< 1 ^^^ 1#96 := by decide
  rw [hthree, BitVec.shiftLeft_xor_distrib, ← BitVec.shiftLeft_add, Nat.add_comm 1]

/-- Settles O57, by what the inverted bit belongs to: the header, or a pair of the payload. -/
theorem h10ParityRejectsAnySingleBitFlip : Obligations.H10ParityRejectsAnySingleBitFlip := by
  unfold Obligations.H10ParityRejectsAnySingleBitFlip
  intro cfg v hvalid
  refine ⟨fun p hp => ?_, fun j hj => ?_⟩
  · change h10Valid cfg (flipBit v p) = false
    rcases Nat.lt_or_ge p 44 with h44 | h44
    · exact not_h10Valid_flipBit_header h44 hvalid
    · exact not_h10Valid_flipBit_payload h44 hp hvalid
  · have hflips : v ^^^ (3#96 <<< (50 - 2 * j)) = flipBit (flipBit v (44 + 2 * j)) (45 + 2 * j) := by
      rw [three_shiftLeft, ← BitVec.xor_assoc, flipBit, flipBit, show 50 - 2 * j + 1 = 96 - 1 - (44 + 2 * j) by omega,
        show 50 - 2 * j = 96 - 1 - (45 + 2 * j) by omega]
    rw [hflips]
    exact not_h10Valid_flipBit_pair hj hvalid

/-! ### The Wiegand word of a tag (R302, R303, R310) -/

/-- Bits 24 to 1 of the Wiegand word: the facility code, then the card number. -/
def wiegandFields (fc : BitVec 8) (card : BitVec 16) : BitVec 26 := ((fc.setWidth 26 <<< 16) ||| card.setWidth 26) <<< 1

section wiegand26

variable (fc : BitVec 8) (card : BitVec 16) {i : Nat}

theorem getLsbD_wiegandFields (hi : i < 26) :
    (wiegandFields fc card).getLsbD i = (decide (1 ≤ i) && (fc ++ card).getLsbD (i - 1)) := by
  have hrange : i - 1 < 26 := by omega
  simp only [wiegandFields, BitVec.getLsbD_shiftLeft, BitVec.getLsbD_or, BitVec.getLsbD_setWidth, BitVec.getLsbD_append,
    hi, hrange, decide_true, Bool.true_and]
  have hpos : (!decide (i < 1)) = decide (1 ≤ i) := by rw [← decide_not, decide_eq_decide, Nat.not_lt]
  rw [hpos]
  by_cases h16 : i - 1 < 16
  · simp [h16]
  · simp [h16, show i - 1 - 16 < 26 by omega, BitVec.getLsbD_of_ge card (i - 1) (by omega)]

/-- The bit that makes the number of ones among `w[25:13]` even. -/
def wiegandEven : Bool := onesIn (wiegandFields fc card) 13 12 % 2 == 1

/-- The bit that makes the number of ones among `w[12:0]` odd. -/
def wiegandOdd : Bool := !(onesIn (wiegandFields fc card) 1 12 % 2 == 1)

theorem wiegand26_eq :
    wiegand26 fc card =
      ((BitVec.ofBool (wiegandEven fc card)).setWidth 26 <<< 25) ||| wiegandFields fc card
        ||| (BitVec.ofBool (wiegandOdd fc card)).setWidth 26 := rfl

theorem getLsbD_wiegand26 (hi : i < 26) :
    (wiegand26 fc card).getLsbD i =
      if i = 0 then wiegandOdd fc card else if i = 25 then wiegandEven fc card else (wiegandFields fc card).getLsbD i := by
  simp only [wiegand26_eq, BitVec.getLsbD_or, BitVec.getLsbD_shiftLeft, BitVec.getLsbD_setWidth, BitVec.getLsbD_ofBool]
  rcases eq_or_ne i 0 with rfl | h0
  · rw [getLsbD_wiegandFields fc card hi]
    simp
  rcases eq_or_ne i 25 with rfl | h25
  · rw [getLsbD_wiegandFields fc card hi, BitVec.getLsbD_of_ge _ _ (show 8 + 16 ≤ 25 - 1 by decide)]
    simp
  · simp [h0, h25, show i < 25 by omega]

theorem onesIn_wiegand26_even : onesIn (wiegand26 fc card) 13 13 % 2 = 0 := by
  have hfields : onesIn (wiegand26 fc card) 13 12 = onesIn (wiegandFields fc card) 13 12 :=
    onesIn_congr _ _ _ fun i _ _ => by
      rw [getLsbD_wiegand26 fc card (by omega), if_neg (by omega), if_neg (by omega)]
  rw [onesIn_succ_last, hfields, getLsbD_wiegand26 fc card (by omega), if_neg (by omega), if_pos rfl, wiegandEven]
  rcases Nat.mod_two_eq_zero_or_one (onesIn (wiegandFields fc card) 13 12) with h | h <;> simp [h, Nat.add_mod]

theorem onesIn_wiegand26_odd : onesIn (wiegand26 fc card) 0 13 % 2 = 1 := by
  have hfields : onesIn (wiegand26 fc card) 1 12 = onesIn (wiegandFields fc card) 1 12 :=
    onesIn_congr _ _ _ fun i _ _ => by
      rw [getLsbD_wiegand26 fc card (by omega), if_neg (by omega), if_neg (by omega)]
  rw [onesIn_succ_first, hfields, getLsbD_wiegand26 fc card (by omega), if_pos rfl, wiegandOdd]
  rcases Nat.mod_two_eq_zero_or_one (onesIn (wiegandFields fc card) 1 12) with h | h <;> simp [h, Nat.add_mod]

/-- Bits 24 to 1 are the two fields, whatever the parity bits are (R303). -/
theorem extractLsb'_wiegand26 {lo n : Nat} (hn : lo + n ≤ 24) :
    (wiegand26 fc card).extractLsb' (lo + 1) n = (fc ++ card).extractLsb' lo n :=
  BitVec.eq_of_getLsbD_eq fun i hi => by
    rw [BitVec.getLsbD_extractLsb', BitVec.getLsbD_extractLsb', getLsbD_wiegand26 fc card (by omega), if_neg (by omega),
      if_neg (by omega), getLsbD_wiegandFields fc card (by omega), decide_eq_true (show 1 ≤ lo + 1 + i by omega),
      Bool.true_and, show lo + 1 + i - 1 = lo + i by omega]

theorem h10Facility_wiegand26 : h10Facility (wiegand26 fc card) = fc :=
  (extractLsb'_wiegand26 fc card (lo := 16) (by omega)).trans BitVec.extractLsb'_append_eq_left

theorem h10Card_wiegand26 : h10Card (wiegand26 fc card) = card :=
  (extractLsb'_wiegand26 fc card (lo := 0) (by omega)).trans BitVec.extractLsb'_append_eq_right

end wiegand26

/-! ### The frame of a tag (R311) -/

section h10Pack

variable (cfg : Config) (fc : BitVec 8) (card : BitVec 16) {j : Nat}

theorem h10Pack_eq : h10Pack cfg fc card = h10Header cfg ++ man26 (wiegand26 fc card) := rfl

/-- The first bit of a pair is its Wiegand bit. -/
theorem getMsbD_h10Pack_first (hj : j < 26) :
    (h10Pack cfg fc card).getMsbD (44 + 2 * j) = (wiegand26 fc card).getMsbD j := by
  rw [h10Pack_eq, BitVec.getMsbD_append, if_pos (by omega), Nat.add_sub_cancel_left, man26,
    getMsbD_bitsBE _ (by omega), if_pos (by omega), Nat.mul_div_cancel_left _ Nat.two_pos]

/-- The second bit of a pair is the first one inverted. -/
theorem getMsbD_h10Pack_second (hj : j < 26) :
    (h10Pack cfg fc card).getMsbD (45 + 2 * j) = !(wiegand26 fc card).getMsbD j := by
  rw [h10Pack_eq, BitVec.getMsbD_append, if_pos (by omega), man26, getMsbD_bitsBE _ (by omega), if_neg (by omega),
    show (45 + 2 * j - 44) / 2 = j by omega]

theorem h10Wiegand_h10Pack : h10Wiegand (h10Pack cfg fc card) = wiegand26 fc card :=
  BitVec.eq_of_getMsbD_eq fun _ hj => by rw [getMsbD_h10Wiegand _ hj, getMsbD_h10Pack_first cfg fc card hj]

theorem h10Valid_h10Pack : h10Valid cfg (h10Pack cfg fc card) = true := by
  rw [h10Valid_iff, h10Wiegand_h10Pack]
  refine ⟨BitVec.extractLsb'_append_eq_left, fun j hj => ?_, onesIn_wiegand26_even fc card, onesIn_wiegand26_odd fc card⟩
  rw [getMsbD_h10Pack_first cfg fc card hj, getMsbD_h10Pack_second cfg fc card hj]
  exact Bool.self_ne_not _

theorem h10Tag_h10Pack :
    h10Tag (h10Pack cfg fc card) =
      { uid0 := fc, uid1 := card.extractLsb' 8 8, uid2 := card.extractLsb' 0 8, uid3 := 0#8, uid4 := 0#8
        bitrate := 0#16 } := by
  rw [h10Tag, h10Wiegand_h10Pack, h10Facility_wiegand26, h10Card_wiegand26]
  rfl

end h10Pack

/-- Settles O58: the frame is valid, and its Wiegand word holds the two fields. -/
theorem h10PackRoundTrips : Obligations.H10PackRoundTrips := by
  unfold Obligations.H10PackRoundTrips
  intro cfg fc card
  exact ⟨h10Valid_h10Pack cfg fc card, h10Tag_h10Pack cfg fc card⟩

end Sys2Proof.Machine
end

section
/-! The round trip of H10301 (44_h10301.md R309, R312): the wave of a frame as whole cycles of its two tones, the bit that
the cycles of one tone declare, and a frame found wherever its entries are cut into batches. -/

namespace Sys2Proof.Machine

/-! ### The wave as cycles (R291, R294, R312) -/

/-- The period of the tone of a symbol (R291). -/
def tonePeriod (cfg : Config) (s : Bool) : Nat := if s then cfg.h10PeriodOneUs else cfg.h10PeriodZeroUs

/-- The duration of half a cycle of a tone (R312). -/
def halfPeriod (cfg : Config) (s : Bool) : Half := BitVec.ofNat 16 (tonePeriod cfg s / 2)

/-- The two entries of one cycle of a tone. -/
def cycle (cfg : Config) (s : Bool) : List EdgeEvent := [⟨halfPeriod cfg s, true⟩, ⟨halfPeriod cfg s, false⟩]

theorem length_flatMap_cycle (cfg : Config) (ss : List Bool) : (ss.flatMap (cycle cfg)).length = 2 * ss.length := by
  simp [List.length_flatMap, cycle, Nat.mul_comm]

/-- How many cycles of its tone a frame bit is sent as. -/
def cyclesOf (b : Bool) : Nat := if b then 5 else 6

theorem cyclesOf_pos (b : Bool) : 0 < cyclesOf b := by cases b <;> decide

theorem cyclesOf_le (b : Bool) : cyclesOf b ≤ 6 := by cases b <;> decide

/-- The symbols of the cycles that a frame bit is sent as. -/
def bitSymbols (b : Bool) : List Bool := List.replicate (cyclesOf b) b

theorem fskBit_eq (cfg : Config) (b : Bool) : fskBit cfg b = List.replicate (2 * cyclesOf b) (tonePeriod cfg b / 2) := by
  cases b <;> rfl

theorem toggling_replicate_append (cfg : Config) (s : Bool) (n : Nat) (rest : List Nat) :
    toggling true (List.replicate (2 * n) (tonePeriod cfg s / 2) ++ rest) =
      (List.replicate n s).flatMap (cycle cfg) ++ toggling true rest := by
  induction n with
  | zero => rfl
  | succ n ih =>
    rw [Nat.mul_succ, List.replicate_succ, List.replicate_succ, List.replicate_succ, List.flatMap_cons, List.append_assoc,
      ← ih]
    rfl

theorem fskWave_eq (cfg : Config) (bits : List Bool) :
    fskWave cfg bits = (bits.flatMap bitSymbols).flatMap (cycle cfg) := by
  rw [fskWave]
  induction bits with
  | nil => rfl
  | cons b bs ih =>
    rw [List.flatMap_cons, fskBit_eq, toggling_replicate_append, ih, List.flatMap_cons, List.flatMap_append, bitSymbols]

/-- Parameters in range, and tone periods that are even. -/
structure EvenTones (cfg : Config) : Prop where
  wf : cfg.wellFormed = true
  zero_even : cfg.h10PeriodZeroUs % 2 = 0
  one_even : cfg.h10PeriodOneUs % 2 = 0

section symbols

variable {cfg : Config} (hcfg : EvenTones cfg)
include hcfg

theorem EvenTones.periods :
    cfg.h10PeriodZeroUs < cfg.h10PeriodOneUs ∧ cfg.h10PeriodOneUs ≤ 65535 ∧ 2 * cfg.frameChunkSize + 1 ≤ cfg.edgeBufLen
    ∧ 1 ≤ cfg.frameChunkSize := by
  have hwf := hcfg.wf
  simp only [Config.wellFormed, Bool.and_eq_true, decide_eq_true_eq] at hwf
  omega

/-- The two half-periods of a cycle add up to the period of its tone (R312). -/
theorem EvenTones.halfPeriod_add (s : Bool) :
    (halfPeriod cfg s).toNat + (halfPeriod cfg s).toNat = tonePeriod cfg s := by
  obtain ⟨hlt, hle, -⟩ := hcfg.periods
  have hzero := hcfg.zero_even
  have hone := hcfg.one_even
  have hbounds : tonePeriod cfg s % 2 = 0 ∧ tonePeriod cfg s ≤ 65535 := by
    cases s with
    | false => exact ⟨hzero, by rw [tonePeriod, if_neg Bool.false_ne_true]; omega⟩
    | true => exact ⟨hone, hle⟩
  rw [halfPeriod, toNat_ofNat_half (by omega)]
  omega

/-- A cycle gives the symbol of its tone, whether or not the other tone's window has it too (R291). -/
theorem EvenTones.h10Symbol_cycle (s : Bool) :
    h10Symbol cfg ⟨halfPeriod cfg s, true⟩ ⟨halfPeriod cfg s, false⟩ = .bit s := by
  obtain ⟨hlt, -⟩ := hcfg.periods
  have hsum := hcfg.halfPeriod_add s
  have hself : ∀ p, absDiff p p = 0 := fun p => by simp [absDiff]
  have hfar : absDiff cfg.h10PeriodOneUs cfg.h10PeriodZeroUs ≠ 0 := by rw [absDiff]; split <;> omega
  rw [h10Symbol, if_neg (by simp)]
  simp only [hsum]
  cases s with
  | false => simp [tonePeriod, hself]
  | true => simp [tonePeriod, hself, Nat.pos_of_ne_zero hfar]

theorem EvenTones.pairClass_cycle {d : Decoder} (hproto : d.proto = .h10301) (s : Bool) :
    d.pairClass cfg ⟨halfPeriod cfg s, true⟩ ⟨halfPeriod cfg s, false⟩ = .bit s := by
  rw [Decoder.pairClass, if_pos hproto, hcfg.h10Symbol_cycle]

end symbols

/-! ### A run of one symbol in the window (R293) -/

/-- The window holds `n` symbols, all of them `s`. -/
def Decoder.HoldsRun (d : Decoder) (s : Bool) (n : Nat) : Prop := d.winLen = n ∧ ∀ k < n, d.winSym.getLsbD k = s

theorem getLsbD_setSym (w : BitVec 6) {k i : Nat} (hi : i < 6) (s : Bool) :
    (setSym w k s).getLsbD i = if i = k then s else w.getLsbD i := by
  rw [setSym, BitVec.getLsbD_or, BitVec.getLsbD_and, BitVec.getLsbD_not, BitVec.getLsbD_shiftLeft,
    BitVec.getLsbD_shiftLeft, BitVec.getLsbD_setWidth, BitVec.getLsbD_ofBool, BitVec.getLsbD_one]
  rcases Nat.lt_trichotomy i k with h | h | h
  · simp [hi, h, h.ne]
  · simp [h, h ▸ hi]
  · simp [hi, show ¬ i < k by omega, show i ≠ k by omega, show i - k ≠ 0 by omega]

theorem Decoder.holdsRun_zero {d : Decoder} (h : d.winLen = 0) (s : Bool) : d.HoldsRun s 0 :=
  ⟨h, fun _ hk => absurd hk (Nat.not_lt_zero _)⟩

section holdsRun

variable {d : Decoder} {s : Bool} {n : Nat}

theorem Decoder.HoldsRun.winPush (h : d.HoldsRun s n) (hn : n < 6) : (d.winPush s).HoldsRun s (n + 1) := by
  obtain ⟨hlen, hsym⟩ := h
  rw [Decoder.winPush, if_pos (hlen ▸ hn), hlen]
  refine ⟨rfl, fun k hk => ?_⟩
  rw [getLsbD_setSym _ (by omega)]
  split
  · rfl
  · exact hsym k (by omega)

theorem Decoder.HoldsRun.symCount_eq (h : d.HoldsRun s n) {lo m : Nat} (hm : lo + m ≤ n) (x : Bool) :
    symCount d.winSym lo m x = if x = s then m else 0 := by
  have hrun : symCount d.winSym lo m s = m := symCount_of_forall _ _ _ fun k hk => h.2 k (by omega)
  rcases Bool.eq_or_eq_not x s with rfl | rfl
  · rw [if_pos rfl, hrun]
  · have hall := symCount_add_not d.winSym lo m s
    rw [if_neg (Bool.not_ne_self s)]
    omega

variable {cfg : Config} (hcfg : cfg.wellFormed = true) (h : d.HoldsRun s n)
include hcfg h

/-- Fewer cycles than a bit is sent as declare nothing. -/
theorem Decoder.HoldsRun.winDetect_of_lt (hn : n < cyclesOf s) : d.winDetect cfg = none := by
  rcases hdetect : d.winDetect cfg with _ | _ | _
  · rfl
  · obtain ⟨hlen, -⟩ := (d.winDetect_eq_false_iff hcfg).mp hdetect
    have hsix := cyclesOf_le s
    have hrun := h.1
    omega
  · obtain ⟨hlen, hones⟩ := (d.winDetect_eq_true_iff hcfg).mp hdetect
    have hrun := h.1
    rw [h.symCount_eq (by omega)] at hones
    cases s with
    | false => simp at hones
    | true => exact absurd hn (by rw [cyclesOf, if_pos rfl]; omega)

/-- The cycles that a bit is sent as declare it. -/
theorem Decoder.HoldsRun.winDetect_of_eq (hn : n = cyclesOf s) : d.winDetect cfg = some s := by
  have hlen := h.1
  cases s with
  | false =>
    have hsix : n = 6 := hn
    rw [d.winDetect_eq_false_iff hcfg, h.symCount_eq (by omega), if_pos rfl]
    omega
  | true =>
    have hfive : n = 5 := hn
    rw [d.winDetect_eq_true_iff hcfg, h.symCount_eq (by omega), if_pos rfl]
    omega

end holdsRun

/-! ### The cycles of one bit (R293, R297) -/

section bit

variable {cfg : Config} {d : Decoder} (hcfg : cfg.wellFormed = true) (hproto : d.proto = .h10301) {s : Bool} {n : Nat}
include hcfg hproto

/-- A cycle that is not the last of its bit is one more symbol in the window. -/
theorem Decoder.HoldsRun.takePair_of_lt (h : d.HoldsRun s n) (hn : n + 1 < cyclesOf s) :
    d.takePair cfg s = (d.winPush s, none) := by
  have hsix := cyclesOf_le s
  rw [Decoder.takePair, if_pos hproto, (h.winPush (by omega)).winDetect_of_lt hcfg hn]

/-- The last cycle of a bit shifts it in and empties the window. -/
theorem Decoder.HoldsRun.takePair_of_eq (h : d.HoldsRun s n) (hn : n + 1 = cyclesOf s) :
    d.takePair cfg s =
      ((d.winPush s).emptyWindow.shiftIn96 s,
        if min (d.bitCnt + 1) 96 = 96 ∧ h10Valid cfg (shiftInBit d.frame96 s) = true then
          some (h10Tag (shiftInBit d.frame96 s)) else none) := by
  have hsix := cyclesOf_le s
  have hframe : (d.winPush s).emptyWindow.frame96 = d.frame96 := by simp [Decoder.frame96]
  rw [Decoder.takePair, if_pos hproto, (h.winPush (by omega)).winDetect_of_eq hcfg hn]
  simp only [Decoder.frame96_shiftIn96, hframe, Decoder.shiftIn96_bitCnt, Decoder.emptyWindow_bitCnt,
    Decoder.winPush_bitCnt]

/-- The cycles of a bit but its last only fill the window. -/
theorem Decoder.HoldsRun.takePairs_replicate {m : Nat} (h : d.HoldsRun s n) (hm : n + m < cyclesOf s) :
    ∃ e : Decoder, d.takePairs cfg (List.replicate m s) = some e ∧ e.HoldsRun s (n + m) ∧ e.proto = .h10301
      ∧ e.bitCnt = d.bitCnt ∧ e.frame96 = d.frame96 := by
  induction m generalizing d n with
  | zero => exact ⟨d, rfl, h, hproto, rfl, rfl⟩
  | succ m ih =>
    have hsix := cyclesOf_le s
    obtain ⟨e, htaken, hrun, hproto', hcnt, hframe⟩ :=
      ih (by simpa using hproto) (h.winPush (by omega)) (show n + 1 + m < cyclesOf s by omega)
    refine ⟨e, ?_, by rwa [Nat.add_assoc, Nat.add_comm 1] at hrun, hproto', by simpa using hcnt, ?_⟩
    · rw [List.replicate_succ, Decoder.takePairs_cons (h.takePair_of_lt hcfg hproto (by omega)), htaken]
    · simpa [Decoder.frame96] using hframe

/-- The cycles of a bit, from an empty window on: the last of them shifts the bit in. -/
theorem Decoder.exists_take_bitSymbols (hwin : d.winLen = 0) (b : Bool) :
    ∃ e f : Decoder, d.takePairs cfg (List.replicate (cyclesOf b - 1) b) = some e
      ∧ e.takePair cfg b =
          (f, if min (d.bitCnt + 1) 96 = 96 ∧ h10Valid cfg (shiftInBit d.frame96 b) = true then
            some (h10Tag (shiftInBit d.frame96 b)) else none)
      ∧ f.proto = .h10301 ∧ f.winLen = 0 ∧ f.bitCnt = min (d.bitCnt + 1) 96
      ∧ f.frame96 = shiftInBit d.frame96 b := by
  have hpos := cyclesOf_pos b
  obtain ⟨e, htaken, hrun, hproto', hcnt, hframe⟩ :=
    (Decoder.holdsRun_zero hwin b).takePairs_replicate hcfg hproto (m := cyclesOf b - 1) (by omega)
  have htake := hrun.takePair_of_eq hcfg hproto' (by omega)
  rw [hcnt, hframe] at htake
  refine ⟨e, _, htaken, htake, by simpa using hproto', by simp, by simp [hcnt], ?_⟩
  rw [Decoder.frame96_shiftIn96, ← hframe]
  simp [Decoder.frame96]

end bit

/-! ### Symbols that complete a frame -/

/-- The decoder takes the symbols in their order, and the last of them and none before it completes a frame. -/
inductive Decoder.Completes (cfg : Config) : Decoder → List Bool → Tag → Prop where
  | last {d e : Decoder} {s : Bool} {tag : Tag} (htake : d.takePair cfg s = (e, some tag)) : Completes cfg d [s] tag
  | next {d e : Decoder} {s : Bool} {ss : List Bool} {tag : Tag} (htake : d.takePair cfg s = (e, none))
      (hrest : Completes cfg e ss tag) : Completes cfg d (s :: ss) tag

theorem Decoder.Completes.ne_nil {cfg : Config} {d : Decoder} {ss : List Bool} {tag : Tag} (h : d.Completes cfg ss tag) :
    ss ≠ [] := by
  cases h <;> exact List.cons_ne_nil _ _

theorem Decoder.Completes.of_takePairs {cfg : Config} {d e : Decoder} {xs ys : List Bool} {tag : Tag}
    (htaken : d.takePairs cfg xs = some e) (h : e.Completes cfg ys tag) : d.Completes cfg (xs ++ ys) tag := by
  induction xs generalizing d with
  | nil => exact Option.some.inj htaken ▸ h
  | cons x xs ih =>
    rcases htake : d.takePair cfg x with ⟨f, _ | _⟩
    · exact .next htake (ih (by rwa [Decoder.takePairs_cons htake] at htaken))
    · simp [Decoder.takePairs, htake] at htaken

theorem bitSymbols_eq (b : Bool) : bitSymbols b = List.replicate (cyclesOf b - 1) b ++ [b] := by
  cases b <;> rfl

/-- From an empty window on, the symbols of the bits that fill the frame complete it, if they make it valid. -/
theorem Decoder.completes_frame {cfg : Config} (hcfg : cfg.wellFormed = true) {b : Bool} {bs : List Bool} {d : Decoder}
    (hproto : d.proto = .h10301) (hwin : d.winLen = 0) (hcnt : d.bitCnt + (b :: bs).length = 96)
    (hvalid : h10Valid cfg ((b :: bs).foldl shiftInBit d.frame96) = true) :
    d.Completes cfg ((b :: bs).flatMap bitSymbols) (h10Tag ((b :: bs).foldl shiftInBit d.frame96)) := by
  induction bs generalizing b d with
  | nil =>
    obtain ⟨e, f, htaken, htake, -⟩ := d.exists_take_bitSymbols hcfg hproto hwin b
    rw [List.length_singleton] at hcnt
    rw [if_pos ⟨by omega, hvalid⟩] at htake
    rw [List.flatMap_singleton, bitSymbols_eq]
    exact .of_takePairs htaken (.last htake)
  | cons c bs ih =>
    obtain ⟨e, f, htaken, htake, hproto', hwin', hcnt', hframe⟩ := d.exists_take_bitSymbols hcfg hproto hwin b
    rw [List.length_cons, List.length_cons] at hcnt
    rw [if_neg (by omega)] at htake
    rw [List.foldl_cons, ← hframe] at hvalid ⊢
    rw [List.flatMap_cons, bitSymbols_eq, List.append_assoc, List.singleton_append]
    exact .of_takePairs htaken (.next htake (ih hproto' hwin' (by rw [List.length_cons]; omega) hvalid))

/-! ### Entries cut into batches (R297, R307, R309) -/

section withEb

variable (cfg : Config) (d : Decoder) (eb : List EdgeEvent) (x : Bool)

theorem Decoder.winPush_withEb : ({ d with eb := eb } : Decoder).winPush x = { d.winPush x with eb := eb } := by
  rw [Decoder.winPush, Decoder.winPush]
  split <;> rfl

theorem Decoder.winDetect_withEb : ({ d with eb := eb } : Decoder).winDetect cfg = d.winDetect cfg := rfl

/-- What a decoder does with a pair does not depend on the entries that wait. -/
theorem Decoder.takePair_withEb :
    ({ d with eb := eb } : Decoder).takePair cfg x =
      ({ (d.takePair cfg x).1 with eb := eb }, (d.takePair cfg x).2) := by
  rw [Decoder.takePair, Decoder.takePair]
  split
  · rw [Decoder.winPush_withEb, Decoder.winDetect_withEb]
    cases (d.winPush x).winDetect cfg <;> rfl
  · rfl

end withEb

theorem Decoder.Completes.withEb {cfg : Config} {d : Decoder} {ss : List Bool} {tag : Tag} (h : d.Completes cfg ss tag)
    (eb : List EdgeEvent) : ({ d with eb := eb } : Decoder).Completes cfg ss tag := by
  induction h with
  | last htake => exact .last (by rw [Decoder.takePair_withEb, htake])
  | next htake _ ih => exact .next (by rw [Decoder.takePair_withEb, htake]) ih

/-- The entries that wait and those to come are whole cycles, and their symbols complete a frame. -/
structure Decoder.Awaits (cfg : Config) (d : Decoder) (coming : List EdgeEvent) (tag : Tag) : Prop where
  proto_eq : d.proto = .h10301
  waiting : d.eb.length < 2
  completes : ∃ ss, d.eb ++ coming = ss.flatMap (cycle cfg) ∧ d.Completes cfg ss tag

/-- Fewer than two entries wait for those to come. -/
theorem Decoder.Completes.pass_of_short {cfg : Config} {d : Decoder} {ss : List Bool} {tag : Tag}
    (h : d.Completes cfg ss tag) (hproto : d.proto = .h10301) {es more : List EdgeEvent}
    (hsplit : es ++ more = ss.flatMap (cycle cfg)) (hlen : es.length < 2) :
    ∃ e : Decoder, d.pass cfg es = (e, none) ∧ e.Awaits cfg more tag :=
  ⟨_, Decoder.pass_of_short hlen, hproto, hlen, _, hsplit, h.withEb es⟩

theorem cons_cons_eq_cycle_append {cfg : Config} {a b : EdgeEvent} {rest more : List EdgeEvent} {s : Bool}
    {ss : List Bool} (h : a :: b :: rest ++ more = (s :: ss).flatMap (cycle cfg)) :
    a = ⟨halfPeriod cfg s, true⟩ ∧ b = ⟨halfPeriod cfg s, false⟩ ∧ rest ++ more = ss.flatMap (cycle cfg) := by
  simpa [cycle] using h

section batches

variable {cfg : Config} (hcfg : EvenTones cfg) {tag : Tag}
include hcfg

/-- The loop over the entries there are so far finds the frame, if they are all there are, or takes whole cycles and
awaits the others. -/
theorem Decoder.Completes.pass {d : Decoder} {ss : List Bool} (h : d.Completes cfg ss tag) (hproto : d.proto = .h10301)
    {es more : List EdgeEvent} (hsplit : es ++ more = ss.flatMap (cycle cfg)) :
    (more = [] ∧ (d.pass cfg es).2 = some tag)
    ∨ ∃ e : Decoder, d.pass cfg es = (e, none) ∧ e.Awaits cfg more tag := by
  induction es using List.twoStepInduction generalizing d ss with
  | nil => exact .inr (h.pass_of_short hproto hsplit (by simp))
  | singleton a => exact .inr (h.pass_of_short hproto hsplit (by simp))
  | cons_cons a b rest ih _ =>
    cases h with
    | last htake =>
      obtain ⟨rfl, rfl, hrest⟩ := cons_cons_eq_cycle_append hsplit
      rw [Decoder.pass_of_bit (hcfg.pairClass_cycle hproto _), htake]
      exact .inl ⟨(List.append_eq_nil_iff.mp hrest).2, rfl⟩
    | next htake hcompletes =>
      obtain ⟨rfl, rfl, hrest⟩ := cons_cons_eq_cycle_append hsplit
      rw [Decoder.pass_of_bit (hcfg.pairClass_cycle hproto _), htake]
      exact ih hcompletes ((Decoder.takePair_kept htake).1.trans hproto) hrest

theorem Decoder.Awaits.decExecutePass {d : Decoder} {ev more : List EdgeEvent} (h : d.Awaits cfg (ev ++ more) tag)
    (hlen : ev.length ≤ cfg.frameChunkSize) :
    (more = [] ∧ (decExecutePass cfg d ev).2 = some tag)
    ∨ ∃ e : Decoder, decExecutePass cfg d ev = (e, none) ∧ e.Awaits cfg more tag := by
  obtain ⟨hproto, hwaiting, ss, hsplit, hcompletes⟩ := h
  obtain ⟨-, -, hbuf, hchunk⟩ := hcfg.periods
  have hentries : passEntries cfg d ev = ev := by rw [passEntries_eq_ite, if_pos hproto]
  rcases decExecutePass_cases cfg d ev (by omega) with ⟨hover, -⟩ | ⟨-, hpass⟩
  · rw [hentries] at hover
    omega
  · rw [hentries, ← Decoder.pass] at hpass
    rw [hpass]
    exact hcompletes.pass hcfg hproto (by rwa [← List.append_assoc] at hsplit)

theorem Decoder.Awaits.feedBatches {d : Decoder} {batches : List (List EdgeEvent)}
    (h : d.Awaits cfg batches.flatten tag) (hsizes : ∀ b ∈ batches, 1 ≤ b.length ∧ b.length ≤ cfg.frameChunkSize) :
    (feedBatches cfg d batches).2 = some tag := by
  induction batches generalizing d with
  | nil =>
    obtain ⟨-, hwaiting, ss, hsplit, hcompletes⟩ := h
    rw [List.flatten_nil, List.append_nil] at hsplit
    rw [hsplit, length_flatMap_cycle] at hwaiting
    have hpos := List.length_pos_of_ne_nil hcompletes.ne_nil
    omega
  | cons ev rest ih =>
    obtain ⟨hsize, hsizes⟩ := List.forall_mem_cons.mp hsizes
    rw [Machine.feedBatches]
    rcases h.decExecutePass hcfg hsize.2 with ⟨hmore, hfound⟩ | ⟨e, hnone, hawaits⟩
    · obtain rfl : rest = [] := List.eq_nil_iff_forall_not_mem.mpr fun b hb => by
        have hpos := (hsizes b hb).1
        rw [List.flatten_eq_nil_iff.mp hmore b hb] at hpos
        exact absurd hpos (by simp)
      rw [Machine.feedBatches, hfound]
      rfl
    · rw [hnone]
      dsimp only
      rw [ih hawaits hsizes]
      rfl

end batches

/-- The bits of a frame push out whatever the frame buffer held. -/
theorem foldl_shiftInBit_getMsbD {n : Nat} (v w : BitVec n) :
    ((List.range n).map fun p => w.getMsbD p).foldl shiftInBit v = w :=
  BitVec.eq_of_getMsbD_eq fun p hp => by
    rw [getMsbD_foldl_shiftInBit v _ hp, List.length_map, List.length_range, if_neg (by omega), Nat.add_sub_cancel,
      List.getD_eq_getElem _ _ (by simpa using hp), List.getElem_map, List.getElem_range]

/-- Settles O59: the wave is whole cycles, whose symbols declare the bits of the frame, and the last of them completes
`H10Pack` of the tag. -/
theorem h10DecodesTheWaveOfATag : Obligations.H10DecodesTheWaveOfATag := by
  unfold Obligations.H10DecodesTheWaveOfATag
  intro cfg d fc card batches hcfg hzero hone hproto hcnt heb hwin hwave hsizes
  have hframe := foldl_shiftInBit_getMsbD d.frame96 (h10Pack cfg fc card)
  have hlen : ((List.range 96).map fun p => (h10Pack cfg fc card).getMsbD p).length = 96 := by simp
  rw [fskWave_eq] at hwave
  obtain ⟨b, bs, hbits⟩ := List.exists_cons_of_length_eq_add_one (n := 95) hlen
  rw [hbits] at hframe hlen hwave
  rw [← h10Tag_h10Pack cfg fc card, ← hframe]
  have hcompletes := d.completes_frame hcfg hproto hwin (by rw [hcnt, hlen]) (hframe ▸ h10Valid_h10Pack cfg fc card)
  exact Decoder.Awaits.feedBatches ⟨hcfg, hzero, hone⟩
    ⟨hproto, by simp [heb], _, by rw [heb, List.nil_append, hwave], hcompletes⟩ hsizes

end Sys2Proof.Machine
end

section
/-! The host's bus as a whole (45_host_bus.md R321 to R328, 60_exceptions.md R356): the step that makes the next access,
what an access of MEM reads and writes, and the host side while a command is in flight. -/

namespace Sys2Proof.Machine

/-! ### The next access as a step (R321, R322) -/

/-- The host at the end of its program does nothing. -/
theorem hostTurn_done {s : State} (hproc : s.proc = .idle) (hwait : s.waiting = false) (hprog : s.program = []) :
    hostTurn s = .next s := by
  simp [hostTurn, hproc, hwait, hprog]

/-- Settles O60, by whether the program has an access left. -/
theorem stepPerformsTheNextAccess : Obligations.StepPerformsTheNextAccess := by
  unfold Obligations.StepPerformsTheNextAccess
  intro s hturn hproc hwait
  rw [step_host hturn]
  exact ⟨fun a rest hprog => hostTurn_access hproc hwait hprog, fun hprog => hostTurn_done hproc hwait hprog⟩

/-! ### Commands (R327, R328) -/

theorem runCommand_of_decode {w : Word} {i : Instr} (s : State) (h : decode w = .ok i) : runCommand w s = exec i s := by
  rw [runCommand, h]

/-- Settles O4: the next access is the write to CMD, and its word runs as the command it decodes to. -/
theorem stepRunsTheDecodedCommand : Obligations.StepRunsTheDecodedCommand := by
  unfold Obligations.StepRunsTheDecodedCommand
  intro s w i rest hturn hproc hwait hprog hdecode _
  obtain ⟨haccess, -⟩ := stepPerformsTheNextAccess s hturn hproc hwait
  rw [haccess (commandAccess w) rest hprog, busAccess_commandAccess, runCommand_of_decode _ hdecode]

/-- Settles O23, by the definition of NOP. -/
theorem nopClearsErrAndResults : Obligations.NopClearsErrAndResults := by
  unfold Obligations.NopClearsErrAndResults
  exact ⟨decode_encode .nop, fun s => rfl⟩

/-! ### Reads (R323, R325) -/

/-- A well-formed access is performed. -/
theorem busAccess_of_wellFormed {s : State} {a : HostAccess} (h : a.wellFormed s.cfg.memSize = true) :
    busAccess a s = performAccess a s :=
  if_pos h

theorem hostMemRead_of_le {s : State} {a : Word} {n : Nat} (h : a.toNat + n ≤ s.cfg.memSize) :
    hostMemRead s a n = { s with reply := .value (BitVec.ofNat 32 (leValue (memBytes s.mem a.toNat n))) } := by
  rw [hostMemRead, memRead_of_le h]
  rfl

/-- Settles O10: a well-formed read answers the value and does nothing else, and any other is refused. -/
theorem readsHaveNoSideEffect : Obligations.ReadsHaveNoSideEffect := by
  unfold Obligations.ReadsHaveNoSideEffect
  refine fun s => ⟨fun off halign hblock => ?_, fun a n => ⟨fun hn halign hle => ?_, fun hbad => ?_⟩⟩
  · exact busAccess_of_wellFormed ((HostAccess.wellFormed_regRead_iff _ off 4).mpr ⟨rfl, halign, hblock⟩)
  · rw [busAccess_of_wellFormed ((HostAccess.wellFormed_memRead_iff _ a n).mpr ⟨hn, halign, hle⟩), performAccess,
      hostMemRead_of_le hle]
  · exact busAccess_of_refused (by rwa [← Bool.not_eq_true, HostAccess.wellFormed_memRead_iff])

/-! ### Writes of MEM (R326, 20_memory.md R72) -/

theorem HostAccess.wellFormed_memWrite_iff (memSize : Nat) (x : Word) (n : Nat) (v : Word) :
    (HostAccess.memWrite x n v).wellFormed memSize = true ↔
      n ∈ [1, 2, 4] ∧ x.toNat % n = 0 ∧ x.toNat + n ≤ memSize := by
  rw [wellFormed_memWrite, wellFormed_memRead_iff]

theorem memByte_eq_getD_memBytes {n j : Nat} (m : Memory) (a : Nat) (hj : j < n) :
    memByte m (a + j) = (memBytes m a n).getD j 0 := by
  simp [memBytes, hj]

/-- Byte `j` of a word is its bits `8j+7 : 8j`. -/
theorem leBytes_getD_word {n j : Nat} (v : Word) (hj : j < n) :
    (leBytes n v.toNat).getD j 0 = v.extractLsb' (8 * j) 8 := by
  rw [leBytes_getD n _ j hj, BitVec.extractLsb', Nat.shiftRight_eq_div_pow, Nat.pow_mul]

/-- A write of `n` bytes of a value inside MEM puts them at `a` on, low first, and leaves every other byte. -/
theorem memWrite_range {size a n : Nat} (m : Memory) (v : Nat) (h : a + n ≤ size) :
    ∃ m', memWrite size m a n v = some m' ∧ memBytes m' a n = leBytes n v
      ∧ ∀ x, (x < a ∨ a + n ≤ x) → memByte m' x = memByte m x := by
  simpa [memWrite] using storeBytes_range (l := leBytes n v) m (by simpa using h)

/-- Settles O11: the bytes of a well-formed write are those of the data, low first, and the data is read back from them;
any other write is refused. -/
theorem memoryWriteIsLittleEndianAndReadsBack : Obligations.MemoryWriteIsLittleEndianAndReadsBack := by
  unfold Obligations.MemoryWriteIsLittleEndianAndReadsBack
  refine fun s a n v => ⟨fun hn halign hle => ?_, fun hbad => ?_⟩
  · obtain ⟨m, hwrite, hbytes, hframe⟩ := memWrite_range s.mem v.toNat hle
    refine ⟨m, ?_, fun j hj => ?_, hframe, ?_⟩
    · rw [busAccess_of_wellFormed ((HostAccess.wellFormed_memWrite_iff _ a n v).mpr ⟨hn, halign, hle⟩), performAccess,
        hostMemWrite, hwrite]
    · rw [memByte_eq_getD_memBytes m a.toNat hj, hbytes, leBytes_getD_word v hj]
    · rw [hbytes, leValue_leBytes, Nat.pow_mul]
  · exact busAccess_of_refused (by rwa [← Bool.not_eq_true, HostAccess.wellFormed_memWrite_iff])

/-! ### While a command is in flight (R322) -/

section inFlight
variable {s t : State}

/-- What the host's accesses alone change: the program, of which each is taken off, and the argument registers. -/
def State.hostSide (s : State) : List HostAccess × Word × Word × Word :=
  (s.program, s.regs.arg0, s.regs.arg1, s.regs.arg2)

theorem State.hostSide_eq_iff :
    t.hostSide = s.hostSide ↔ t.program = s.program ∧ t.regs.arg0 = s.regs.arg0 ∧ t.regs.arg1 = s.regs.arg1
      ∧ t.regs.arg2 = s.regs.arg2 := by
  simp only [State.hostSide, Prod.mk.injEq]

theorem State.settle_hostSide (s : State) : s.settle.hostSide = s.hostSide := rfl

theorem State.inFlight_iff : s.inFlight = true ↔ s.proc ≠ .idle ∨ s.waiting = true := by
  simp [State.inFlight]

theorem nextBlock_hostSide {nb nw : Nat} (h : nextBlock s nb nw = .next t) : t.hostSide = s.hostSide := by
  rcases nextBlock_eq_next h with ⟨-, rfl⟩ | ⟨-, b, -, rfl⟩ <;> rfl

theorem elemNext_hostSide {b : Bool} {i nb nw : Nat} (h : elemNext s b i nb nw = .next t) :
    t.hostSide = s.hostSide := by
  rcases elemNext_eq_next h with ⟨-, rfl⟩ | ⟨-, hnext⟩
  · rfl
  · exact nextBlock_hostSide hnext

theorem elem_hostSide {b : Bool} {i nb nw : Nat} (h : elem s b i nb nw = .next t) : t.hostSide = s.hostSide := by
  obtain ⟨cur, -, ⟨-, u, hins, hnext⟩ | ⟨-, hnext⟩⟩ := elem_eq_next h
  · obtain ⟨m, rfl⟩ := ringInsert_eq_some hins
    rw [elemNext_hostSide hnext]
    rfl
  · rw [elemNext_hostSide hnext]
    rfl

/-- With a command in flight the host's turn is an element of CAP_PROCESS, or the hold or the end of NTF_WAIT. -/
theorem hostTurn_hostSide (hflight : s.inFlight = true) (h : hostTurn s = .next t) : t.hostSide = s.hostSide := by
  rw [State.inFlight_iff] at hflight
  rcases hostTurn_cases h with
    ⟨b, i, nb, nw, u, -, helem, rfl⟩ | ⟨-, -, ⟨-, rfl⟩ | ⟨-, rfl⟩⟩ | ⟨hproc, hwait, -⟩ | ⟨hproc, hwait, -⟩
  · rw [State.settle_hostSide, elem_hostSide helem]
  · rfl
  · rfl
  · simp [hproc, hwait] at hflight
  · simp [hproc, hwait] at hflight

/-- Settles O7, by the agent whose turn it is. -/
theorem noAccessWhileACommandIsInFlight : Obligations.NoAccessWhileACommandIsInFlight := by
  unfold Obligations.NoAccessWhileACommandIsInFlight
  intro s t hflight h
  rw [← State.hostSide_eq_iff]
  rcases step_cases h with ⟨rest, -, rfl⟩ | ⟨rest, -, rfl⟩ | ⟨-, hturn⟩
  · simp [State.hostSide]
  · simp [State.hostSide]
  · exact hostTurn_hostSide (s := { s with schedule := s.schedule.tail }) hflight hturn

end inFlight

end Sys2Proof.Machine
end

section
/-! No step stops within the invariant (60_exceptions.md R340, R352): `exec` answers a next state for every command, and
with it each agent's turn, the step and the run. -/

namespace Sys2Proof.Machine

variable {s : State}

/-! ### Commands -/

/-- RB_GET_READ_ADDRESS, RB_GET_READ_LEN and RB_CHECK_EMPTY need a ring, and do nothing but answer (40_ringbuffer.md
R150 to R152). -/
theorem exec_ringQuery (s : State) {i : Instr} (hi : i ∈ [Instr.rbGetReadAddress, .rbGetReadLen, .rbCheckEmpty]) :
    ∃ r0, exec i s = .next (if s.ring.valid = false then s.fail .state else s.succeed r0 0) := by
  simp only [List.mem_cons, List.not_mem_nil, or_false] at hi
  rcases hi with rfl | rfl | rfl <;> exact ⟨_, (apply_ite Host.Outcome.next ..).symm⟩

/-- A command that checks for a ring, then whether the range that it copies ends, at `n`, inside MEM, answers a next
state if it does so with both checks passed. -/
theorem next_of_ring_and_range {o : Host.Outcome State Fault Refusal} {a b : State} {n : Nat}
    (hnone : s.ring.valid = false → o = .next a)
    (hout : s.ring.valid = true → n > s.cfg.memSize → o = .next b)
    (hin : s.ring.valid = true → n ≤ s.cfg.memSize → ∃ t, o = .next t) : ∃ t, o = .next t := by
  cases hv : s.ring.valid with
  | false => exact ⟨a, hnone hv⟩
  | true =>
    rcases Nat.lt_or_ge s.cfg.memSize n with hlt | hle
    · exact ⟨b, hout hv hlt⟩
    · exact hin hv hle

/-- START of CAP_PROCESS pops a slot of the queue (41_capture.md R184). -/
theorem execCapProcess_next (h : s.bq.Inv s.cfg.bqDepth) : ∃ t, execCapProcess s = .next t := by
  by_cases hno : s.ring.valid = false ∨ s.ring.esz ≠ 2#32
  · exact ⟨_, if_pos hno⟩
  · rw [execCapProcess, if_neg hno]
    exact nextBlock_of_lt (List.getElem?_eq_some_iff.mp h.slots_tail).1

/-- Every command answers a next state: its own checks keep what it copies inside MEM, and the invariants of the ring
and of the queue do the rest. -/
theorem State.Inv.exec_next (h : s.Inv) (i : Instr) : ∃ t, Machine.exec i s = .next t := by
  have hring := h.ring_inv
  cases i with
  | nop => exact ⟨_, rfl⟩
  | rbInit => exact ⟨_, rbInitSetsTheDescriptor.2 s⟩
  | rbReset => exact ⟨_, rbResetEmptiesTheRing.2 s⟩
  | rbWrite =>
    obtain ⟨hnone, hout, hin⟩ := rbWriteCopiesByteByByte.2 s _ rfl
    refine next_of_ring_and_range hnone hout fun hv hle => ?_
    obtain ⟨trace, -, -, hnext⟩ := hin hv hring hle
    exact ⟨_, hnext⟩
  | rbInsert =>
    obtain ⟨hnone, hout, hin⟩ := rbInsertStoresAndEvictsTheOldest.2 s
    refine next_of_ring_and_range hnone hout fun hv hle => ?_
    obtain ⟨trace, -, -, hnext⟩ := hin hv hring hle
    exact ⟨_, hnext⟩
  | rbRead =>
    obtain ⟨hnone, hout, hin⟩ := rbReadCopiesByteByByte.2 s _ rfl
    refine next_of_ring_and_range hnone hout fun hv hle => ?_
    obtain ⟨trace, -, -, hnext⟩ := hin hv hring hle
    exact ⟨_, hnext⟩
  | rbAdvanceRead =>
    obtain ⟨t, hnext, -⟩ := rbAdvanceReadDiscardsTheOldest.2 s h.cfg_wf hring
    exact ⟨t, hnext⟩
  | rbGetReadAddress | rbGetReadLen | rbCheckEmpty =>
    exact (exec_ringQuery s (by simp)).elim fun r0 hnext => ⟨_, hnext⟩
  | capStart => exact ⟨_, capStartArmsOrTimesOut.2 s⟩
  | capPause => exact ⟨_, capPauseKeepsWhatIsInFlight.2 s⟩
  | capProcess => exact execCapProcess_next h.bq_inv
  | ntfTake => exact ⟨_, rfl⟩
  | ntfWait => exact ⟨_, (apply_ite Host.Outcome.next ..).symm⟩
  | decBegin imm =>
    cases hp : protoOfImm imm with
    | none => exact ⟨s.fail .arg, by rw [Machine.exec, execDecBegin, hp]⟩
    | some p => exact ⟨_, exec_decBegin_of_proto hp⟩
  | decExecute => exact ⟨_, (decExecuteAndDecEventRunOnePass.2 s _ 0 false rfl).1⟩
  | decEvent dur lvl => exact ⟨_, (decExecuteAndDecEventRunOnePass.2 s _ dur lvl rfl).2⟩
  | decGetData =>
    obtain ⟨hout, hin⟩ := decGetDataWritesTheRecord.2 s
    rcases Nat.lt_or_ge s.cfg.memSize (s.regs.arg0.toNat + 8) with hlt | hle
    · exact ⟨_, hout hlt⟩
    · obtain ⟨m, hnext, -⟩ := hin hle
      exact ⟨_, hnext⟩
  | decPartialReset => exact ⟨_, decPartialResetKeepsTheFrame.2 s⟩

/-! ### The turns -/

theorem mapNext_of_next {f : State → State} {o : Host.Outcome State Fault Refusal} (h : ∃ u, o = .next u) :
    ∃ t, mapNext f o = .next t := by
  obtain ⟨u, rfl⟩ := h
  exact ⟨f u, rfl⟩

/-- An illegal word fails, and any other is a command. -/
theorem State.Inv.runCommand_next (h : s.Inv) (w : Word) : ∃ t, runCommand w s = .next t := by
  cases hd : decode w with
  | illegal e => exact ⟨s.fail .opcode, by rw [runCommand, hd]⟩
  | ok i =>
    rw [runCommand_of_decode s hd]
    exact h.exec_next i

/-- An access is refused, or performed; of those performed only a write to CMD starts a command (45_host_bus.md R321 to
R326). -/
theorem State.Inv.busAccess_next (h : s.Inv) (a : HostAccess) : ∃ t, busAccess a s = .next t := by
  cases hwf : a.wellFormed s.cfg.memSize with
  | false => exact ⟨_, busAccess_of_refused hwf⟩
  | true =>
    rw [busAccess_of_wellFormed hwf]
    cases a with
    | regRead off n => exact ⟨_, rfl⟩
    | memRead x n => exact ⟨_, rfl⟩
    | memWrite x n v => exact ⟨_, rfl⟩
    | regWrite off n v =>
      by_cases hcmd : off = 0#32
      · rw [performAccess, if_pos hcmd]
        exact mapNext_of_next (h.runCommand_next v)
      · exact ⟨_, if_neg hcmd⟩

/-- The slot that ELEM reads has been written (70_reset_and_hazards.md R401), and the queue from which the next block
comes is left as it is. -/
theorem State.Inv.elem_next (h : s.Inv) {b : Bool} {i nb nw : Nat} (hp : s.proc = .inblock b i nb nw) :
    ∃ t, Machine.elem s b i nb nw = .next t := by
  obtain ⟨cur, hslot⟩ := h.slot_in_flight hp
  obtain ⟨u, hu, helem⟩ := elem_consumes h hp hslot
  have hbq : u.bq.Inv u.cfg.bqDepth := by
    rw [hu.others]
    exact h.bq_inv
  obtain ⟨t, hnext, -⟩ := elemNext_spec hbq b i nb (if s.cap.havePrev then nw + 1 else nw)
  exact ⟨t, helem.trans hnext⟩

/-- The host's turn goes on with the command in flight, or makes the next access, or finds nothing to do. -/
theorem State.Inv.hostTurn_next (h : s.Inv) : ∃ t, Machine.hostTurn s = .next t := by
  cases hp : s.proc with
  | inblock b i nb nw =>
    rw [hostTurn_inblock hp]
    exact mapNext_of_next (h.elem_next hp)
  | idle =>
    cases hw : s.waiting with
    | true => exact ⟨_, hostTurn_waiting hp hw⟩
    | false =>
      cases hprog : s.program with
      | nil => exact ⟨_, hostTurn_done hp hw hprog⟩
      | cons a rest =>
        rw [hostTurn_access hp hw hprog]
        exact State.Inv.busAccess_next (s := { s with program := rest }) h a

/-- Settles O17, by the agent whose turn it is: only the host's turn has a way to stop. -/
theorem noStepStopsWithinTheInvariant : Obligations.NoStepStopsWithinTheInvariant := by
  unfold Obligations.NoStepStopsWithinTheInvariant
  intro s h
  rw [State.safe, step_eq]
  cases s.schedule.headD .host with
  | timer => exact ⟨_, rfl⟩
  | signal => exact ⟨_, rfl⟩
  | host => exact State.Inv.hostTurn_next (s := { s with schedule := s.schedule.tail }) h

/-! ### Runs (70_reset_and_hazards.md R390) -/

/-- From a state within the invariant a run of any length ends within the invariant. -/
theorem State.Inv.run_next (n : Nat) :
    ∀ {s : State}, s.Inv → ∃ t : State, Host.Core.run Sys2Proof.core n s = .next t ∧ t.Inv := by
  induction n with
  | zero => exact fun {s} h => ⟨s, rfl, h⟩
  | succ n ih =>
    intro s h
    obtain ⟨t, hstep⟩ := noStepStopsWithinTheInvariant s h
    rw [run_succ n hstep]
    exact ih (everyStepKeepsTheInvariant s t h hstep)

/-- Settles O18: reset is within the invariant, and every run stays there. -/
theorem noRunEverStops : Obligations.NoRunEverStops := by
  unfold Obligations.NoRunEverStops
  intro cfg program schedule n hcfg
  exact State.Inv.run_next n (resetMeetsTheInvariant cfg program schedule hcfg)

end Sys2Proof.Machine
end

section
/-! How a command can leave the machine, and what follows for the failures (60_exceptions.md R342, R344). -/

namespace Sys2Proof.Machine

/-- What a command can make of `s`: a failure, which is `State.fail` and no more; an end with the code OK; the time-out
of a DMA disable; or a command that is still in flight. -/
inductive CommandLeft (s : State) : State → Prop where
  | failed (e : ErrCode) : CommandLeft s (s.fail e)
  | succeeded {t : State} (h : t.regs.err = .ok) : CommandLeft s t
  | timedOut {t : State} (h : t.regs.err = .dmaTimeout) : CommandLeft s t
  | inFlight {t : State} (h : t.inFlight = true) : CommandLeft s t

variable {s t : State}

/-- CAP_PROCESS goes on in the block popped, or ends with the code OK (41_capture.md R184). -/
theorem nextBlock_left {nb nw : Nat} (h : nextBlock s nb nw = .next t) : CommandLeft s t := by
  rcases nextBlock_eq_next h with ⟨-, rfl⟩ | ⟨-, b, -, rfl⟩
  · exact .succeeded rfl
  · exact .inFlight rfl

/-- A query fails without a ring, and ends with the code OK with one. -/
theorem ringQuery_left {i : Instr} (hi : i ∈ [Instr.rbGetReadAddress, .rbGetReadLen, .rbCheckEmpty])
    (h : exec i s = .next t) : CommandLeft s t := by
  obtain ⟨r0, hnext⟩ := exec_ringQuery s hi
  cases hnext.symm.trans h
  split
  · exact .failed .state
  · exact .succeeded rfl

/-- Every command leaves the machine in one of these ways. -/
theorem exec_left {i : Instr} (h : exec i s = .next t) : CommandLeft s t := by
  cases i with
  | nop => cases h; exact .succeeded rfl
  | rbInit =>
    rcases execRbInit_eq_next h with ⟨e, rfl⟩ | ⟨-, -, -, rfl⟩
    · exact .failed e
    · exact .succeeded rfl
  | rbReset =>
    rcases execRbReset_eq_next h with ⟨e, rfl⟩ | ⟨-, rfl⟩
    · exact .failed e
    · exact .succeeded rfl
  | rbWrite =>
    rcases execRbWrite_eq_next h with ⟨-, rfl⟩ | ⟨-, -, rfl⟩ | ⟨-, -, m, -, rfl⟩
    · exact .failed .state
    · exact .failed .addr
    · exact .succeeded rfl
  | rbInsert =>
    rcases execRbInsert_eq_next h with ⟨-, rfl⟩ | ⟨-, -, rfl⟩ | ⟨-, -, m, -, rfl⟩
    · exact .failed .state
    · exact .failed .addr
    · exact .succeeded rfl
  | rbRead =>
    rcases execRbRead_eq_next h with ⟨-, rfl⟩ | ⟨-, -, rfl⟩ | ⟨-, -, m, -, rfl⟩
    · exact .failed .state
    · exact .failed .addr
    · exact .succeeded rfl
  | rbAdvanceRead =>
    rcases execRbAdvanceRead_eq_next h with ⟨e, rfl⟩ | ⟨-, -, rfl⟩
    · exact .failed e
    · exact .succeeded rfl
  | rbGetReadAddress | rbGetReadLen | rbCheckEmpty =>
    exact ringQuery_left (by simp) h
  | capStart =>
    obtain ⟨n, ⟨en, rfl⟩ | rfl⟩ := execCapStart_eq_next h
    · exact .succeeded rfl
    · exact .timedOut rfl
  | capPause =>
    obtain ⟨n, ⟨en, rfl⟩ | rfl⟩ := execCapPause_eq_next h
    · exact .succeeded rfl
    · exact .timedOut rfl
  | capProcess =>
    rcases execCapProcess_eq_next h with ⟨e, rfl⟩ | ⟨-, -, hnext⟩
    · exact .failed e
    · exact nextBlock_left hnext
  | ntfTake => cases h; exact .succeeded rfl
  | ntfWait =>
    rcases execNtfWait_eq_next h with ⟨-, rfl⟩ | ⟨-, rfl⟩
    · exact .succeeded rfl
    · exact .inFlight (State.inFlight_iff.mpr (.inr rfl))
  | decBegin imm =>
    rcases execDecBegin_eq_next h with ⟨e, rfl⟩ | ⟨p, rfl⟩
    · exact .failed e
    · exact .succeeded rfl
  | decExecute =>
    rcases execDecExecute_eq_next h with ⟨e, rfl⟩ | ⟨-, ev, rfl⟩
    · exact .failed e
    · exact .succeeded rfl
  | decEvent dur lvl =>
    rcases execDecEvent_eq_next h with ⟨e, rfl⟩ | ⟨-, ev, rfl⟩
    · exact .failed e
    · exact .succeeded rfl
  | decGetData =>
    rcases execDecGetData_eq_next h with rfl | ⟨m, -, rfl⟩
    · exact .failed .addr
    · exact .succeeded rfl
  | decPartialReset =>
    rcases execDecPartialReset_eq_next h with ⟨e, rfl⟩ | rfl
    · exact .failed e
    · exact .succeeded rfl

/-- Settles O19: of the ways a command can leave the machine, only `fail` has another code and nothing in flight. -/
theorem failedCommandChangesNothingElse : Obligations.FailedCommandChangesNothingElse := by
  unfold Obligations.FailedCommandChangesNothingElse
  intro s t i _ h hended herr hdma
  cases exec_left h with
  | failed e => rfl
  | succeeded hok => exact absurd hok herr
  | timedOut htimeout => exact absurd htimeout hdma
  | inFlight hflight => exact absurd hflight (ne_true_of_eq_false hended)

end Sys2Proof.Machine
end

section
/-! What the registers read after the power-on reset (70_reset_and_hazards.md R381, 10_state.md R53). -/

namespace Sys2Proof.Machine

/-- Slots that are all 0 leave the slot bits of BQ_STAT 0, however many there are (10_state.md R54). -/
theorem bqSlotBits_replicate_false (n k : Nat) : bqSlotBits (List.replicate n false) k = 0#32 := by
  induction n generalizing k with
  | zero => rfl
  | succ n ih => rw [List.replicate_succ, bqSlotBits, bitAt_false, ih, BitVec.or_zero]

/-- At reset the queue is empty, with head and tail on slot 0, and no slot names the second half of the buffer. -/
theorem State.bqStat_resetWith (cfg : Config) : (State.resetWith cfg).bqStat = 0#32 :=
  calc (State.resetWith cfg).bqStat
    _ = fieldAt 0 8 0 ||| fieldAt 8 8 0 ||| fieldAt 16 8 0 ||| bqSlotBits (List.replicate cfg.bqDepth false) 0 := rfl
    _ = fieldAt 0 8 0 ||| fieldAt 8 8 0 ||| fieldAt 16 8 0 ||| 0#32 := by rw [bqSlotBits_replicate_false]
    _ = 0#32 := rfl

/-- Three registers alone are computed from the parameters at reset: STATUS from the pin, ARR from the width of the
counter, and BQ_STAT from its slots, as many as the parameters say. -/
theorem State.readReg_resetWith_eq_reset (cfg : Config) {off : Nat} (hstatus : off ≠ 0x04) (harr : off ≠ 0x24)
    (hbq : off ≠ 0x38) : (State.resetWith cfg).readReg off = State.reset.readReg off := by
  unfold State.readReg
  split
  any_goals contradiction
  all_goals rfl

/-- With the default parameters every register but STATUS and ARR reads 0, by the table of R381. -/
theorem State.readReg_reset {off : Nat} (hstatus : off ≠ 0x04) (harr : off ≠ 0x24) :
    State.reset.readReg off = 0#32 := by
  unfold State.readReg
  split
  any_goals contradiction
  all_goals rfl

theorem State.readReg_resetWith (cfg : Config) {off : Nat} (hstatus : off ≠ 0x04) (harr : off ≠ 0x24) :
    (State.resetWith cfg).readReg off = 0#32 := by
  by_cases hbq : off = 0x38
  · subst hbq
    exact State.bqStat_resetWith cfg
  · rw [State.readReg_resetWith_eq_reset cfg hstatus harr hbq, State.readReg_reset hstatus harr]

/-- Settles O14: STATUS shows the pin, ARR is set to all ones, and no other register has a bit set. -/
theorem resetRegistersRead : Obligations.ResetRegistersRead := by
  unfold Obligations.ResetRegistersRead
  intro cfg _
  exact ⟨State.status_resetWith cfg, rfl, fun _ => State.readReg_resetWith cfg⟩

end Sys2Proof.Machine
end
